-- ==== Sys2Proof/Word.lean ====
section
/-! DEFINITION. The word types of the hardware: bit, byte, pin identifier, tag (00_scope.md R10, R12). -/

namespace Sys2Proof

/-- A byte, bit 7 the most significant (R10). -/
abbrev Byte := BitVec 8

/-- A bit: `true` is 1, the level "high"; `false` is 0, "low" (R10, R21). -/
abbrev Bit := Bool

/-- A pin is an opaque identifier (R4, R7). -/
abbrev Pin := Nat

/-- A tag is one byte, the key of a registry (R12, R34). -/
abbrev Tag := Byte

end Sys2Proof
end

