-- ==== Sys2Proof/Config.lean ====
section
/-! DEFINITION. The configuration record: the parameters the platform fixes at construction (00_scope.md R7,
10_state.md R29, R30), the free value of the environment, and the platform that `State.reset` stands on. -/

namespace Sys2Proof

/-- The five clocking modes (R1, 30_encoding.md R81). The reserved numbers 4 and 6 upward have no constructor
(R82); `Machine.modeOfNumber` refuses them (log entry 30). -/
inductive Mode
  | m0 | m1 | m2 | m3 | m5
deriving DecidableEq, Repr

/-- The configuration of one Bus Target (10_state.md R29). `H` is derived: `Machine.halfPeriod`. -/
structure BusTarget where
  pinDout : Pin
  pinDin  : Pin
  pinClk  : Pin
  pinSel  : Pin
  bitRate : Nat
  mode    : Mode
deriving DecidableEq, Repr

/-- The configuration of one Output Target (10_state.md R29). -/
structure OutputTarget where
  pinOut : Pin
deriving DecidableEq, Repr

/-- `RESP_TERM`, one of 0A, 0D, 0D 0A (R7, D6). -/
inductive RespTerm
  | lf | cr | crlf
deriving DecidableEq, Repr

/-- The eleven diagnostic names (60_exceptions.md R201). -/
inductive Diag
  | unknownCommand  -- unknown_command
  | missingMillis  -- missing_millis
  | badDigit  -- bad_digit
  | tooShort  -- too_short
  | badTag  -- bad_tag
  | invalidLevel  -- invalid_level
  | tooLong  -- too_long
  | invalidHighDigit  -- invalid_high_digit
  | invalidLowDigit  -- invalid_low_digit
  | incompleteHexByte  -- incomplete_hex_byte
  | moreThanMax  -- more_than_max
deriving DecidableEq, Repr

/-- `DIAG_TEXT`, a byte string for each diagnostic name (R7, D7). -/
structure DiagText where
  unknownCommand : List Byte
  missingMillis : List Byte
  badDigit : List Byte
  tooShort : List Byte
  badTag : List Byte
  invalidLevel : List Byte
  tooLong : List Byte
  invalidHighDigit : List Byte
  invalidLowDigit : List Byte
  incompleteHexByte : List Byte
  moreThanMax : List Byte
deriving DecidableEq, Repr

/-- The parameters of the platform (R7), immutable for the life of the system. -/
structure Config where
  /-- "tag→Bus Target" registry. -/
  busReg : List (Tag × BusTarget)
  /-- "tag→Output Target" registry. -/
  outReg : List (Tag × OutputTarget)
  /-- `MAX_TRANSFER_BYTES`. -/
  maxTransferBytes : Nat
  /-- `DEBUG`. -/
  debug : Bool
  /-- `SEL_ACTIVE`, the latch value that means "select asserted" (D1). -/
  selActive : Bit
  /-- `TICK_HZ`, ticks per second (D2). -/
  tickHz : Nat
  /-- `DELAY_WIDTH`, width of the delay accumulator in bits (D5). -/
  delayWidth : Nat
  /-- `RESP_TERM` (D6). -/
  respTerm : RespTerm
  /-- `COMMENT_MARK` (D7). -/
  commentMark : Byte
  /-- `BANNER_TEXT` (D7). -/
  bannerText : List Byte
  /-- `DIAG_TEXT` (D7). -/
  diagText : DiagText
deriving DecidableEq, Repr

/-- The free value of the environment: what the `n`-th sample of DIN returns when `State.din` does not say.
No body: nothing can prove a value of it (10_state.md R22, 93_implementation_defined.md U4; log entry 3). -/
opaque Config.freeDin : Nat → Bit

/-- The phrases the source quotes for the diagnostics (R201), as ASCII bytes. DESIGN CHOICE as a value of
`DIAG_TEXT` (log entry 2). -/
def DiagText.quoted : DiagText where
  unknownCommand := [0x55#8, 0x6E#8, 0x6B#8, 0x6E#8, 0x6F#8, 0x77#8, 0x6E#8, 0x20#8, 0x63#8, 0x6F#8, 0x6D#8, 0x6D#8, 0x61#8, 0x6E#8, 0x64#8]
  missingMillis := [0x6D#8, 0x69#8, 0x73#8, 0x73#8, 0x69#8, 0x6E#8, 0x67#8, 0x20#8, 0x6D#8, 0x69#8, 0x6C#8, 0x6C#8, 0x69#8, 0x73#8]
  badDigit := [0x62#8, 0x61#8, 0x64#8, 0x20#8, 0x64#8, 0x69#8, 0x67#8, 0x69#8, 0x74#8]
  tooShort := [0x74#8, 0x6F#8, 0x6F#8, 0x20#8, 0x73#8, 0x68#8, 0x6F#8, 0x72#8, 0x74#8]
  badTag := [0x42#8, 0x61#8, 0x64#8, 0x20#8, 0x74#8, 0x61#8, 0x67#8]
  invalidLevel := [0x49#8, 0x6E#8, 0x76#8, 0x61#8, 0x6C#8, 0x69#8, 0x64#8, 0x20#8, 0x6C#8, 0x65#8, 0x76#8, 0x65#8, 0x6C#8]
  tooLong := [0x74#8, 0x6F#8, 0x6F#8, 0x20#8, 0x6C#8, 0x6F#8, 0x6E#8, 0x67#8]
  invalidHighDigit := [0x69#8, 0x6E#8, 0x76#8, 0x61#8, 0x6C#8, 0x69#8, 0x64#8, 0x20#8, 0x68#8, 0x69#8, 0x67#8, 0x68#8, 0x20#8, 0x64#8, 0x69#8, 0x67#8, 0x69#8, 0x74#8]
  invalidLowDigit := [0x69#8, 0x6E#8, 0x76#8, 0x61#8, 0x6C#8, 0x69#8, 0x64#8, 0x20#8, 0x6C#8, 0x6F#8, 0x77#8, 0x20#8, 0x64#8, 0x69#8, 0x67#8, 0x69#8, 0x74#8]
  incompleteHexByte := [0x69#8, 0x6E#8, 0x63#8, 0x6F#8, 0x6D#8, 0x70#8, 0x6C#8, 0x65#8, 0x74#8, 0x65#8, 0x20#8, 0x68#8, 0x65#8, 0x78#8, 0x20#8, 0x62#8, 0x79#8, 0x74#8, 0x65#8]
  moreThanMax := [0x6D#8, 0x6F#8, 0x72#8, 0x65#8, 0x20#8, 0x74#8, 0x68#8, 0x61#8, 0x6E#8, 0x20#8, 0x4D#8, 0x41#8, 0x58#8, 0x20#8, 0x62#8, 0x79#8, 0x74#8, 0x65#8, 0x73#8]

/-- The platform that `State.reset` stands on. DESIGN CHOICE: the spec gives no value for any parameter (N7);
log entries 2 and 14. No statement rests on it. -/
def Config.resetPlatform : Config where
  busReg :=
    [(0x00#8, ⟨0, 1, 2, 3, 100000, .m0⟩), (0x01#8, ⟨4, 5, 6, 7, 100000, .m1⟩),
     (0x02#8, ⟨8, 9, 10, 11, 100000, .m2⟩), (0x03#8, ⟨12, 13, 14, 15, 100000, .m3⟩),
     (0x05#8, ⟨16, 17, 18, 19, 100000, .m5⟩), (0x53#8, ⟨20, 21, 22, 23, 100000, .m0⟩)]
  outReg := [(0x00#8, ⟨24⟩), (0x41#8, ⟨25⟩)]
  maxTransferBytes := 64
  debug := false
  selActive := false
  tickHz := 1000000
  delayWidth := 32
  respTerm := .lf
  commentMark := 0x3B#8
  bannerText := []
  diagText := DiagText.quoted

end Sys2Proof
end

