-- ==== Sys2Proof/Syntax.lean ====
section
/-! DEFINITION. The instructions: one constructor for each of the 25 rows of opcode_table.json. -/

namespace Sys2Proof

/-- The response character of a bare code: `C` 0x43 or `E` 0x45, no other (30_encoding.md R85). -/
inductive BareCode
  | c | e
deriving DecidableEq, Repr

/-- The three spaces that give a row of the table its number (30_encoding.md R70, R88): the bytes of a command
line, the mode number of a Bus Target, the spec's own operation index. -/
inductive Format
  | line | mode | op
deriving DecidableEq, Repr

/-- The instructions. An operand `b` or `o` names a Bus Target or an Output Target by its tag (R12). -/
inductive Instr
  /-- CMD_D, `D<digits>` (R155); `arg = line[1..len-1]`. -/
  | cmdD (arg : List Byte)
  /-- CMD_T, `T<tag><hex-pairs>` (R157). -/
  | cmdT (arg : List Byte)
  /-- CMD_I, `I<tag><0|1>` (R159). -/
  | cmdI (arg : List Byte)
  /-- CMD_COMMENT, `;<anything>` (R160). -/
  | cmdComment (arg : List Byte)
  /-- CMD_UNKNOWN, any other first byte (R161); `key = line[0]`, `rest` is not looked at. -/
  | cmdUnknown (key : Byte) (rest : List Byte)
  /-- BITPHASE_M0 (R107); `d` is the outbound bit. -/
  | bitphaseM0 (b : Tag) (d : Bit)
  /-- BITPHASE_M1 (R108). -/
  | bitphaseM1 (b : Tag) (d : Bit)
  /-- BITPHASE_M2 (R109). -/
  | bitphaseM2 (b : Tag) (d : Bit)
  /-- BITPHASE_M3 (R110). -/
  | bitphaseM3 (b : Tag) (d : Bit)
  /-- BITPHASE_M5 (R111). -/
  | bitphaseM5 (b : Tag) (d : Bit)
  /-- INIT_BUS (R101). -/
  | initBus (b : Tag)
  /-- SELECT_ASSERT (R103). -/
  | selectAssert (b : Tag)
  /-- SELECT_DEASSERT (R104). -/
  | selectDeassert (b : Tag)
  /-- TRANSFER (R105); `out` is the outbound byte sequence. -/
  | transfer (b : Tag) (out : List Byte)
  /-- EXCHANGE_BYTE (R106). -/
  | exchangeByte (b : Tag) (tx : Byte)
  /-- WAIT_HALF (R112). -/
  | waitHalf (b : Tag)
  /-- INIT_OUT (R141). -/
  | initOut (o : Tag)
  /-- SET (R142). -/
  | setOut (o : Tag) (level : Bool)
  /-- SERVICE (R150). -/
  | service
  /-- FEED (R151). -/
  | feed (c : Byte)
  /-- DISPATCH (R154). -/
  | dispatch (l : List Byte)
  /-- RESP_BARE (R162). -/
  | respBare (r : BareCode)
  /-- RESP_DATA (R163); its response character is always `S`. -/
  | respData (payload : List Byte)
  /-- RESP_COMMENT (R164). -/
  | respComment (text : List Byte)
  /-- BANNER (R165). -/
  | banner
deriving DecidableEq, Repr

end Sys2Proof
end

