-- ==== Sys2Proof/Machine/Flags.lean ====
section
/-! DEFINITION. The hardware has no flags and no condition codes (10_state.md R28: "There are none"). What this file
holds is the two-valued tests on a byte that the rules of the front end branch on. -/

namespace Sys2Proof.Machine

/-- `\n` 0x0A or `\r` 0x0D, "treated as a single delimiter" (30_encoding.md R84). -/
def isTerminator (c : Byte) : Bool := c == 0x0A#8 || c == 0x0D#8

/-- A decimal digit, 0x30 to 0x39 (R72). -/
def isDigit (c : Byte) : Bool := 0x30 ≤ c.toNat && c.toNat ≤ 0x39

/-- What the first byte of a line selects (R71). -/
inductive Key
  | delay | transfer | output | comment | other
deriving DecidableEq, Repr

/-- The dispatch key, matched "on the byte value of `line[0]` alone" (R71, D14). -/
def keyOf (c : Byte) : Key :=
  if c = 0x44#8 then .delay
  else if c = 0x54#8 then .transfer
  else if c = 0x49#8 then .output
  else if c = 0x3B#8 then .comment
  else .other

end Sys2Proof.Machine
end

