-- ==== Sys2Proof/Machine/Operands.lean ====
section
/-! DEFINITION. Operand forms: bits of a byte, the clocking modes and their action lists, the registries, the
decimal, hex and level arguments of the command lines, and the bytes of the responses. Nothing here reads the state. -/

namespace Sys2Proof.Machine

/-! ### Bits of a byte (00_scope.md R10) -/

/-- `v[k]`. -/
def bitAt (v : Byte) (k : Nat) : Bit := v.getLsbD k

/-- `v[k] <- b`. -/
def putBit (v : Byte) (k : Nat) (b : Bit) : Byte :=
  if b then v ||| (1#8 <<< k) else v &&& ~~~(1#8 <<< k)

/-! ### Clocking modes (30_encoding.md R81, 40_bus_target.md R102, R107 to R111) -/

/-- The mode a number stands for; 4 and 6 upward are reserved and refused (R82, D8). -/
def modeOfNumber (n : Nat) : Option Mode :=
  if n = 0 then some .m0
  else if n = 1 then some .m1
  else if n = 2 then some .m2
  else if n = 3 then some .m3
  else if n = 5 then some .m5
  else none

/-- The number of a mode (R81). -/
def modeNumber : Mode → Nat
  | .m0 => 0
  | .m1 => 1
  | .m2 => 2
  | .m3 => 3
  | .m5 => 5

/-- `idle(mode)`: "modes 0,1 idle low; modes 2,3,5 idle high" (R102). -/
def idleLevel : Mode → Bit
  | .m0 => false
  | .m1 => false
  | .m2 => true
  | .m3 => true
  | .m5 => true

/-- The actions a bit-phase is made of (R122). -/
inductive Action
  | driveBit | wait | sample | clockHigh | clockLow
deriving DecidableEq, Repr

/-- The action list of each mode, "the source's, action for action" (R107 to R111). -/
def actions : Mode → List Action
  | .m0 => [.driveBit, .wait, .sample, .clockHigh, .wait, .clockLow]
  | .m1 => [.clockHigh, .driveBit, .wait, .sample, .clockLow, .wait]
  | .m2 => [.driveBit, .wait, .sample, .clockLow, .wait, .clockHigh]
  | .m3 => [.wait, .clockLow, .driveBit, .wait, .sample, .clockHigh]
  | .m5 => [.driveBit, .wait, .clockLow, .wait, .sample, .clockHigh, .wait]

/-- `H = floor(TICK_HZ / (2 * bit_rate))` (00_scope.md R8(c), R112). -/
def halfPeriod (tickHz bitRate : Nat) : Nat := tickHz / (2 * bitRate)

/-! ### Registries and sizes -/

/-- `lookup(reg, t)` (R11): "a plain finite-map lookup" (20_memory.md R58). -/
def lookup {α : Type} : List (Tag × α) → Tag → Option α
  | [], _ => none
  | (k, v) :: reg, t => if t = k then some v else lookup reg t

/-- `LINE_CAP = 2 * MAX_TRANSFER_BYTES + 2` (R7). -/
def lineCap (cfg : Config) : Nat := 2 * cfg.maxTransferBytes + 2

/-! ### The decimal argument of `LINE_D` (R72, R77, R155) -/

/-- The digits from the accumulated value `v` on: `value = value*10 + digit`, reduced mod `2^DELAY_WIDTH`. -/
def parseDigits (width : Nat) : Nat → List Byte → Except Diag Nat
  | v, [] => .ok v
  | v, c :: cs =>
    if isDigit c then parseDigits width ((v * 10 + (c.toNat - 0x30)) % 2 ^ width) cs
    else .error .badDigit

/-- The argument of CMD_D, checked whole before any waiting (R155). -/
def parseDelay (width : Nat) (arg : List Byte) : Except Diag Nat :=
  match arg with
  | [] => .error .missingMillis
  | c :: cs => parseDigits width 0 (c :: cs)

/-! ### The hex pairs of `LINE_T` (R73, R78, R157) -/

/-- `hexval(c)`, undefined for a byte that is no hex digit (R78). -/
def hexval (c : Byte) : Option Nat :=
  let v := c.toNat
  if 0x30 ≤ v ∧ v ≤ 0x39 then some (v - 0x30)
  else if 0x41 ≤ v ∧ v ≤ 0x46 then some (v - 0x41 + 10)
  else if 0x61 ≤ v ∧ v ≤ 0x66 then some (v - 0x61 + 10)
  else none

/-- `high<<4 | low` (R78). -/
def hexByte (high low : Nat) : Byte := BitVec.ofNat 8 ((high <<< 4) ||| low)

/-- The pairs of a T line from byte number `n` on, scanned left to right: `more_than_max` when a pair begins past the
bound, then its high digit, its missing half, its low digit (R157, R205). -/
def parsePairs (max : Nat) : Nat → List Byte → Except Diag (List Byte)
  | _, [] => .ok []
  | n, [h] =>
    if n = max then .error .moreThanMax
    else match hexval h with
      | none => .error .invalidHighDigit
      | some _ => .error .incompleteHexByte
  | n, h :: l :: rest =>
    if n = max then .error .moreThanMax
    else match hexval h, hexval l with
      | none, _ => .error .invalidHighDigit
      | some _, none => .error .invalidLowDigit
      | some hv, some lv =>
        match parsePairs max (n + 1) rest with
        | .error d => .error d
        | .ok bytes => .ok (hexByte hv lv :: bytes)

/-- The argument of CMD_T: the Bus Target and the outbound bytes, or the first check that fails (R157, D16). -/
def parseTransfer (cfg : Config) (arg : List Byte) : Except Diag (BusTarget × List Byte) :=
  match arg with
  | [] => .error .tooShort
  | t :: pairs =>
    match lookup cfg.busReg t with
    | none => .error .badTag
    | some b =>
      match parsePairs cfg.maxTransferBytes 0 pairs with
      | .error d => .error d
      | .ok bytes => .ok (b, bytes)

/-! ### The argument of `LINE_I` (R74, R79, R159) -/

/-- `'0'` 0x30 is false, `'1'` 0x31 is true (R79). -/
def levelOf (c : Byte) : Option Bool :=
  if c = 0x30#8 then some false else if c = 0x31#8 then some true else none

/-- The argument of CMD_I: the Output Target and the level, or the first check that fails (R159). -/
def parseOutput (cfg : Config) (arg : List Byte) : Except Diag (OutputTarget × Bool) :=
  match arg with
  | [] => .error .tooShort
  | t :: rest =>
    match lookup cfg.outReg t with
    | none => .error .badTag
    | some o =>
      match rest with
      | [] => .error .tooShort
      | c :: extra =>
        match levelOf c with
        | none => .error .invalidLevel
        | some level => if extra.isEmpty then .ok (o, level) else .error .tooLong

/-! ### The bytes of the responses (R85, R162 to R164) -/

/-- The bytes of `RESP_TERM` (R7). -/
def termBytes : RespTerm → List Byte
  | .lf => [0x0A#8]
  | .cr => [0x0D#8]
  | .crlf => [0x0D#8, 0x0A#8]

/-- The response character of a bare code (R85). -/
def bareByte : BareCode → Byte
  | .c => 0x43#8
  | .e => 0x45#8

/-- The lower-case hex digit of a nibble: `0x30 + v` for `v < 10` and `0x61 + v - 10` otherwise (R85). -/
def lowHex (v : Nat) : Byte := if v < 10 then BitVec.ofNat 8 (0x30 + v) else BitVec.ofNat 8 (0x61 + v - 10)

/-- "two lowercase hex characters per byte, no separators", the high nibble first (R85, R52). -/
def hexChars : List Byte → List Byte
  | [] => []
  | v :: vs => lowHex (v.toNat / 16) :: lowHex (v.toNat % 16) :: hexChars vs

/-- A bare code line (R162). -/
def bareLine (cfg : Config) (r : BareCode) : List Byte := bareByte r :: termBytes cfg.respTerm

/-- A data response line: `S`, the payload in hex, the terminator (R163). -/
def dataLine (cfg : Config) (payload : List Byte) : List Byte :=
  0x53#8 :: (hexChars payload ++ termBytes cfg.respTerm)

/-- A comment line, nothing at all when `DEBUG` is false (R164). -/
def commentLine (cfg : Config) (text : List Byte) : List Byte :=
  if cfg.debug then cfg.commentMark :: (text ++ termBytes cfg.respTerm) else []

/-- `DIAG_TEXT[diag]` (R7). -/
def diagBytes (t : DiagText) : Diag → List Byte
  | .unknownCommand => t.unknownCommand
  | .missingMillis => t.missingMillis
  | .badDigit => t.badDigit
  | .tooShort => t.tooShort
  | .badTag => t.badTag
  | .invalidLevel => t.invalidLevel
  | .tooLong => t.tooLong
  | .invalidHighDigit => t.invalidHighDigit
  | .invalidLowDigit => t.invalidLowDigit
  | .incompleteHexByte => t.incompleteHexByte
  | .moreThanMax => t.moreThanMax

/-- What one error sends: the comment line in `DEBUG` mode, then `E` (60_exceptions.md R204). -/
def errorLines (cfg : Config) (d : Diag) : List Byte :=
  commentLine cfg (diagBytes cfg.diagText d) ++ bareLine cfg .e

end Sys2Proof.Machine
end

