-- ==== Sys2Proof/WellFormed.lean ====
section
/-! DEFINITION. Well-formed configurations (00_scope.md R8) and well-formed instructions of a configuration. -/

namespace Sys2Proof

/-- Every pin of every target of both registries, with repetitions. -/
def Config.pins (cfg : Config) : List Pin :=
  cfg.busReg.flatMap (fun e => [e.2.pinDout, e.2.pinDin, e.2.pinClk, e.2.pinSel])
    ++ cfg.outReg.map (fun e => e.2.pinOut)

/-- R8(b): every bit rate is greater than 0. R8(a) and R8(c) hold by the types: a mode is one of the five and `H` is
derived. -/
def Config.ratesPositive (cfg : Config) : Bool := cfg.busReg.all (fun e => 0 < e.2.bitRate)

/-- R8(d): no pin identifier occurs twice. -/
def Config.pinsDistinct (cfg : Config) : Bool := decide cfg.pins.Nodup

/-- R8(e): keys are unique within each registry. -/
def Config.keysUnique (cfg : Config) : Bool :=
  decide (cfg.busReg.map Prod.fst).Nodup && decide (cfg.outReg.map Prod.fst).Nodup

/-- The ranges R7 gives: `TICK_HZ` and `DELAY_WIDTH` are greater than 0. -/
def Config.rangesOk (cfg : Config) : Bool := decide (0 < cfg.tickHz) && decide (0 < cfg.delayWidth)

/-- A text of a comment line holds no terminator (D7). -/
def textOk (text : List Byte) : Bool := text.all (fun c => !Machine.isTerminator c)

/-- D7: "`BANNER_TEXT`, `DIAG_TEXT`: `OPEN` byte strings containing no 0x0A or 0x0D". -/
def Config.textsOk (cfg : Config) : Bool :=
  textOk cfg.bannerText &&
    [Diag.unknownCommand, .missingMillis, .badDigit, .tooShort, .badTag, .invalidLevel, .tooLong, .invalidHighDigit,
      .invalidLowDigit, .incompleteHexByte, .moreThanMax].all (fun d => textOk (Machine.diagBytes cfg.diagText d))

/-- A configuration is well formed (R8): (a) to (f), with the ranges of R7 and D7 (log entry 22). -/
def Config.wf (cfg : Config) : Bool :=
  cfg.ratesPositive && cfg.pinsDistinct && cfg.keysUnique && decide (1 ≤ cfg.maxTransferBytes) && cfg.rangesOk
    && cfg.textsOk

/-- `t` is a key of `busReg`. -/
def Config.hasBus (cfg : Config) (t : Tag) : Bool := (Machine.lookup cfg.busReg t).isSome

/-- `t` is a key of `busReg` and its target is in mode `m`. -/
def Config.hasBusInMode (cfg : Config) (t : Tag) (m : Mode) : Bool :=
  match Machine.lookup cfg.busReg t with
  | none => false
  | some b => decide (b.mode = m)

/-- `t` is a key of `outReg`. -/
def Config.hasOut (cfg : Config) (t : Tag) : Bool := (Machine.lookup cfg.outReg t).isSome

/-- An instruction is well formed for a configuration: a line holds no terminator (R71), the key of an unknown command
is none of the four (R76), a tag is registered (R12), a bit-phase is the one its target's mode selects (R106), a
transfer fits `MAX_TRANSFER_BYTES` (R105), a dispatched line is not empty (R83, D19). -/
def Instr.wf (cfg : Config) : Instr → Bool
  | .cmdD arg => textOk arg
  | .cmdT arg => textOk arg
  | .cmdI arg => textOk arg
  | .cmdComment arg => textOk arg
  | .cmdUnknown key rest => decide (Machine.keyOf key = .other) && textOk (key :: rest)
  | .bitphaseM0 b _ => cfg.hasBusInMode b .m0
  | .bitphaseM1 b _ => cfg.hasBusInMode b .m1
  | .bitphaseM2 b _ => cfg.hasBusInMode b .m2
  | .bitphaseM3 b _ => cfg.hasBusInMode b .m3
  | .bitphaseM5 b _ => cfg.hasBusInMode b .m5
  | .initBus b => cfg.hasBus b
  | .selectAssert b => cfg.hasBus b
  | .selectDeassert b => cfg.hasBus b
  | .transfer b out => cfg.hasBus b && decide (out.length ≤ cfg.maxTransferBytes)
  | .exchangeByte b _ => cfg.hasBus b
  | .waitHalf b => cfg.hasBus b
  | .initOut o => cfg.hasOut o
  | .setOut o _ => cfg.hasOut o
  | .service => true
  | .feed _ => true
  | .dispatch l => !l.isEmpty && textOk l
  | .respBare _ => true
  | .respData _ => true
  | .respComment text => textOk text
  | .banner => true

end Sys2Proof
end

