-- ==== Sys2Proof/Decode.lean ====
section
/-! DEFINITION. Decoding and encoding. The wire knows one format, the command line (30_encoding.md R70, R71). The
mode numbers (R81) and the operation indices (R88) "appear on no wire": they number the rows of opcode_table.json, and
the bytes after them, which carry the operands of a call, are the model's own (log entry 12). -/

namespace Sys2Proof

/-- Why bytes are no instruction. -/
inductive DecodeError
  /-- No bytes at all; "the empty line is not an encoding at all" (R83). -/
  | emptyWord
  /-- A mode number that is reserved (R82). -/
  | reservedMode (n : Nat)
  /-- An index that R88 does not list. -/
  | unknownOperation (n : Nat)
  /-- The operand bytes do not fit the operation. -/
  | badOperands
deriving DecidableEq, Repr

/-- A command line: its first byte is the key, the rest the argument (R71). -/
def decodeLine : List Byte → Except DecodeError Instr
  | [] => .error .emptyWord
  | key :: rest =>
    match Machine.keyOf key with
    | .delay => .ok (.cmdD rest)
    | .transfer => .ok (.cmdT rest)
    | .output => .ok (.cmdI rest)
    | .comment => .ok (.cmdComment rest)
    | .other => .ok (.cmdUnknown key rest)

/-- An operand byte that stands for a bit. -/
def bitOfByte (c : Byte) : Option Bit :=
  if c = 0x00#8 then some false else if c = 0x01#8 then some true else none

/-- The operand byte of a bit. -/
def byteOfBit (b : Bit) : Byte := if b then 0x01#8 else 0x00#8

/-- The bit-phase routine a mode selects (R81). -/
def bitphaseOf (m : Mode) (b : Tag) (d : Bit) : Instr :=
  match m with
  | .m0 => .bitphaseM0 b d
  | .m1 => .bitphaseM1 b d
  | .m2 => .bitphaseM2 b d
  | .m3 => .bitphaseM3 b d
  | .m5 => .bitphaseM5 b d

/-- A mode number (R81, R82) with the target's tag and the outbound bit. -/
def decodeMode : List Byte → Except DecodeError Instr
  | [] => .error .emptyWord
  | n :: operands =>
    match Machine.modeOfNumber n.toNat with
    | none => .error (.reservedMode n.toNat)
    | some m =>
      match operands with
      | [b, c] =>
        match bitOfByte c with
        | some d => .ok (bitphaseOf m b d)
        | none => .error .badOperands
      | _ => .error .badOperands

/-- The operations with one tag operand. -/
def decodeTagged (make : Tag → Instr) : List Byte → Except DecodeError Instr
  | [t] => .ok (make t)
  | _ => .error .badOperands

/-- TRANSFER: a tag, then the outbound bytes. -/
def decodeTransfer : List Byte → Except DecodeError Instr
  | b :: out => .ok (.transfer b out)
  | [] => .error .badOperands

/-- EXCHANGE_BYTE: a tag, then the outbound byte. -/
def decodeExchange : List Byte → Except DecodeError Instr
  | [b, tx] => .ok (.exchangeByte b tx)
  | _ => .error .badOperands

/-- SET: a tag, then the level. -/
def decodeSet : List Byte → Except DecodeError Instr
  | [o, c] =>
    match bitOfByte c with
    | some level => .ok (.setOut o level)
    | none => .error .badOperands
  | _ => .error .badOperands

/-- DISPATCH: the line, not empty (R83). -/
def decodeDispatch : List Byte → Except DecodeError Instr
  | [] => .error .badOperands
  | k :: arg => .ok (.dispatch (k :: arg))

/-- RESP_BARE: the response character (R85). -/
def decodeBare : List Byte → Except DecodeError Instr
  | [r] => if r = 0x43#8 then .ok (.respBare .c) else if r = 0x45#8 then .ok (.respBare .e) else .error .badOperands
  | _ => .error .badOperands

/-- The operations without operands. -/
def decodePlain (i : Instr) : List Byte → Except DecodeError Instr
  | [] => .ok i
  | _ => .error .badOperands

/-- The operation index of R88 with its operand bytes. -/
def decodeIndex (n : Nat) (operands : List Byte) : Except DecodeError Instr :=
  if n = 0 then decodeTagged .initBus operands
  else if n = 1 then decodeTagged .selectAssert operands
  else if n = 2 then decodeTagged .selectDeassert operands
  else if n = 3 then decodeTransfer operands
  else if n = 4 then decodeExchange operands
  else if n = 5 then decodeTagged .waitHalf operands
  else if n = 6 then decodeTagged .initOut operands
  else if n = 7 then decodeSet operands
  else if n = 8 then decodePlain .service operands
  else if n = 9 then decodeTagged .feed operands
  else if n = 10 then decodeDispatch operands
  else if n = 11 then decodeBare operands
  else if n = 12 then .ok (.respData operands)
  else if n = 13 then .ok (.respComment operands)
  else if n = 14 then decodePlain .banner operands
  else .error (.unknownOperation n)

/-- A call word: the operation index, then the operand bytes. -/
def decodeOp : List Byte → Except DecodeError Instr
  | [] => .error .emptyWord
  | n :: operands => decodeIndex n.toNat operands

/-- The decoder, total on any bytes of any of the three formats. -/
def decode : Format → List Byte → Except DecodeError Instr
  | .line, bytes => decodeLine bytes
  | .mode, bytes => decodeMode bytes
  | .op, bytes => decodeOp bytes

/-- The encoder: the format and the bytes of an instruction (R71, R81, R88). -/
def encode : Instr → Format × List Byte
  | .cmdD arg => (.line, 0x44#8 :: arg)
  | .cmdT arg => (.line, 0x54#8 :: arg)
  | .cmdI arg => (.line, 0x49#8 :: arg)
  | .cmdComment arg => (.line, 0x3B#8 :: arg)
  | .cmdUnknown key rest => (.line, key :: rest)
  | .bitphaseM0 b d => (.mode, [0#8, b, byteOfBit d])
  | .bitphaseM1 b d => (.mode, [1#8, b, byteOfBit d])
  | .bitphaseM2 b d => (.mode, [2#8, b, byteOfBit d])
  | .bitphaseM3 b d => (.mode, [3#8, b, byteOfBit d])
  | .bitphaseM5 b d => (.mode, [5#8, b, byteOfBit d])
  | .initBus b => (.op, [0#8, b])
  | .selectAssert b => (.op, [1#8, b])
  | .selectDeassert b => (.op, [2#8, b])
  | .transfer b out => (.op, 3#8 :: b :: out)
  | .exchangeByte b tx => (.op, [4#8, b, tx])
  | .waitHalf b => (.op, [5#8, b])
  | .initOut o => (.op, [6#8, o])
  | .setOut o level => (.op, [7#8, o, byteOfBit level])
  | .service => (.op, [8#8])
  | .feed c => (.op, [9#8, c])
  | .dispatch l => (.op, 10#8 :: l)
  | .respBare r => (.op, [11#8, Machine.bareByte r])
  | .respData payload => (.op, 12#8 :: payload)
  | .respComment text => (.op, 13#8 :: text)
  | .banner => (.op, [14#8])

/-! ### Words as the opcode table numbers them -/

/-- The bytes of a word of `n` bytes, bit 0 the least significant bit of the first byte. -/
def wordBytes : Nat → Nat → List Byte
  | 0, _ => []
  | n + 1, w => BitVec.ofNat 8 w :: wordBytes n (w / 256)

/-- How many operand bytes a call word has at least. -/
def leastOperands (n : Nat) : Nat :=
  if n = 4 ∨ n = 7 then 2 else if n = 8 ∨ n = 12 ∨ n = 13 ∨ n = 14 then 0 else 1

/-- Zero bytes for the operands that a word is too short to hold. -/
def padZeros (n : Nat) (bytes : List Byte) : List Byte := bytes ++ List.replicate (n - bytes.length) 0#8

/-- The space a table word belongs to, from its first byte: a command key (R71), else an operation index (R88), else a
line of an unknown command. The mode numbers of R81 are operation indices too, so a bare number means the operation
(log entry 12). On the wire only the first reading exists: `decodeLine`. -/
def tableFormat (first : Byte) : Format :=
  match Machine.keyOf first with
  | .other => if first.toNat < 15 then .op else .line
  | _ => .line

/-- The format and the bytes of a table word of `nbits` bits. -/
def tableBytes (nbits w : Nat) : Format × List Byte :=
  match wordBytes (nbits / 8) w with
  | [] => (.line, [])
  | first :: rest =>
    match tableFormat first with
    | .op => (.op, padZeros (1 + leastOperands first.toNat) (first :: rest))
    | fmt => (fmt, first :: rest)

/-- The instruction the decoder reads from a table word. -/
def decodeTableWord (nbits w : Nat) : Option Instr :=
  match decode (tableBytes nbits w).1 (tableBytes nbits w).2 with
  | .ok i => some i
  | .error _ => none

end Sys2Proof
end

