-- ==== Sys2Proof/Machine/PinMap.lean ====
section
/-! DEFINITION. The storage of the output latches and of the pin directions: a list of (pin, value) pairs in one
canonical form. An unlisted pin reads as `none`: for a latch the level `unset` (10_state.md R20, R23). -/

namespace Sys2Proof.Machine

/-- Pins with a value, strictly rising. -/
abbrev PinMap (α : Type) := List (Pin × α)

/-- The canonical form: pins strictly rising, so that equal maps are equal lists. -/
abbrev PinMap.wf {α : Type} (m : PinMap α) : Prop := m.Pairwise (fun a b => a.1 < b.1)

/-- The value of pin `p`, `none` if it has none. -/
def PinMap.read {α : Type} : PinMap α → Pin → Option α
  | [], _ => none
  | (q, v) :: m, p => if p = q then some v else PinMap.read m p

/-- Pin `p` set to `v`. -/
def PinMap.write {α : Type} : PinMap α → Pin → α → PinMap α
  | [], p, v => [(p, v)]
  | (q, w) :: m, p, v =>
    if p < q then (p, v) :: (q, w) :: m
    else if p = q then (p, v) :: m
    else (q, w) :: PinMap.write m p v

/-- Pin `p` made valueless again. -/
def PinMap.clear {α : Type} : PinMap α → Pin → PinMap α
  | [], _ => []
  | (q, w) :: m, p => if p = q then m else (q, w) :: PinMap.clear m p

/-- The direction of a pin (10_state.md R36, 40_bus_target.md R101). -/
inductive Dir
  | input | output
deriving DecidableEq, Repr

/-- The latches INIT_BUS leaves: select deasserted, clock at its idle polarity, data-out low (R101). -/
def initBusLatches (selActive : Bit) (b : BusTarget) (x : PinMap Bit) : PinMap Bit :=
  ((x.write b.pinSel (!selActive)).write b.pinClk (idleLevel b.mode)).write b.pinDout false

/-- "DIN becomes an input; SEL, CLK, DOUT become outputs" (R101). -/
def initBusDirs (b : BusTarget) (dir : PinMap Dir) : PinMap Dir :=
  (((dir.write b.pinSel .output).write b.pinClk .output).write b.pinDout .output).write b.pinDin .input

end Sys2Proof.Machine
end

