-- ==== Sys2Proof/Machine/State.lean ====
section
/-! DEFINITION. The state of the hardware (10_state.md R20), its value after reset (R36), and the reasons a step can
stop. -/

namespace Sys2Proof.Machine

/-- The events of the trace (00_scope.md R11). -/
inductive Event
  /-- `Drv(p, v)`: `v` written to the latch of pin `p`, also when it already held `v`. -/
  | drv (p : Pin) (v : Bit)
  /-- `Smp(p, v)`: input pin `p` read as `v`. -/
  | smp (p : Pin) (v : Bit)
  /-- `Wt(d)`: a busy-wait of at least `d` ticks. -/
  | wt (d : Nat)
  /-- `WtMs(n)`: a busy-wait of at least `n` milliseconds. -/
  | wtMs (n : Nat)
  /-- `Rx(c)`: byte `c` removed from the input stream. -/
  | rx (c : Byte)
  /-- `Tx(c)`: byte `c` appended to the output stream. -/
  | tx (c : Byte)
deriving DecidableEq, Repr

/-- The sequencer position (R26 in the form of 40_bus_target.md R117, 90_conflicts.md C9). -/
inductive Seq
  /-- `IDLE`. -/
  | idle
  /-- `XFER(b, PRE)`: before SELECT_ASSERT. -/
  | pre (b : BusTarget)
  /-- `XFER(b, i, k, s)`: byte `i`, bit `k`, action `s` comes next; `i = n` when only SELECT_DEASSERT remains. -/
  | xfer (b : BusTarget) (i k s : Nat)
deriving DecidableEq, Repr

/-- What the last operation with a *Result* returned to its caller (log entry 11). -/
inductive Ret
  | none
  /-- The sampled bit of a bit-phase (R122). -/
  | bit (v : Bit)
  /-- The inbound byte of EXCHANGE_BYTE (R106). -/
  | byte (v : Byte)
  /-- The inbound bytes of TRANSFER (R105). -/
  | bytes (v : List Byte)
  /-- FEED: `nothing` or `complete(l)` (42_command_front_end.md R151). -/
  | line (l : Option (List Byte))
deriving DecidableEq, Repr

/-- A call of an operation, as it waits on the call port (log entry 10). -/
structure Call where
  format : Format
  bytes  : List Byte
deriving DecidableEq, Repr

/-- The complete state (R20), with the configuration it is run under and the model's own fields. -/
structure State where
  /-- The parameters of the platform (00_scope.md R7); no step changes them (log entry 1). -/
  cfg : Config
  /-- `x`, the output latches by pin; an unlisted pin is `unset` (R21, R23; log entry 5). -/
  x : PinMap Bit
  /-- The directions of the pins (R36; log entry 7). -/
  dir : PinMap Dir
  /-- `line[0..len-1]`, the line accumulator; `len` is its length (R33; log entry 8). -/
  line : List Byte
  /-- `seq` (R26). -/
  seq : Seq
  /-- `buf[0..n-1]`, `none` while it does not exist (R32). -/
  buf : Option (List Byte)
  /-- `tx`, the outbound byte of the byte exchange, `none` outside it (R31). -/
  tx : Option Byte
  /-- `rx`, the inbound byte under assembly, `none` outside a byte exchange (R31). -/
  rx : Option Byte
  /-- `inq`, the bytes from the host, oldest first. -/
  inq : List Byte
  /-- `outq`, the bytes to the host, oldest first. -/
  outq : List Byte
  /-- `trace`, oldest event first (R11). -/
  trace : List Event
  /-- The calls not yet run, oldest first (log entry 10). -/
  calls : List Call
  /-- The last result (log entry 11). -/
  ret : Ret
  /-- The environment's answers to the coming samples, the next one first; past its end the answers are
  `Config.freeDin` (R22; log entry 3). -/
  din : List Bit
  /-- How many samples have been taken (log entry 3). -/
  samples : Nat
deriving DecidableEq, Repr

/-- `len` (R33). -/
def State.len (s : State) : Nat := s.line.length

/-- No fault stops this hardware: "No retries, no error detection at this layer" (60_exceptions.md R202) and every
command error is a response (R200, R204). Nothing raises one. -/
inductive Fault
deriving DecidableEq, Repr

/-- Why a step has no meaning. -/
inductive Refusal
  /-- An instruction without a meaning yet, raised by `exec`. Safe. -/
  | notModelled (mnemonic : String)
  /-- The configuration is not well formed, raised by `step` and every meaning: "a model refuses (gives no meaning to)
  a configuration that is not well formed" (00_scope.md R8). Safe. -/
  | illFormedConfig
  /-- An operation is called while a transfer runs, raised by every meaning: "While `seq != IDLE` no other operation
  of the hardware has a step" (40_bus_target.md R117, D27). Safe. -/
  | busy
  /-- DISPATCH of an empty line, raised by DISPATCH (60_exceptions.md R215, D19). Safe. -/
  | emptyLine
  /-- TRANSFER of more than `MAX_TRANSFER_BYTES` bytes, raised by TRANSFER (R215, U20). Safe. -/
  | transferTooLong
  /-- The tag operand of an operation is no key of its registry, raised by every operation with such an operand: there
  is no target to act on (log entry 24). Safe. -/
  | noSuchTarget
  /-- The bytes of a call are no instruction, raised by `step` (log entry 12). Safe. -/
  | undecodable (e : DecodeError)
deriving DecidableEq, Repr

/-- The latches after every INIT_BUS; an Output Target's latch stays `unset` (R36). -/
def resetLatches (cfg : Config) : PinMap Bit :=
  cfg.busReg.foldl (fun x e => initBusLatches cfg.selActive e.2 x) []

/-- The directions after every INIT_BUS and INIT_OUT (R36). -/
def resetDirs (cfg : Config) : PinMap Dir :=
  cfg.outReg.foldl (fun dir e => dir.write e.2.pinOut .output)
    (cfg.busReg.foldl (fun dir e => initBusDirs e.2 dir) [])

/-- The state after construction and pin initialisation of a platform (R36, 70_reset_and_hazards.md R231): the state
after step 5 of the start-up, with an empty trace (D11). -/
def State.resetOf (cfg : Config) : State where
  cfg := cfg
  x := resetLatches cfg
  dir := resetDirs cfg
  line := []
  seq := .idle
  buf := none
  tx := none
  rx := none
  inq := []
  outq := commentLine cfg cfg.bannerText
  trace := []
  calls := []
  ret := .none
  din := []
  samples := 0

/-- The machine right after reset, on the platform of log entries 2 and 14. -/
def State.reset : State := State.resetOf Config.resetPlatform

end Sys2Proof.Machine
end

