-- ==== Sys2Proof/Machine/Ops.lean ====
section
/-! DEFINITION. The primitives (00_scope.md R11), the conditions every operation shares, the Response Encoder's output,
and the one way an error is taken (60_exceptions.md R204). -/

namespace Sys2Proof.Machine

/-- The three outcomes of an instruction. -/
abbrev Result := Host.Outcome State Fault Refusal

/-- Append an event to the trace. -/
def logEvent (e : Event) (s : State) : State := { s with trace := s.trace ++ [e] }

/-- `x[p] <- v` (R11). -/
def drive (p : Pin) (v : Bit) (s : State) : State := logEvent (.drv p v) { s with x := s.x.write p v }

/-- The bit the environment answers the next sample with (10_state.md R22, U4). -/
def nextAnswer (s : State) : Bit :=
  match s.din with
  | v :: _ => v
  | [] => Config.freeDin s.samples

/-- `Sample(p)` (R11): the state after it and the bit it returns. -/
def sample (p : Pin) (s : State) : State × Bit :=
  (logEvent (.smp p (nextAnswer s)) { s with din := s.din.tail, samples := s.samples + 1 }, nextAnswer s)

/-- `Wait(d)` (R11). -/
def waitTicks (d : Nat) (s : State) : State := logEvent (.wt d) s

/-- `WaitMs(n)` (R11). -/
def waitMs (n : Nat) (s : State) : State := logEvent (.wtMs n) s

/-- `RxByte()` of the byte `c`, the oldest of `inq` (R11). -/
def rxByte (c : Byte) (s : State) : State := logEvent (.rx c) { s with inq := s.inq.tail }

/-- `TxByte(c)` (R11). -/
def txByte (c : Byte) (s : State) : State := logEvent (.tx c) { s with outq := s.outq ++ [c] }

/-- `TxByte` of each byte in order. -/
def sendBytes : List Byte → State → State
  | [], s => s
  | c :: cs, s => sendBytes cs (txByte c s)

/-- RESP_BARE's effect (42_command_front_end.md R162). -/
def sendBare (r : BareCode) (s : State) : State := sendBytes (bareLine s.cfg r) s

/-- RESP_DATA's effect (R163). -/
def sendData (payload : List Byte) (s : State) : State := sendBytes (dataLine s.cfg payload) s

/-- RESP_COMMENT's effect, nothing when `DEBUG` is false (R164). -/
def sendComment (text : List Byte) (s : State) : State := sendBytes (commentLine s.cfg text) s

/-- "discard buf" (R157, 60_exceptions.md R204). -/
def discardBuf (s : State) : State := { s with buf := none }

/-- `tx` and `rx` exist "only during one byte exchange" (10_state.md R31): they are gone after it. -/
def dropBytes (s : State) : State := { s with tx := none, rx := none }

/-- The *Result* an operation hands to its caller (log entry 11). -/
def setRet (r : Ret) (s : State) : State := { s with ret := r }

/-- `seq <- q` (10_state.md R26). -/
def setSeq (q : Seq) (s : State) : State := { s with seq := q }

/-- The return from an error (60_exceptions.md R206): there is no return instruction and nothing was saved; "the service
routine reads the next byte of `inq` as if the bad line had been a good one". -/
def returnToService (s : State) : State := s

/-- `raise Error(diag)` (60_exceptions.md R204): discard `buf`, the diagnostic comment in `DEBUG` mode, then `E`, then
back to SERVICE. Nothing is saved and no mode, mask or stack changes. -/
def raiseError (d : Diag) (s : State) : State :=
  returnToService (sendBare .e (sendComment (diagBytes s.cfg.diagText d) (discardBuf s)))

/-! ### The conditions every operation shares -/

/-- The configuration is well formed and no transfer is running. -/
def State.ready (s : State) : Bool := s.cfg.wf && decide (s.seq = .idle)

/-- An operation has a step only on a well-formed configuration (00_scope.md R8) and while `seq = IDLE`
(40_bus_target.md R117, D27). -/
def whenReady (s : State) (k : State → Result) : Result :=
  if s.cfg.wf then (if s.seq = .idle then k s else .refused .busy) else .refused .illFormedConfig

/-- An operation on the Bus Target of tag `t`. -/
def onBus (t : Tag) (s : State) (k : BusTarget → State → Result) : Result :=
  whenReady s fun s =>
    match lookup s.cfg.busReg t with
    | none => .refused .noSuchTarget
    | some b => k b s

/-- An operation on the Output Target of tag `t`. -/
def onOut (t : Tag) (s : State) (k : OutputTarget → State → Result) : Result :=
  whenReady s fun s =>
    match lookup s.cfg.outReg t with
    | none => .refused .noSuchTarget
    | some o => k o s

end Sys2Proof.Machine
end

