-- ==== Sys2Proof/Machine/Responses.lean ====
section
/-! DEFINITION. The Response Encoder (42_command_front_end.md R162 to R165). -/

namespace Sys2Proof.Machine

/-- RESP_BARE (R162). -/
def execRespBare (r : BareCode) (s : State) : Result := whenReady s fun s => .next (sendBare r s)

/-- RESP_DATA (R163). -/
def execRespData (payload : List Byte) (s : State) : Result := whenReady s fun s => .next (sendData payload s)

/-- RESP_COMMENT (R164). A text with a terminator inside, which no text of the configuration has (D7), is sent as it is
(DESIGN CHOICE; log entry 34). -/
def execRespComment (text : List Byte) (s : State) : Result := whenReady s fun s => .next (sendComment text s)

/-- BANNER (R165). -/
def execBanner (s : State) : Result := whenReady s fun s => .next (sendComment s.cfg.bannerText s)

end Sys2Proof.Machine
end

