-- ==== Sys2Proof/Machine/BitPhase.lean ====
section
/-! DEFINITION. The five bit-phases (40_bus_target.md R107 to R111, R122). -/

namespace Sys2Proof.Machine

/-- `H` of a Bus Target, in ticks (00_scope.md R8(c)). -/
def busHalf (b : BusTarget) (s : State) : Nat := halfPeriod s.cfg.tickHz b.bitRate

/-- WAIT_HALF, the *wait* action of every list (R112). -/
def doWaitHalf (b : BusTarget) (s : State) : State := waitTicks (busHalf b s) s

/-- One action of a bit-phase with outbound bit `d` (R122): the state after it, and the bit if it sampled one. -/
def act (b : BusTarget) (d : Bit) (a : Action) (s : State) : State × Option Bit :=
  match a with
  | .driveBit => (drive b.pinDout d s, none)
  | .wait => (doWaitHalf b s, none)
  | .sample => ((sample b.pinDin s).1, some (sample b.pinDin s).2)
  | .clockHigh => (drive b.pinClk true s, none)
  | .clockLow => (drive b.pinClk false s, none)

/-- The actions of a list in order; the bit is the last one sampled, `v` before any. -/
def runActions (b : BusTarget) (d : Bit) : List Action → State → Bit → State × Bit
  | [], s, v => (s, v)
  | a :: as, s, v => runActions b d as (act b d a s).1 ((act b d a s).2.getD v)

/-- One bit-phase of mode `m`: "one pass through the mode's list" (R106), with the sampled bit. Every list samples
once, so the bit it starts from is never returned. -/
def doBitPhase (m : Mode) (b : BusTarget) (d : Bit) (s : State) : State × Bit := runActions b d (actions m) s false

/-- A bit-phase called by itself: its *Result* is the sampled bit. -/
def returnBit (r : State × Bit) : Result := .next (setRet (.bit r.2) r.1)

/-- BITPHASE_M0 (R107). -/
def execBitphaseM0 (t : Tag) (d : Bit) (s : State) : Result := onBus t s fun b s => returnBit (doBitPhase .m0 b d s)

/-- BITPHASE_M1 (R108). -/
def execBitphaseM1 (t : Tag) (d : Bit) (s : State) : Result := onBus t s fun b s => returnBit (doBitPhase .m1 b d s)

/-- BITPHASE_M2 (R109). -/
def execBitphaseM2 (t : Tag) (d : Bit) (s : State) : Result := onBus t s fun b s => returnBit (doBitPhase .m2 b d s)

/-- BITPHASE_M3 (R110). -/
def execBitphaseM3 (t : Tag) (d : Bit) (s : State) : Result := onBus t s fun b s => returnBit (doBitPhase .m3 b d s)

/-- BITPHASE_M5 (R111). -/
def execBitphaseM5 (t : Tag) (d : Bit) (s : State) : Result := onBus t s fun b s => returnBit (doBitPhase .m5 b d s)

end Sys2Proof.Machine
end

