-- ==== Sys2Proof/Machine/BusOps.lean ====
section
/-! DEFINITION. The operations of the Bus Target (40_bus_target.md R101 to R106, R112), each as a whole. The same
transfer one action at a time is Machine/Sequencer.lean. -/

namespace Sys2Proof.Machine

/-- INIT_BUS's effect (R101). Start-up logs no events, so that nothing depends on the order of the three writes
(D11; log entry 6). -/
def doInitBus (b : BusTarget) (s : State) : State :=
  { s with x := initBusLatches s.cfg.selActive b s.x, dir := initBusDirs b s.dir }

/-- SELECT_ASSERT's effect (R103). -/
def doSelectAssert (b : BusTarget) (s : State) : State := drive b.pinSel s.cfg.selActive s

/-- SELECT_DEASSERT's effect (R104). -/
def doSelectDeassert (b : BusTarget) (s : State) : State := drive b.pinSel (!s.cfg.selActive) s

/-- The bit-phases of the bits `n-1` down to 0 of `t`, each sampled bit put at "the bit position just driven"
(R106). -/
def exchangeBits (b : BusTarget) (t : Byte) : Nat → State → Byte → State × Byte
  | 0, s, r => (s, r)
  | n + 1, s, r =>
    exchangeBits b t n (doBitPhase b.mode b (bitAt t n) s).1 (putBit r n (doBitPhase b.mode b (bitAt t n) s).2)

/-- EXCHANGE_BYTE: the state after it and `rx` (R106). `tx` and `rx` do not exist after it (10_state.md R31). -/
def doExchange (b : BusTarget) (t : Byte) (s : State) : State × Byte :=
  (dropBytes (exchangeBits b t 8 s 0#8).1, (exchangeBits b t 8 s 0#8).2)

/-- The bytes in index order (R105, 20_memory.md R51). -/
def exchangeAll (b : BusTarget) : List Byte → State → State × List Byte
  | [], s => (s, [])
  | t :: ts, s =>
    ((exchangeAll b ts (doExchange b t s).1).1,
      (doExchange b t s).2 :: (exchangeAll b ts (doExchange b t s).1).2)

/-- TRANSFER: the state after it and the inbound bytes (R105). -/
def doTransfer (b : BusTarget) (out : List Byte) (s : State) : State × List Byte :=
  (doSelectDeassert b (exchangeAll b out (doSelectAssert b s)).1, (exchangeAll b out (doSelectAssert b s)).2)

/-- INIT_BUS (R101). -/
def execInitBus (t : Tag) (s : State) : Result := onBus t s fun b s => .next (doInitBus b s)

/-- SELECT_ASSERT (R103). -/
def execSelectAssert (t : Tag) (s : State) : Result := onBus t s fun b s => .next (doSelectAssert b s)

/-- SELECT_DEASSERT (R104). -/
def execSelectDeassert (t : Tag) (s : State) : Result := onBus t s fun b s => .next (doSelectDeassert b s)

/-- TRANSFER (R105); its *Result* is the inbound bytes. With more than `MAX_TRANSFER_BYTES` bytes it is outside the
hardware's domain (60_exceptions.md R215). -/
def execTransfer (t : Tag) (out : List Byte) (s : State) : Result :=
  onBus t s fun b s =>
    if out.length ≤ s.cfg.maxTransferBytes then
      .next (setRet (.bytes (doTransfer b out s).2) (doTransfer b out s).1)
    else .refused .transferTooLong

/-- EXCHANGE_BYTE (R106); its *Result* is `rx`. -/
def execExchangeByte (t : Tag) (tx : Byte) (s : State) : Result :=
  onBus t s fun b s => .next (setRet (.byte (doExchange b tx s).2) (doExchange b tx s).1)

/-- WAIT_HALF (R112). -/
def execWaitHalf (t : Tag) (s : State) : Result := onBus t s fun b s => .next (doWaitHalf b s)

end Sys2Proof.Machine
end

