-- ==== Sys2Proof/Machine/OutputOps.lean ====
section
/-! DEFINITION. The operations of the Output Target (41_output_target.md). -/

namespace Sys2Proof.Machine

/-- INIT_OUT's effect (R141): the pin becomes an output, its level is `unset`; no event. -/
def doInitOut (o : OutputTarget) (s : State) : State :=
  { s with x := s.x.clear o.pinOut, dir := s.dir.write o.pinOut .output }

/-- SET's effect (R142). -/
def doSet (o : OutputTarget) (level : Bool) (s : State) : State := drive o.pinOut level s

/-- INIT_OUT (R141). -/
def execInitOut (t : Tag) (s : State) : Result := onOut t s fun o s => .next (doInitOut o s)

/-- SET (R142). -/
def execSetOut (t : Tag) (level : Bool) (s : State) : Result := onOut t s fun o s => .next (doSet o level s)

end Sys2Proof.Machine
end

