-- ==== Sys2Proof/Machine/Commands.lean ====
section
/-! DEFINITION. The command lines and DISPATCH (42_command_front_end.md R154 to R161). Every check of a command comes
before its first side effect (60_exceptions.md R204).

A line a caller hands to a command or to DISPATCH on the call port may hold a 0A or 0D byte, which no line of the Line
Framer does (R71): it is run like any other byte (DESIGN CHOICE; log entry 34). A line handed over so while the
accumulator holds a partial line leaves that partial line there (DESIGN CHOICE; log entry 36). -/

namespace Sys2Proof.Machine

/-- CMD_D's effect (R155). -/
def doCmdD (arg : List Byte) (s : State) : State :=
  match parseDelay s.cfg.delayWidth arg with
  | .error d => raiseError d s
  | .ok value => sendBare .c (waitMs value s)

/-- CMD_T's effect (R157): parse, transfer, respond, discard. -/
def doCmdT (arg : List Byte) (s : State) : State :=
  match parseTransfer s.cfg arg with
  | .error d => raiseError d s
  | .ok (b, out) => discardBuf (sendData (doTransfer b out s).2 (doTransfer b out s).1)

/-- CMD_I's effect (R159): "success is silent". -/
def doCmdI (arg : List Byte) (s : State) : State :=
  match parseOutput s.cfg arg with
  | .error d => raiseError d s
  | .ok (o, level) => doSet o level s

/-- CMD_COMMENT's effect (R160): "ignored entirely, no response". -/
def doCmdComment (s : State) : State := s

/-- CMD_UNKNOWN's effect (R161). -/
def doCmdUnknown (s : State) : State := raiseError .unknownCommand s

/-- The choice DISPATCH makes on the key of the line (R154). -/
def doDispatch (key : Byte) (arg : List Byte) (s : State) : State :=
  match keyOf key with
  | .delay => doCmdD arg s
  | .transfer => doCmdT arg s
  | .output => doCmdI arg s
  | .comment => doCmdComment s
  | .other => doCmdUnknown s

/-- CMD_D (R155). -/
def execCmdD (arg : List Byte) (s : State) : Result := whenReady s fun s => .next (doCmdD arg s)

/-- CMD_T (R157). -/
def execCmdT (arg : List Byte) (s : State) : Result := whenReady s fun s => .next (doCmdT arg s)

/-- CMD_I (R159). -/
def execCmdI (arg : List Byte) (s : State) : Result := whenReady s fun s => .next (doCmdI arg s)

/-- CMD_COMMENT (R160). -/
def execCmdComment (s : State) : Result := whenReady s fun s => .next (doCmdComment s)

/-- CMD_UNKNOWN (R161). -/
def execCmdUnknown (s : State) : Result := whenReady s fun s => .next (doCmdUnknown s)

/-- DISPATCH (R154); a line of length 0 is outside its domain (R83, D19). A terminator inside the line is run as an
ordinary byte (DESIGN CHOICE; log entry 34). A partial line that stands in the accumulator stays: the pseudocode of R154
writes no `len`, and the model reads R167's `len = 0` after DISPATCH as said of a line that FEED delivered (DESIGN
CHOICE; log entry 36). -/
def execDispatch (l : List Byte) (s : State) : Result :=
  whenReady s fun s =>
    match l with
    | [] => .refused .emptyLine
    | key :: arg => .next (doDispatch key arg s)

end Sys2Proof.Machine
end

