-- ==== Sys2Proof/Machine/Service.lean ====
section
/-! DEFINITION. The Line Framer and the service routine (42_command_front_end.md R150 to R153). -/

namespace Sys2Proof.Machine

/-- FEED's *Result* for the byte `c` (R151): the accumulated line at a terminator, unless it is empty. -/
def feedLine (c : Byte) (s : State) : Option (List Byte) :=
  if isTerminator c then (if s.line.isEmpty then none else some s.line) else none

/-- FEED's effect (R151, R152): a terminator clears the accumulator, a content byte is appended below the capacity and
dropped at it. -/
def doFeed (c : Byte) (s : State) : State :=
  if isTerminator c then { s with line := [] }
  else if s.line.length < lineCap s.cfg then { s with line := s.line ++ [c] }
  else s

/-- DISPATCH of a line FEED delivered, run to its final response. -/
def runLine (l : Option (List Byte)) (s : State) : State :=
  match l with
  | none => s
  | some [] => s
  | some (key :: arg) => doDispatch key arg s

/-- One turn of SERVICE's loop on the byte `c`: `RxByte`, FEED, and DISPATCH of a complete line (R150). -/
def serviceByte (c : Byte) (s : State) : State :=
  runLine (feedLine c (rxByte c s)) (doFeed c (rxByte c s))

/-- SERVICE's loop over the bytes of `inq` (R150). -/
def serviceAll : List Byte → State → State
  | [], s => s
  | c :: cs, s => serviceAll cs (serviceByte c s)

/-- FEED (R151); its *Result* is `nothing` or `complete(l)`. -/
def execFeed (c : Byte) (s : State) : Result :=
  whenReady s fun s => .next (setRet (.line (feedLine c s)) (doFeed c s))

/-- SERVICE (R150): "it drains all currently available input bytes, and any complete line is processed to final
response before the next byte is read". -/
def execService (s : State) : Result := whenReady s fun s => .next (serviceAll s.inq s)

end Sys2Proof.Machine
end

