-- ==== Sys2Proof/Machine/Dispatch.lean ====
section
/-! DEFINITION. The one match from an instruction to its meaning. -/

namespace Sys2Proof.Machine

def exec (i : Instr) (s : State) : Host.Outcome State Fault Refusal :=
  match i with
  | .cmdD arg => Sys2Proof.Machine.execCmdD arg s
  | .cmdT arg => Sys2Proof.Machine.execCmdT arg s
  | .cmdI arg => Sys2Proof.Machine.execCmdI arg s
  | .cmdComment _ => Sys2Proof.Machine.execCmdComment s
  | .cmdUnknown _ _ => Sys2Proof.Machine.execCmdUnknown s
  | .bitphaseM0 b d => Sys2Proof.Machine.execBitphaseM0 b d s
  | .bitphaseM1 b d => Sys2Proof.Machine.execBitphaseM1 b d s
  | .bitphaseM2 b d => Sys2Proof.Machine.execBitphaseM2 b d s
  | .bitphaseM3 b d => Sys2Proof.Machine.execBitphaseM3 b d s
  | .bitphaseM5 b d => Sys2Proof.Machine.execBitphaseM5 b d s
  | .initBus b => Sys2Proof.Machine.execInitBus b s
  | .selectAssert b => Sys2Proof.Machine.execSelectAssert b s
  | .selectDeassert b => Sys2Proof.Machine.execSelectDeassert b s
  | .transfer b out => Sys2Proof.Machine.execTransfer b out s
  | .exchangeByte b tx => Sys2Proof.Machine.execExchangeByte b tx s
  | .waitHalf b => Sys2Proof.Machine.execWaitHalf b s
  | .initOut o => Sys2Proof.Machine.execInitOut o s
  | .setOut o level => Sys2Proof.Machine.execSetOut o level s
  | .service => Sys2Proof.Machine.execService s
  | .feed c => Sys2Proof.Machine.execFeed c s
  | .dispatch l => Sys2Proof.Machine.execDispatch l s
  | .respBare r => Sys2Proof.Machine.execRespBare r s
  | .respData payload => Sys2Proof.Machine.execRespData payload s
  | .respComment text => Sys2Proof.Machine.execRespComment text s
  | .banner => Sys2Proof.Machine.execBanner s

end Sys2Proof.Machine
end

