-- ==== Sys2Proof/Machine/Sequencer.lean ====
section
/-! DEFINITION. TRANSFER one action at a time: the step function of the sequencer (40_bus_target.md R117,
10_state.md R26), so that the environment can act between any two actions (20_memory.md R55). -/

namespace Sys2Proof.Machine

/-- CMD_T has parsed its line: `buf` holds the outbound bytes and `seq` stands before SELECT_ASSERT. -/
def beginTransfer (b : BusTarget) (out : List Byte) (s : State) : State :=
  { s with seq := .pre b, buf := some out }

/-- `buf[i]`, `none` at `i = n`. -/
def bufByte (s : State) (i : Nat) : Option Byte := (s.buf.getD [])[i]?

/-- `XFER(b, i, 7, 0)`: EXCHANGE_BYTE of byte `i` begins with `tx = buf[i]` and `rx <- 0` (R106); at `i = n` neither
exists. -/
def enterByte (b : BusTarget) (i : Nat) (s : State) : State :=
  { s with seq := .xfer b i 7 0, tx := bufByte s i, rx := (bufByte s i).map (fun _ => 0#8) }

/-- `rx[k]` takes the bit an action sampled. -/
def storeSample (r : Byte) (k : Nat) : Option Bit → Byte
  | none => r
  | some v => putBit r k v

/-- The position after action `j` of bit `k` of byte `i`, with `rx = r` (R117, R26). -/
def advance (b : BusTarget) (i k j : Nat) (r : Byte) (s : State) : State :=
  if j + 1 < (actions b.mode).length then { s with seq := .xfer b i k (j + 1), rx := some r }
  else match k with
    | k' + 1 => { s with seq := .xfer b i k' 0, rx := some r }
    | 0 => enterByte b (i + 1) { s with buf := s.buf.map (fun l => l.set i r) }

/-- The end of the transfer: SELECT_DEASSERT and IDLE (R117), then the rest of CMD_T, RESP_DATA and "discard buf"
(R157; log entry 25). -/
def finishTransfer (b : BusTarget) (s : State) : State :=
  discardBuf (sendData (s.buf.getD []) (setSeq .idle (doSelectDeassert b s)))

/-- One step of the sequencer (R117). -/
def seqStep (s : State) : State :=
  match s.seq with
  | .idle => s
  | .pre b => enterByte b 0 (doSelectAssert b s)
  | .xfer b i k j =>
    match s.tx, s.rx, (actions b.mode)[j]? with
    | some t, some r, some a =>
      advance b i k j (storeSample r k (act b (bitAt t k) a s).2) (act b (bitAt t k) a s).1
    | _, _, _ => finishTransfer b s

end Sys2Proof.Machine
end

