-- ==== Sys2Proof/Machine/Fetch.lean ====
section
/-! DEFINITION. What one step of the machine runs: the sequencer's next action, a call waiting on the call port, or
the next byte of `inq` (10_state.md R25, 42_command_front_end.md R150). -/

namespace Sys2Proof.Machine

/-- The transfer that a decoded line asks for, if it is a T line that passes every check (R157). -/
def transferOf (i : Instr) (s : State) : Option (BusTarget × List Byte) :=
  match i with
  | .cmdT arg =>
    match parseTransfer s.cfg arg with
    | .ok r => some r
    | .error _ => none
  | _ => none

/-- A decoded line run by the machine: a transfer is started and then advances one action a step (40_bus_target.md
R117); every other line is executed whole (log entry 9). -/
def issue (i : Instr) (s : State) : Result :=
  match transferOf i s with
  | some r => .next (beginTransfer r.1 r.2 s)
  | none => exec i s

/-- The line FEED delivered, decoded and run; nothing when FEED delivered `nothing`. -/
def issueLine (l : Option (List Byte)) (s : State) : Result :=
  match l with
  | none => .next s
  | some bytes =>
    match decodeLine bytes with
    | .ok i => issue i s
    | .error e => .refused (.undecodable e)

/-- One turn of SERVICE's loop as the machine takes it: `RxByte`, FEED, and the start of DISPATCH (R150). -/
def pollByte (c : Byte) (s : State) : Result :=
  issueLine (feedLine c (rxByte c s)) (doFeed c (rxByte c s))

/-- A call taken from the call port, decoded and executed whole (log entry 10). -/
def runCall (c : Call) (s : State) : Result :=
  match decode c.format c.bytes with
  | .ok i => exec i s
  | .error e => .refused (.undecodable e)

/-- What the machine does next while no transfer runs: a call, else a byte, else nothing at all (R150: "while `inq` is
empty, the hardware does nothing: every latch holds"; log entry 28). -/
def idleStep (s : State) : Result :=
  match s.calls with
  | c :: rest => runCall c { s with calls := rest }
  | [] =>
    match s.inq with
    | c :: _ => pollByte c s
    | [] => .next s

/-- One step on a well-formed configuration; any other is refused (00_scope.md R8). "While `seq != IDLE` no other
operation of the hardware has a step" (R117). -/
def runStep (s : State) : Result :=
  if s.cfg.wf then
    match s.seq with
    | .idle => idleStep s
    | .pre _ => .next (seqStep s)
    | .xfer _ _ _ _ => .next (seqStep s)
  else .refused .illFormedConfig

/-- The state as the fetch of a table word needs it: the word waits first on the call port and no transfer runs. -/
def placeWord (s : State) (nbits w : Nat) : State :=
  { s with seq := .idle, calls := ⟨(tableBytes nbits w).1, (tableBytes nbits w).2⟩ :: s.calls }

end Sys2Proof.Machine
end

