-- ==== Sys2Proof/Machine/HostPort.lean ====
section
/-! DEFINITION. What the outside can do to the machine between two steps (42_command_front_end.md R169, R170), and the
start-up sequence (70_reset_and_hazards.md R231). -/

namespace Sys2Proof.Machine

/-- The host appends bytes to the input stream (R169). -/
def hostSend (bytes : List Byte) (s : State) : State := { s with inq := s.inq ++ bytes }

/-- The host removes the `n` oldest bytes of the output stream (R169). -/
def hostTake (n : Nat) (s : State) : List Byte × State := (s.outq.take n, { s with outq := s.outq.drop n })

/-- The integrator calls an operation directly (00_scope.md R3; log entry 10). -/
def hostCall (c : Call) (s : State) : State := { s with calls := s.calls ++ [c] }

/-- The bus device settles its answers to the coming samples (10_state.md R22; log entry 3). -/
def setAnswers (answers : List Bit) (s : State) : State := { s with din := answers }

/-- A call of an instruction. -/
def callOf (i : Instr) : Call := ⟨(encode i).1, (encode i).2⟩

/-- The operations of start-up (R231, steps 3 and 5): INIT_BUS of every Bus Target, INIT_OUT of every Output Target,
BANNER. R231 does not fix the order of the targets inside step 3, nor whether BANNER comes before or after it: the order
here, the Bus Targets as `busReg` lists them, then the Output Targets as `outReg` lists them, then BANNER, is the model's
(DESIGN CHOICE; log entry 35). -/
def bootInstrs (cfg : Config) : List Instr :=
  cfg.busReg.map (fun e => Instr.initBus e.1) ++ cfg.outReg.map (fun e => Instr.initOut e.1) ++ [.banner]

/-- The state start-up begins in: no pin has a level or a direction ("every pin before initialisation: unspecified",
R36), and the calls of start-up wait, in the model's order (log entry 35). -/
def State.unbooted (cfg : Config) : State :=
  { State.resetOf cfg with x := [], dir := [], outq := [], calls := (bootInstrs cfg).map callOf }

/-- A platform description is accepted when its mode number is one of the five (R8(a), 30_encoding.md R82): the Bus
Target of these pins, bit rate and mode number. -/
def busOfNumbers (dout din clk sel bitRate mode : Nat) : Option BusTarget :=
  match modeOfNumber mode with
  | none => none
  | some m => some ⟨dout, din, clk, sel, bitRate, m⟩

/-- Step 2 of start-up (R231): "check the configuration is well formed; else refuse". -/
def startUp (cfg : Config) : Host.Outcome State Fault Refusal :=
  if cfg.wf then .next (State.unbooted cfg) else .refused .illFormedConfig

end Sys2Proof.Machine
end

