-- ==== Sys2Proof/Safety.lean ====
section
/-! DEFINITION. The terms claims are made in: a run of steps, what a trace says about a pin, which environments are
loop-backed, the least time a trace takes, the lines a stream of bytes delivers, what `DEBUG` may change, and the
invariants of the machine. -/

namespace Sys2Proof.Machine

/-- `n` steps of the machine, up to the first refusal. -/
def runSteps : Nat → State → Result
  | 0, s => .next s
  | n + 1, s =>
    match step s with
    | .next t => runSteps n t
    | .fault r => .fault r
    | .refused r => .refused r

/-! ### Reading a trace -/

/-- The level a pin was last driven to by the events, from the level `v` it had before them. -/
def levelAfter (p : Pin) (v : Option Bit) : List Event → Option Bit
  | [] => v
  | .drv q w :: es => levelAfter p (if q = p then some w else v) es
  | .smp _ _ :: es => levelAfter p v es
  | .wt _ :: es => levelAfter p v es
  | .wtMs _ :: es => levelAfter p v es
  | .rx _ :: es => levelAfter p v es
  | .tx _ :: es => levelAfter p v es

/-- Loopback (00_scope.md R12, 40_bus_target.md R114): every sample of `din` returned the level `dout` was driven to at
that moment, `v` being its level before the events. -/
def loopback (dout din : Pin) (v : Option Bit) : List Event → Prop
  | [] => True
  | .drv q w :: es => loopback dout din (if q = dout then some w else v) es
  | .smp q w :: es => (q = din → v = some w) ∧ loopback dout din v es
  | .wt _ :: es => loopback dout din v es
  | .wtMs _ :: es => loopback dout din v es
  | .rx _ :: es => loopback dout din v es
  | .tx _ :: es => loopback dout din v es

/-- The ticks the `Wt` events guarantee at least (70_reset_and_hazards.md R240, R241). -/
def minTicks : List Event → Nat
  | [] => 0
  | .wt d :: es => d + minTicks es
  | .drv _ _ :: es => minTicks es
  | .smp _ _ :: es => minTicks es
  | .wtMs _ :: es => minTicks es
  | .rx _ :: es => minTicks es
  | .tx _ :: es => minTicks es

/-- An event at a pin. -/
def Event.isPin : Event → Bool
  | .drv _ _ => true
  | .smp _ _ => true
  | .wt _ => false
  | .wtMs _ => false
  | .rx _ => false
  | .tx _ => false

/-- An event the host's output stream sees. -/
def Event.isTx : Event → Bool
  | .tx _ => true
  | .drv _ _ => false
  | .smp _ _ => false
  | .wt _ => false
  | .wtMs _ => false
  | .rx _ => false

/-- A wait of a bit-phase. -/
def Event.isWait : Event → Bool
  | .wt _ => true
  | .drv _ _ => false
  | .smp _ _ => false
  | .wtMs _ => false
  | .rx _ => false
  | .tx _ => false

/-- The bytes appended to the output stream by the events, in order. -/
def sentBytes : List Event → List Byte
  | [] => []
  | .tx c :: es => c :: sentBytes es
  | .drv _ _ :: es => sentBytes es
  | .smp _ _ :: es => sentBytes es
  | .wt _ :: es => sentBytes es
  | .wtMs _ :: es => sentBytes es
  | .rx _ :: es => sentBytes es

/-- The bytes removed from the input stream by the events, in order. -/
def readBytes : List Event → List Byte
  | [] => []
  | .rx c :: es => c :: readBytes es
  | .drv _ _ :: es => readBytes es
  | .smp _ _ :: es => readBytes es
  | .wt _ :: es => readBytes es
  | .wtMs _ :: es => readBytes es
  | .tx _ :: es => readBytes es

/-! ### The traces and the inbound bytes the rules of 40_bus_target.md give -/

/-- The `j`-th coming answer of the environment: any value (10_state.md R22, U4). -/
def answerAt (s : State) (j : Nat) : Bit :=
  match s.din[j]? with
  | some v => v
  | none => Config.freeDin (s.samples + j)

/-- The trace of one bit-phase with half-period `h`, outbound bit `d` and answer `v` (R107 to R111, the examples). -/
def phaseEvents (m : Mode) (b : BusTarget) (h : Nat) (d v : Bit) : List Event :=
  match m with
  | .m0 => [.drv b.pinDout d, .wt h, .smp b.pinDin v, .drv b.pinClk true, .wt h, .drv b.pinClk false]
  | .m1 => [.drv b.pinClk true, .drv b.pinDout d, .wt h, .smp b.pinDin v, .drv b.pinClk false, .wt h]
  | .m2 => [.drv b.pinDout d, .wt h, .smp b.pinDin v, .drv b.pinClk false, .wt h, .drv b.pinClk true]
  | .m3 => [.wt h, .drv b.pinClk false, .drv b.pinDout d, .wt h, .smp b.pinDin v, .drv b.pinClk true]
  | .m5 => [.drv b.pinDout d, .wt h, .drv b.pinClk false, .wt h, .smp b.pinDin v, .drv b.pinClk true, .wt h]

/-- The trace of the bit-phases of bits `n-1` down to 0 of `t`, `a j` being the `j`-th answer (R106). -/
def bitsEvents (b : BusTarget) (h : Nat) (t : Byte) : Nat → (Nat → Bit) → List Event
  | 0, _ => []
  | n + 1, a => phaseEvents b.mode b h (bitAt t n) (a 0) ++ bitsEvents b h t n (fun j => a (j + 1))

/-- The trace of the byte exchanges of `out` (R105: "in index order"). -/
def bytesEvents (b : BusTarget) (h : Nat) : List Byte → (Nat → Bit) → List Event
  | [], _ => []
  | t :: ts, a => bitsEvents b h t 8 a ++ bytesEvents b h ts (fun j => a (j + 8))

/-- The trace of TRANSFER (R105): select asserted, the bytes, select deasserted. -/
def transferEvents (b : BusTarget) (selActive : Bit) (h : Nat) (out : List Byte) (a : Nat → Bit) : List Event :=
  .drv b.pinSel selActive :: (bytesEvents b h out a ++ [.drv b.pinSel (!selActive)])

/-- `inb` are the inbound bytes of `n` byte exchanges with the answers `a`: the first sample of a byte is its bit 7, the
eighth its bit 0 (20_memory.md R50, R51). -/
def isInbound (inb : List Byte) (n : Nat) (a : Nat → Bit) : Prop :=
  inb.length = n ∧ ∀ i v, inb[i]? = some v → ∀ k, k < 8 → bitAt v (7 - k) = a (8 * i + k)

/-- The diagnostic a line raises, none if it is valid (60_exceptions.md R201, R205). -/
def lineError (cfg : Config) : List Byte → Option Diag
  | [] => none
  | key :: arg =>
    match keyOf key with
    | .delay => match parseDelay cfg.delayWidth arg with
      | .error d => some d
      | .ok _ => none
    | .transfer => match parseTransfer cfg arg with
      | .error d => some d
      | .ok _ => none
    | .output => match parseOutput cfg arg with
      | .error d => some d
      | .ok _ => none
    | .comment => none
    | .other => some .unknownCommand

/-- The lines the Line Framer delivers from the bytes `cs`, with `acc` accumulated before them (42_command_front_end.md
R151, R152). -/
def linesOf (cap : Nat) : List Byte → List Byte → List (List Byte)
  | _, [] => []
  | acc, c :: cs =>
    if isTerminator c then (if acc.isEmpty then linesOf cap [] cs else acc :: linesOf cap [] cs)
    else linesOf cap (if acc.length < cap then acc ++ [c] else acc) cs

/-- The bytes of a comment line when `DEBUG` is true (42_command_front_end.md R164). -/
def commentBytes (cfg : Config) (text : List Byte) : List Byte := cfg.commentMark :: (text ++ termBytes cfg.respTerm)

/-- The events of instruction `i` with `DEBUG` true (first) and false (second) differ by comment lines only
(60_exceptions.md R212): a diagnostic comment immediately before an `E` line, and the one comment line that BANNER or
RESP_COMMENT is. -/
inductive DebugTraces (cfg : Config) (i : Instr) : List Event → List Event → Prop
  | nil : DebugTraces cfg i [] []
  | same (e : Event) {es fs : List Event} : DebugTraces cfg i es fs → DebugTraces cfg i (e :: es) (e :: fs)
  | error (d : Diag) {es fs : List Event} : DebugTraces cfg i es fs →
      DebugTraces cfg i ((commentBytes cfg (diagBytes cfg.diagText d) ++ bareLine cfg .e).map .tx ++ es)
        ((bareLine cfg .e).map .tx ++ fs)
  | comment (text : List Byte) {es fs : List Event} :
      i = .respComment text ∨ (i = .banner ∧ text = cfg.bannerText) → DebugTraces cfg i es fs →
      DebugTraces cfg i ((commentBytes cfg text).map .tx ++ es) fs

/-- `s` with the flag `DEBUG` at `flag`. -/
def State.withDebug (s : State) (flag : Bool) : State := { s with cfg := { s.cfg with debug := flag } }

/-- The state an error leaves (60_exceptions.md R204): `buf` gone, the response sent, nothing else changed. -/
def errorState (d : Diag) (s : State) : State :=
  { s with
    buf := none
    outq := s.outq ++ errorLines s.cfg d
    trace := s.trace ++ (errorLines s.cfg d).map .tx }

/-! ### The invariant -/

/-- `b` is one of the targets of `busReg`. -/
def isRegistered (cfg : Config) (b : BusTarget) : Prop := ∃ t, (t, b) ∈ cfg.busReg

/-- CLK after an action, from `v` before it (40_bus_target.md R122). -/
def clockAfter (v : Bit) : Action → Bit
  | .clockHigh => true
  | .clockLow => false
  | .driveBit => v
  | .wait => v
  | .sample => v

/-- CLK before action `j` of the list of mode `m`, when the list starts at `idle(mode)` (R122). -/
def clockBefore (m : Mode) (j : Nat) : Bit := ((actions m).take j).foldl clockAfter (idleLevel m)

/-- The select and clock latches of a target that no transfer uses (10_state.md R37). -/
def busAtRest (s : State) (b : BusTarget) : Prop :=
  s.x.read b.pinSel = some (!s.cfg.selActive) ∧ s.x.read b.pinClk = some (idleLevel b.mode)
    ∧ (s.x.read b.pinDout).isSome

/-- The Input Line Buffer within its bounds (10_state.md R33, 42_command_front_end.md R153). -/
def lineOk (s : State) : Prop := s.len ≤ lineCap s.cfg ∧ textOk s.line = true

/-- The sequencer, the payload buffer and the two transient bytes agree (10_state.md R20, R26, R31, R32). -/
def seqOk (s : State) : Prop :=
  match s.seq with
  | .idle => s.buf = none ∧ s.tx = none ∧ s.rx = none
  | .pre b =>
    isRegistered s.cfg b ∧ s.tx = none ∧ s.rx = none ∧ ∃ l, s.buf = some l ∧ l.length ≤ s.cfg.maxTransferBytes
  | .xfer b i k j =>
    isRegistered s.cfg b ∧ ∃ l, s.buf = some l ∧ l.length ≤ s.cfg.maxTransferBytes ∧ i ≤ l.length ∧ k ≤ 7 ∧
      j < (actions b.mode).length ∧ s.tx = l[i]? ∧ (s.rx.isSome ↔ i < l.length) ∧ (i = l.length → k = 7 ∧ j = 0)

/-- The latches of every Bus Target: at rest, or, for the target of the running transfer, selected and with its clock
where the action list has brought it (R37, R115). -/
def latchesOk (s : State) : Prop :=
  ∀ b, isRegistered s.cfg b →
    match s.seq with
    | .idle => busAtRest s b
    | .pre _ => busAtRest s b
    | .xfer c _ _ j =>
      if b = c then s.x.read b.pinSel = some s.cfg.selActive ∧ s.x.read b.pinClk = some (clockBefore b.mode j)
        ∧ (s.x.read b.pinDout).isSome
      else busAtRest s b

/-- The invariant of every step, whatever is called: the configuration is well formed, the pin maps keep their
canonical form, the line buffer keeps its bounds, and the sequencer's registers agree. -/
structure State.Inv (s : State) : Prop where
  cfgOk : s.cfg.wf = true
  xWf : s.x.wf
  dirWf : s.dir.wf
  line : lineOk s
  seq : seqOk s

/-- The invariant of a machine that only its host drives: besides, no call waits and the latches are where R37 and the
action lists put them. -/
structure State.HostInv (s : State) : Prop where
  inv : s.Inv
  noCalls : s.calls = []
  latches : latchesOk s

end Sys2Proof.Machine
end

