-- ==== Sys2Proof/Certificates/Slice0/Obligations.lean ====
section
/-! DEFINITION. The statements for the provers. They come from the numbered rules of spec/ and hold for every
well-formed configuration: the values of `State.reset`'s platform enter none of them but `ResetMeetsInvariants`. -/

open Sys2Proof Sys2Proof.Machine

/-! ### Encoding -/

/-- No bit of an encoding is dropped: decoding the encoding of a well-formed instruction gives it back, with every
operand. The encodings are those of 30_encoding.md R71 (lines), R81 (mode numbers), R88 (operation indices); the operand
bytes after a mode number or an index are the model's own (log entry 12). -/
def Obligations.DecodeEncodeRoundTrip : Prop :=
  ∀ (cfg : Config) (i : Instr), i.wf cfg = true → decode (encode i).1 (encode i).2 = .ok i

/-- Decoding is unambiguous: bytes that decode to an instruction are its encoding. -/
def Obligations.EncodeDecodeRoundTrip : Prop :=
  ∀ (f : Format) (bytes : List Byte) (i : Instr), decode f bytes = .ok i → encode i = (f, bytes)

/-- 30_encoding.md R71: "The choice is made on the byte value of `line[0]` alone"; R76; R83: the empty line is not an
encoding. -/
def Obligations.LineKeySelectsCommand : Prop :=
  decodeLine [] = .error .emptyWord ∧
  ∀ (key : Byte) (arg : List Byte),
    decodeLine (key :: arg) = .ok
      (if key = 0x44#8 then .cmdD arg
        else if key = 0x54#8 then .cmdT arg
        else if key = 0x49#8 then .cmdI arg
        else if key = 0x3B#8 then .cmdComment arg
        else .cmdUnknown key arg)

/-- Words written out from the spec's encodings: the examples of 95_test_vectors.md, the mode numbers of R81 and the
operation indices of R88. The operand bytes after a mode number or an index are the model's own (DESIGN CHOICE; log
entry 12). -/
def Obligations.WrittenWordsDecode : Prop :=
  decode .line [0x54#8, 0x53#8, 0x30#8, 0x41#8, 0x31#8, 0x46#8] = .ok (.cmdT [0x53#8, 0x30#8, 0x41#8, 0x31#8, 0x46#8]) ∧
  decode .line [0x44#8, 0x31#8, 0x30#8] = .ok (.cmdD [0x31#8, 0x30#8]) ∧
  decode .line [0x49#8, 0x41#8, 0x31#8] = .ok (.cmdI [0x41#8, 0x31#8]) ∧
  decode .line [0x3B#8, 0x68#8] = .ok (.cmdComment [0x68#8]) ∧
  decode .line [0x64#8, 0x31#8, 0x30#8] = .ok (.cmdUnknown 0x64#8 [0x31#8, 0x30#8]) ∧
  decode .mode [0x05#8, 0x53#8, 0x01#8] = .ok (.bitphaseM5 0x53#8 true) ∧
  decode .mode [0x04#8, 0x53#8, 0x01#8] = .error (.reservedMode 4) ∧
  decode .op [0x03#8, 0x53#8, 0xA5#8, 0x0F#8] = .ok (.transfer 0x53#8 [0xA5#8, 0x0F#8]) ∧
  decode .op [0x07#8, 0x41#8, 0x01#8] = .ok (.setOut 0x41#8 true) ∧
  decode .op [0x0E#8] = .ok .banner ∧
  decode .op [0x0F#8] = .error (.unknownOperation 15)

/-- 30_encoding.md R82: mode values 4 and 6 upward are reserved, a configuration holding one is refused, and 4 is none of
the other modes. -/
def Obligations.ReservedModesRefused : Prop :=
  ∀ n : Nat,
    ((n = 4 ∨ 6 ≤ n) →
      modeOfNumber n = none ∧ ∀ dout din clk sel bitRate, busOfNumbers dout din clk sel bitRate n = none) ∧
    (¬ (n = 4 ∨ 6 ≤ n) → ∃ m, modeOfNumber n = some m ∧ modeNumber m = n ∧
      ∀ dout din clk sel bitRate, busOfNumbers dout din clk sel bitRate n = some ⟨dout, din, clk, sel, bitRate, m⟩)

/-- 40_bus_target.md R102: `idle(0) = idle(1) = 0`, `idle(2) = idle(3) = idle(5) = 1`, by mode number, and undefined for
every other number. -/
def Obligations.IdlePolarityByMode : Prop :=
  (modeOfNumber 0).map idleLevel = some false ∧ (modeOfNumber 1).map idleLevel = some false ∧
  (modeOfNumber 2).map idleLevel = some true ∧ (modeOfNumber 3).map idleLevel = some true ∧
  (modeOfNumber 5).map idleLevel = some true ∧
  ∀ n, n ≠ 0 → n ≠ 1 → n ≠ 2 → n ≠ 3 → n ≠ 5 → (modeOfNumber n).map idleLevel = none

/-- 95_test_vectors.md E2: "hex-encoding then decoding a transfer payload round-trips exactly", for every payload up to
the bound (30_encoding.md R78, R85). -/
def Obligations.HexPayloadRoundTrips : Prop :=
  ∀ (max : Nat) (payload : List Byte), payload.length ≤ max → parsePairs max 0 (hexChars payload) = .ok payload

/-! ### Configurations -/

/-- 00_scope.md R8 (a) to (f), with the ranges of R7 and the texts of D7 (log entry 22); (a) and (c) hold by the types. -/
def Obligations.WellFormedConfigConditions : Prop :=
  ∀ cfg : Config, cfg.wf = true ↔
    (∀ t b, (t, b) ∈ cfg.busReg → 0 < b.bitRate) ∧ cfg.pins.Nodup ∧
    (cfg.busReg.map Prod.fst).Nodup ∧ (cfg.outReg.map Prod.fst).Nodup ∧ 1 ≤ cfg.maxTransferBytes ∧
    0 < cfg.tickHz ∧ 0 < cfg.delayWidth ∧ textOk cfg.bannerText = true ∧
    ∀ d, textOk (diagBytes cfg.diagText d) = true

/-- The states and operands that have no meaning, and the refusal of each. 00_scope.md R8: "a model refuses (gives no
meaning to) a configuration that is not well formed"; 40_bus_target.md R117: "While `seq != IDLE` no other operation of the
hardware has a step" (D27; log entry 23); 60_exceptions.md R215: DISPATCH of an empty line (D19) and TRANSFER of more than
`MAX_TRANSFER_BYTES` bytes; a tag that names no target (log entry 24). -/
def Obligations.OutsideDomainRefused : Prop :=
  ∀ (i : Instr) (s : State),
    (s.cfg.wf = false →
      exec i s = .refused .illFormedConfig ∧ step s = .refused .illFormedConfig ∧
        startUp s.cfg = .refused .illFormedConfig) ∧
    (s.cfg.wf = true → s.seq ≠ .idle → exec i s = .refused .busy) ∧
    (s.ready = true → i = .dispatch [] → exec i s = .refused .emptyLine) ∧
    (∀ t b out, s.ready = true → lookup s.cfg.busReg t = some b → s.cfg.maxTransferBytes < out.length →
      i = .transfer t out → exec i s = .refused .transferTooLong) ∧
    (∀ t d v out, s.ready = true → lookup s.cfg.busReg t = none →
      i ∈ [.initBus t, .selectAssert t, .selectDeassert t, .waitHalf t, .exchangeByte t v, .transfer t out,
        .bitphaseM0 t d, .bitphaseM1 t d, .bitphaseM2 t d, .bitphaseM3 t d, .bitphaseM5 t d] →
      exec i s = .refused .noSuchTarget) ∧
    (∀ t level, s.ready = true → lookup s.cfg.outReg t = none → i ∈ [.initOut t, .setOut t level] →
      exec i s = .refused .noSuchTarget)

/-! ### The Bus Target -/

/-- 40_bus_target.md R101, INIT_BUS: select deasserted, clock at its idle polarity, data-out low, the directions; no
other pin, no event (D11; log entry 6), nothing else. -/
def Obligations.InitBusEffect : Prop :=
  ∀ (s : State) (t : Tag) (b : BusTarget), s.ready = true → lookup s.cfg.busReg t = some b →
    ∃ u, exec (.initBus t) s = .next u ∧ u = { s with x := u.x, dir := u.dir } ∧
      u.x.read b.pinSel = some (!s.cfg.selActive) ∧ u.x.read b.pinClk = some (idleLevel b.mode) ∧
      u.x.read b.pinDout = some false ∧
      (∀ p, p ≠ b.pinSel → p ≠ b.pinClk → p ≠ b.pinDout → u.x.read p = s.x.read p) ∧
      u.dir.read b.pinSel = some .output ∧ u.dir.read b.pinClk = some .output ∧
      u.dir.read b.pinDout = some .output ∧ u.dir.read b.pinDin = some .input ∧
      (∀ p, p ≠ b.pinSel → p ≠ b.pinClk → p ≠ b.pinDout → p ≠ b.pinDin → u.dir.read p = s.dir.read p)

/-- 40_bus_target.md R103, SELECT_ASSERT: `x[SEL] <- SEL_ACTIVE`, one event, nothing else. -/
def Obligations.SelectAssertEffect : Prop :=
  ∀ (s : State) (t : Tag) (b : BusTarget), s.ready = true → lookup s.cfg.busReg t = some b →
    ∃ u, exec (.selectAssert t) s = .next u ∧
      u = { s with x := u.x, trace := s.trace ++ [.drv b.pinSel s.cfg.selActive] } ∧
      u.x.read b.pinSel = some s.cfg.selActive ∧ ∀ p, p ≠ b.pinSel → u.x.read p = s.x.read p

/-- 40_bus_target.md R104, SELECT_DEASSERT: `x[SEL] <- 1 - SEL_ACTIVE`, one event, nothing else. -/
def Obligations.SelectDeassertEffect : Prop :=
  ∀ (s : State) (t : Tag) (b : BusTarget), s.ready = true → lookup s.cfg.busReg t = some b →
    ∃ u, exec (.selectDeassert t) s = .next u ∧
      u = { s with x := u.x, trace := s.trace ++ [.drv b.pinSel (!s.cfg.selActive)] } ∧
      u.x.read b.pinSel = some (!s.cfg.selActive) ∧ ∀ p, p ≠ b.pinSel → u.x.read p = s.x.read p

/-- 40_bus_target.md R112, WAIT_HALF: one event `Wt(H)` with `H = floor(TICK_HZ / (2 * bit_rate))`, also when `H = 0`. -/
def Obligations.WaitHalfEffect : Prop :=
  ∀ (s : State) (t : Tag) (b : BusTarget), s.ready = true → lookup s.cfg.busReg t = some b →
    exec (.waitHalf t) s = .next { s with trace := s.trace ++ [.wt (s.cfg.tickHz / (2 * b.bitRate))] }

/-- 40_bus_target.md R107, BITPHASE_M0: drive bit, wait, sample, clock high, wait, clock low; it returns the bit the
environment answered; the clock ends low, data-out at `d`, no other latch changes.

The result field `ret` is log entry 11, the answers `din` and `samples` log entry 3, and that the list is the same on a
target configured for another mode is log entry 26 (DESIGN CHOICE): the model's, not the rule's. -/
def Obligations.BitphaseM0Effect : Prop :=
  ∀ (s : State) (t : Tag) (b : BusTarget) (d : Bit), s.ready = true → lookup s.cfg.busReg t = some b →
    ∃ u, exec (.bitphaseM0 t d) s = .next u ∧
      u = { s with
        x := u.x
        trace := s.trace ++
          [.drv b.pinDout d, .wt (s.cfg.tickHz / (2 * b.bitRate)), .smp b.pinDin (answerAt s 0), .drv b.pinClk true,
            .wt (s.cfg.tickHz / (2 * b.bitRate)), .drv b.pinClk false]
        ret := .bit (answerAt s 0)
        din := s.din.drop 1
        samples := s.samples + 1 } ∧
      u.x.read b.pinDout = some d ∧ u.x.read b.pinClk = some false ∧
      ∀ p, p ≠ b.pinDout → p ≠ b.pinClk → u.x.read p = s.x.read p

/-- 40_bus_target.md R108, BITPHASE_M1: clock high, drive bit, wait, sample, clock low, wait.

The result field `ret` is log entry 11, the answers `din` and `samples` log entry 3, and that the list is the same on a
target configured for another mode is log entry 26 (DESIGN CHOICE): the model's, not the rule's. -/
def Obligations.BitphaseM1Effect : Prop :=
  ∀ (s : State) (t : Tag) (b : BusTarget) (d : Bit), s.ready = true → lookup s.cfg.busReg t = some b →
    ∃ u, exec (.bitphaseM1 t d) s = .next u ∧
      u = { s with
        x := u.x
        trace := s.trace ++
          [.drv b.pinClk true, .drv b.pinDout d, .wt (s.cfg.tickHz / (2 * b.bitRate)), .smp b.pinDin (answerAt s 0),
            .drv b.pinClk false, .wt (s.cfg.tickHz / (2 * b.bitRate))]
        ret := .bit (answerAt s 0)
        din := s.din.drop 1
        samples := s.samples + 1 } ∧
      u.x.read b.pinDout = some d ∧ u.x.read b.pinClk = some false ∧
      ∀ p, p ≠ b.pinDout → p ≠ b.pinClk → u.x.read p = s.x.read p

/-- 40_bus_target.md R109, BITPHASE_M2: drive bit, wait, sample, clock low, wait, clock high.

The result field `ret` is log entry 11, the answers `din` and `samples` log entry 3, and that the list is the same on a
target configured for another mode is log entry 26 (DESIGN CHOICE): the model's, not the rule's. -/
def Obligations.BitphaseM2Effect : Prop :=
  ∀ (s : State) (t : Tag) (b : BusTarget) (d : Bit), s.ready = true → lookup s.cfg.busReg t = some b →
    ∃ u, exec (.bitphaseM2 t d) s = .next u ∧
      u = { s with
        x := u.x
        trace := s.trace ++
          [.drv b.pinDout d, .wt (s.cfg.tickHz / (2 * b.bitRate)), .smp b.pinDin (answerAt s 0), .drv b.pinClk false,
            .wt (s.cfg.tickHz / (2 * b.bitRate)), .drv b.pinClk true]
        ret := .bit (answerAt s 0)
        din := s.din.drop 1
        samples := s.samples + 1 } ∧
      u.x.read b.pinDout = some d ∧ u.x.read b.pinClk = some true ∧
      ∀ p, p ≠ b.pinDout → p ≠ b.pinClk → u.x.read p = s.x.read p

/-- 40_bus_target.md R110, BITPHASE_M3: wait, clock low, drive bit, wait, sample, clock high.

The result field `ret` is log entry 11, the answers `din` and `samples` log entry 3, and that the list is the same on a
target configured for another mode is log entry 26 (DESIGN CHOICE): the model's, not the rule's. -/
def Obligations.BitphaseM3Effect : Prop :=
  ∀ (s : State) (t : Tag) (b : BusTarget) (d : Bit), s.ready = true → lookup s.cfg.busReg t = some b →
    ∃ u, exec (.bitphaseM3 t d) s = .next u ∧
      u = { s with
        x := u.x
        trace := s.trace ++
          [.wt (s.cfg.tickHz / (2 * b.bitRate)), .drv b.pinClk false, .drv b.pinDout d,
            .wt (s.cfg.tickHz / (2 * b.bitRate)), .smp b.pinDin (answerAt s 0), .drv b.pinClk true]
        ret := .bit (answerAt s 0)
        din := s.din.drop 1
        samples := s.samples + 1 } ∧
      u.x.read b.pinDout = some d ∧ u.x.read b.pinClk = some true ∧
      ∀ p, p ≠ b.pinDout → p ≠ b.pinClk → u.x.read p = s.x.read p

/-- 40_bus_target.md R111, BITPHASE_M5: drive bit, wait, clock low, wait, sample, clock high, wait.

The result field `ret` is log entry 11, the answers `din` and `samples` log entry 3, and that the list is the same on a
target configured for another mode is log entry 26 (DESIGN CHOICE): the model's, not the rule's. -/
def Obligations.BitphaseM5Effect : Prop :=
  ∀ (s : State) (t : Tag) (b : BusTarget) (d : Bit), s.ready = true → lookup s.cfg.busReg t = some b →
    ∃ u, exec (.bitphaseM5 t d) s = .next u ∧
      u = { s with
        x := u.x
        trace := s.trace ++
          [.drv b.pinDout d, .wt (s.cfg.tickHz / (2 * b.bitRate)), .drv b.pinClk false,
            .wt (s.cfg.tickHz / (2 * b.bitRate)), .smp b.pinDin (answerAt s 0), .drv b.pinClk true,
            .wt (s.cfg.tickHz / (2 * b.bitRate))]
        ret := .bit (answerAt s 0)
        din := s.din.drop 1
        samples := s.samples + 1 } ∧
      u.x.read b.pinDout = some d ∧ u.x.read b.pinClk = some true ∧
      ∀ p, p ≠ b.pinDout → p ≠ b.pinClk → u.x.read p = s.x.read p

/-- 40_bus_target.md R106, EXCHANGE_BYTE: eight bit-phases of the target's mode, bit 7 first, each sampled bit at the
position just driven; nothing but the target's clock and data-out latches changes.

The result field `ret` is log entry 11 (DESIGN CHOICE), the answers `din` and `samples` log entry 3; that `tx` and `rx`
are absent after it is 10_state.md R31 as log entry 27 reads it (DEDUCED). -/
def Obligations.ExchangeByteEffect : Prop :=
  ∀ (s : State) (t : Tag) (b : BusTarget) (tx : Byte), s.ready = true → lookup s.cfg.busReg t = some b →
    ∃ u rx, exec (.exchangeByte t tx) s = .next u ∧
      u = { s with
        x := u.x
        trace := s.trace ++ (List.range 8).flatMap fun j =>
          phaseEvents b.mode b (s.cfg.tickHz / (2 * b.bitRate)) (bitAt tx (7 - j)) (answerAt s j)
        tx := none
        rx := none
        ret := .byte rx
        din := s.din.drop 8
        samples := s.samples + 8 } ∧
      (∀ k, k < 8 → bitAt rx (7 - k) = answerAt s k) ∧
      u.x.read b.pinClk = some (idleLevel b.mode) ∧ u.x.read b.pinDout = some (bitAt tx 0) ∧
      ∀ p, p ≠ b.pinDout → p ≠ b.pinClk → u.x.read p = s.x.read p

/-- 40_bus_target.md R105, TRANSFER: select asserted, the bytes exchanged in index order with nothing between them,
select deasserted; as many inbound bytes as outbound ones; only the target's three latches change.

The result field `ret` is log entry 11 (DESIGN CHOICE), the answers `din` and `samples` log entry 3; what becomes of `tx`
and `rx` is 10_state.md R31 as log entry 27 reads it (DEDUCED). -/
def Obligations.TransferEffect : Prop :=
  ∀ (s : State) (t : Tag) (b : BusTarget) (out : List Byte), s.ready = true → lookup s.cfg.busReg t = some b →
    out.length ≤ s.cfg.maxTransferBytes →
    ∃ u inb, exec (.transfer t out) s = .next u ∧ isInbound inb out.length (answerAt s) ∧
      u = { s with
        x := u.x
        trace := s.trace ++
          transferEvents b s.cfg.selActive (s.cfg.tickHz / (2 * b.bitRate)) out (answerAt s)
        tx := u.tx
        rx := u.rx
        ret := .bytes inb
        din := s.din.drop (8 * out.length)
        samples := s.samples + 8 * out.length } ∧
      (s.tx = none → u.tx = none) ∧ (s.rx = none → u.rx = none) ∧
      ∀ p, p ≠ b.pinSel → p ≠ b.pinDout → p ≠ b.pinClk → u.x.read p = s.x.read p

/-- 40_bus_target.md R113 and 70_reset_and_hazards.md R241: a transfer of `n` bytes has `2 + 48n` events and `16n` waits
in modes 0 to 3, `2 + 56n` events and `24n` waits in mode 5, takes at least that many half-periods, and drives select
exactly twice, first and last. -/
def Obligations.TransferEventCounts : Prop :=
  ∀ (s u : State) (t : Tag) (b : BusTarget) (out : List Byte),
    exec (.transfer t out) s = .next u → lookup s.cfg.busReg t = some b →
    ∃ evs, u.trace = s.trace ++ evs ∧
      evs.length = 2 + (if b.mode = .m5 then 56 else 48) * out.length ∧
      (evs.filter Event.isWait).length = (if b.mode = .m5 then 24 else 16) * out.length ∧
      minTicks evs = (if b.mode = .m5 then 24 else 16) * out.length * (s.cfg.tickHz / (2 * b.bitRate)) ∧
      evs.head? = some (.drv b.pinSel s.cfg.selActive) ∧ evs.getLast? = some (.drv b.pinSel (!s.cfg.selActive)) ∧
      evs.filter (fun e => decide (e = .drv b.pinSel true) || decide (e = .drv b.pinSel false)) =
        [.drv b.pinSel s.cfg.selActive, .drv b.pinSel (!s.cfg.selActive)]

/-- 40_bus_target.md R114, loopback: if every sample of DIN was answered with the level of DOUT at that moment, then in
every mode EXCHANGE_BYTE returns its outbound byte and TRANSFER its outbound bytes. The result is read from `ret` (log
entry 11). -/
def Obligations.LoopbackReturnsOutbound : Prop :=
  (∀ (s u : State) (t : Tag) (b : BusTarget) (tx : Byte) (evs : List Event),
    exec (.exchangeByte t tx) s = .next u → lookup s.cfg.busReg t = some b → u.trace = s.trace ++ evs →
    loopback b.pinDout b.pinDin (s.x.read b.pinDout) evs → u.ret = .byte tx) ∧
  (∀ (s u : State) (t : Tag) (b : BusTarget) (out : List Byte) (evs : List Event),
    exec (.transfer t out) s = .next u → lookup s.cfg.busReg t = some b → u.trace = s.trace ++ evs →
    loopback b.pinDout b.pinDin (s.x.read b.pinDout) evs → u.ret = .bytes out)

/-- 40_bus_target.md R115: after a transfer of at least one byte select is deasserted, the clock idle, data-out at bit 0
of the last outbound byte; a transfer of no byte leaves the three latches of a target at rest as they were. -/
def Obligations.TransferLeavesLatches : Prop :=
  ∀ (s u : State) (t : Tag) (b : BusTarget) (out : List Byte),
    exec (.transfer t out) s = .next u → lookup s.cfg.busReg t = some b →
    (∀ last, out.getLast? = some last →
      u.x.read b.pinSel = some (!s.cfg.selActive) ∧ u.x.read b.pinClk = some (idleLevel b.mode) ∧
        u.x.read b.pinDout = some (bitAt last 0)) ∧
    (out = [] → s.x.read b.pinSel = some (!s.cfg.selActive) →
      u.x.read b.pinSel = s.x.read b.pinSel ∧ u.x.read b.pinClk = s.x.read b.pinClk ∧
        u.x.read b.pinDout = s.x.read b.pinDout)

/-! ### The Output Target -/

/-- 41_output_target.md R141, INIT_OUT: the pin becomes an output, its level is `unset`, no event, nothing else. -/
def Obligations.InitOutEffect : Prop :=
  ∀ (s : State) (t : Tag) (o : OutputTarget), s.ready = true → s.x.wf → lookup s.cfg.outReg t = some o →
    ∃ u, exec (.initOut t) s = .next u ∧ u = { s with x := u.x, dir := u.dir } ∧
      u.x.read o.pinOut = none ∧ (∀ p, p ≠ o.pinOut → u.x.read p = s.x.read p) ∧
      u.dir.read o.pinOut = some .output ∧ ∀ p, p ≠ o.pinOut → u.dir.read p = s.dir.read p

/-- 41_output_target.md R142, SET: the latch takes the level, one event, no response, nothing else. -/
def Obligations.SetEffect : Prop :=
  ∀ (s : State) (t : Tag) (o : OutputTarget) (level : Bool), s.ready = true → lookup s.cfg.outReg t = some o →
    ∃ u, exec (.setOut t level) s = .next u ∧
      u = { s with x := u.x, trace := s.trace ++ [.drv o.pinOut level] } ∧
      u.x.read o.pinOut = some level ∧ ∀ p, p ≠ o.pinOut → u.x.read p = s.x.read p

/-- 41_output_target.md R143: an instruction other than SERVICE leaves the latch of an Output Target as it is unless it is
an INIT_OUT, a SET or an I line of its own tag; SERVICE leaves it unless one of the lines it dispatches is an I line of
that tag; and so does a step of a machine on which no call waits, unless it dispatches an I line of that tag. -/
def Obligations.OnlySetWritesOutput : Prop :=
  (∀ (i : Instr) (s u : State) (t : Tag) (o : OutputTarget),
    exec i s = .next u → lookup s.cfg.outReg t = some o →
    u.x.read o.pinOut = s.x.read o.pinOut ∨ i = .initOut t ∨ (∃ level, i = .setOut t level) ∨
      (∃ rest, i = .cmdI (t :: rest)) ∨ (∃ rest, i = .dispatch (0x49#8 :: t :: rest)) ∨
      (i = .service ∧ ∃ rest, 0x49#8 :: t :: rest ∈ linesOf (2 * s.cfg.maxTransferBytes + 2) s.line s.inq)) ∧
  (∀ (s u : State) (t : Tag) (o : OutputTarget),
    s.Inv → s.calls = [] → step s = .next u → lookup s.cfg.outReg t = some o →
    u.x.read o.pinOut = s.x.read o.pinOut ∨
      (s.seq = .idle ∧ (∃ rest, s.line = 0x49#8 :: t :: rest) ∧
        ∃ c more, s.inq = c :: more ∧ (c = 0x0A#8 ∨ c = 0x0D#8)))

/-! ### The command lines -/

/-- 42_command_front_end.md R155, CMD_D: the decimal number mod `2^DELAY_WIDTH` is waited, then `C`; an empty argument is
`missing_millis`, a byte that is no digit `bad_digit`, both without a wait. -/
def Obligations.DelayCommand : Prop :=
  ∀ (s : State) (arg : List Byte), s.ready = true →
    (arg ≠ [] → (∀ c ∈ arg, 0x30 ≤ c.toNat ∧ c.toNat ≤ 0x39) →
      exec (.cmdD arg) s = .next { s with
        outq := s.outq ++ 0x43#8 :: termBytes s.cfg.respTerm
        trace := s.trace ++
          .wtMs (arg.foldl (fun v c => v * 10 + (c.toNat - 0x30)) 0 % 2 ^ s.cfg.delayWidth) ::
            (0x43#8 :: termBytes s.cfg.respTerm).map .tx }) ∧
    (arg = [] → exec (.cmdD arg) s = .next (errorState .missingMillis s)) ∧
    ((∃ c ∈ arg, ¬ (0x30 ≤ c.toNat ∧ c.toNat ≤ 0x39)) → exec (.cmdD arg) s = .next (errorState .badDigit s))

/-- 42_command_front_end.md R157, CMD_T on a line that passes every check: the transfer, then `S` with the inbound bytes,
and no `buf` is left. The pairs are any hex digits of either case, high nibble first (30_encoding.md R78). -/
def Obligations.TransferCommand : Prop :=
  ∀ (s : State) (t : Tag) (b : BusTarget) (pairs : List (Byte × Byte)) (out : List Byte),
    s.ready = true → lookup s.cfg.busReg t = some b → out.length ≤ s.cfg.maxTransferBytes →
    List.Forall₂ (fun p v => ∃ high low, hexval p.1 = some high ∧ hexval p.2 = some low ∧
      v = BitVec.ofNat 8 (16 * high + low)) pairs out →
    ∃ u inb, exec (.cmdT (t :: pairs.flatMap fun p => [p.1, p.2])) s = .next u ∧
      isInbound inb out.length (answerAt s) ∧
      u = { s with
        x := u.x
        buf := none
        tx := u.tx
        rx := u.rx
        outq := s.outq ++ 0x53#8 :: (hexChars inb ++ termBytes s.cfg.respTerm)
        trace := s.trace ++
          transferEvents b s.cfg.selActive (s.cfg.tickHz / (2 * b.bitRate)) out (answerAt s) ++
          (0x53#8 :: (hexChars inb ++ termBytes s.cfg.respTerm)).map .tx
        din := s.din.drop (8 * out.length)
        samples := s.samples + 8 * out.length } ∧
      (s.tx = none → u.tx = none) ∧ (s.rx = none → u.rx = none) ∧
      ∀ p, p ≠ b.pinSel → p ≠ b.pinDout → p ≠ b.pinClk → u.x.read p = s.x.read p

/-- 42_command_front_end.md R157, R158: which error a malformed T line raises, the first that the left-to-right scan meets
after a well-formed prefix of pairs; no pin moves. -/
def Obligations.TransferCommandErrors : Prop :=
  ∀ (s : State), s.ready = true →
    exec (.cmdT []) s = .next (errorState .tooShort s) ∧
    (∀ t rest, lookup s.cfg.busReg t = none → exec (.cmdT (t :: rest)) s = .next (errorState .badTag s)) ∧
    ∀ (t : Tag) (b : BusTarget) (pairs : List (Byte × Byte)) (h : Byte) (rest : List Byte),
      lookup s.cfg.busReg t = some b → (∀ p ∈ pairs, (hexval p.1).isSome ∧ (hexval p.2).isSome) →
      (pairs.length = s.cfg.maxTransferBytes →
        exec (.cmdT (t :: ((pairs.flatMap fun p => [p.1, p.2]) ++ h :: rest))) s = .next (errorState .moreThanMax s)) ∧
      (pairs.length < s.cfg.maxTransferBytes → hexval h = none →
        exec (.cmdT (t :: ((pairs.flatMap fun p => [p.1, p.2]) ++ h :: rest))) s =
          .next (errorState .invalidHighDigit s)) ∧
      (pairs.length < s.cfg.maxTransferBytes → (hexval h).isSome → rest = [] →
        exec (.cmdT (t :: ((pairs.flatMap fun p => [p.1, p.2]) ++ h :: rest))) s =
          .next (errorState .incompleteHexByte s)) ∧
      (∀ l more, pairs.length < s.cfg.maxTransferBytes → (hexval h).isSome → rest = l :: more → hexval l = none →
        exec (.cmdT (t :: ((pairs.flatMap fun p => [p.1, p.2]) ++ h :: rest))) s =
          .next (errorState .invalidLowDigit s))

/-- 42_command_front_end.md R159, CMD_I: a registered tag and `0` or `1` set the output without a response; every other
argument is the error of the first check that fails, and leaves the output unchanged. -/
def Obligations.OutputCommand : Prop :=
  ∀ (s : State), s.ready = true →
    (∀ t o, lookup s.cfg.outReg t = some o →
      (exec (.cmdI [t, 0x30#8]) s =
        .next { s with x := s.x.write o.pinOut false, trace := s.trace ++ [.drv o.pinOut false] }) ∧
      (exec (.cmdI [t, 0x31#8]) s =
        .next { s with x := s.x.write o.pinOut true, trace := s.trace ++ [.drv o.pinOut true] }) ∧
      (exec (.cmdI [t]) s = .next (errorState .tooShort s)) ∧
      (∀ c rest, c ≠ 0x30#8 → c ≠ 0x31#8 → exec (.cmdI (t :: c :: rest)) s = .next (errorState .invalidLevel s)) ∧
      (∀ c e rest, c = 0x30#8 ∨ c = 0x31#8 → exec (.cmdI (t :: c :: e :: rest)) s = .next (errorState .tooLong s))) ∧
    exec (.cmdI []) s = .next (errorState .tooShort s) ∧
    (∀ t rest, lookup s.cfg.outReg t = none → exec (.cmdI (t :: rest)) s = .next (errorState .badTag s))

/-- 42_command_front_end.md R160, CMD_COMMENT: "ignored entirely, no response". -/
def Obligations.CommentCommand : Prop :=
  ∀ (s : State) (arg : List Byte), s.ready = true → exec (.cmdComment arg) s = .next s

/-- 42_command_front_end.md R161, CMD_UNKNOWN: always the error `unknown_command`. -/
def Obligations.UnknownCommand : Prop :=
  ∀ (s : State) (key : Byte) (rest : List Byte), s.ready = true →
    exec (.cmdUnknown key rest) s = .next (errorState .unknownCommand s)

/-- 60_exceptions.md R204, error entry: `buf` is discarded, in `DEBUG` mode the diagnostic comment is sent, then `E`;
nothing else changes. -/
def Obligations.ErrorEntry : Prop :=
  ∀ (d : Diag) (s : State),
    ∃ bytes, bytes = (if s.cfg.debug then
        s.cfg.commentMark :: (diagBytes s.cfg.diagText d ++ termBytes s.cfg.respTerm) else [])
          ++ 0x45#8 :: termBytes s.cfg.respTerm ∧
      raiseError d s = { s with buf := none, outq := s.outq ++ bytes, trace := s.trace ++ bytes.map .tx }

/-- 60_exceptions.md R214: an invalid line dispatched twice gives the same bytes both times and leaves the state. That a
partial line in the accumulator is among what it leaves is log entry 36 (DESIGN CHOICE). -/
def Obligations.InvalidLineIdempotent : Prop :=
  ∀ (s : State) (l : List Byte) (d : Diag), s.ready = true → lineError s.cfg l = some d →
    ∃ u w bytes, exec (.dispatch l) s = .next u ∧ exec (.dispatch l) u = .next w ∧
      u = { s with buf := none, outq := s.outq ++ bytes, trace := s.trace ++ bytes.map .tx } ∧
      w = { u with outq := u.outq ++ bytes, trace := u.trace ++ bytes.map .tx }

/-- 42_command_front_end.md R154, DISPATCH: on a line of at least one byte, the command of the key is run on the rest of the
line. That the key is matched exactly, a lower-case key being an unknown command, is D14 (log entry 19); a line with a
terminator inside is log entry 34, and that a partial line in the accumulator stays is log entry 36 (DESIGN CHOICE). -/
def Obligations.DispatchRunsCommand : Prop :=
  ∀ (s : State) (key : Byte) (arg : List Byte), s.ready = true →
    ∃ u, exec (.dispatch (key :: arg)) s = .next u ∧
      (key = 0x44#8 → exec (.cmdD arg) s = .next u) ∧
      (key = 0x54#8 → exec (.cmdT arg) s = .next u) ∧
      (key = 0x49#8 → exec (.cmdI arg) s = .next u) ∧
      (key = 0x3B#8 → exec (.cmdComment arg) s = .next u) ∧
      (key ≠ 0x44#8 → key ≠ 0x54#8 → key ≠ 0x49#8 → key ≠ 0x3B#8 → exec (.cmdUnknown key arg) s = .next u)

/-! ### The Line Framer and the service routine -/

/-- 42_command_front_end.md R151, R152, FEED: a terminator delivers a non-empty line and clears the accumulator, and does
nothing on an empty one; a content byte is appended below the capacity and dropped at it.

The result field `ret`, which every clause sets, is the model's own (DESIGN CHOICE; log entry 11). -/
def Obligations.FeedEffect : Prop :=
  ∀ (s : State) (c : Byte), s.ready = true →
    ((c = 0x0A#8 ∨ c = 0x0D#8) → s.line ≠ [] →
      exec (.feed c) s = .next { s with line := [], ret := .line (some s.line) }) ∧
    ((c = 0x0A#8 ∨ c = 0x0D#8) → s.line = [] → exec (.feed c) s = .next { s with ret := .line none }) ∧
    (c ≠ 0x0A#8 → c ≠ 0x0D#8 → s.len < 2 * s.cfg.maxTransferBytes + 2 →
      exec (.feed c) s = .next { s with line := s.line ++ [c], ret := .line none }) ∧
    (c ≠ 0x0A#8 → c ≠ 0x0D#8 → 2 * s.cfg.maxTransferBytes + 2 ≤ s.len →
      exec (.feed c) s = .next { s with ret := .line none })

/-- 42_command_front_end.md R150, R152, R168: content bytes and a terminator dispatch the first `LINE_CAP` of the bytes,
and nothing of the rest. -/
def Obligations.ServiceDispatchesCutLine : Prop :=
  ∀ (s : State) (content : List Byte) (c : Byte), s.ready = true → s.line = [] → content ≠ [] →
    (∀ e ∈ content, e ≠ 0x0A#8 ∧ e ≠ 0x0D#8) → (c = 0x0A#8 ∨ c = 0x0D#8) →
    exec .service { s with inq := content ++ [c] } =
      exec (.dispatch (content.take (2 * s.cfg.maxTransferBytes + 2)))
        { s with inq := [], trace := s.trace ++ (content ++ [c]).map .rx }

/-- 42_command_front_end.md R150, SERVICE: it reads every byte of `inq` in order and then stops with no transfer running;
on an empty `inq` it does nothing. -/
def Obligations.ServiceDrainsInput : Prop :=
  ∀ (s : State), s.ready = true →
    ∃ u evs, exec .service s = .next u ∧ u.trace = s.trace ++ evs ∧ readBytes evs = s.inq ∧ u.inq = [] ∧
      u.seq = .idle ∧ u.outq = s.outq ++ sentBytes evs ∧ u.cfg = s.cfg ∧ u.dir = s.dir ∧ u.calls = s.calls ∧
      u.ret = s.ret ∧ (s.inq = [] → u = s)

/-- 42_command_front_end.md R150: how the input is divided among invocations of SERVICE makes no difference. -/
def Obligations.ServiceInvocationsCompose : Prop :=
  ∀ (s u : State) (first second : List Byte),
    exec .service { s with inq := first } = .next u →
    exec .service { s with inq := first ++ second } = exec .service { u with inq := second }

/-- 42_command_front_end.md R168(a), 90_conflicts.md C5: a T line with more than `MAX_TRANSFER_BYTES` pairs is
`more_than_max` when DISPATCH is given the whole line, and is executed as a transfer of the first `MAX_TRANSFER_BYTES`
bytes when it comes through the Line Framer. -/
def Obligations.OverlongTransferBothWays : Prop :=
  ∀ (s : State) (t : Tag) (b : BusTarget) (pairs : List (Byte × Byte)),
    s.ready = true → s.line = [] → lookup s.cfg.busReg t = some b → t ≠ 0x0A#8 → t ≠ 0x0D#8 →
    s.cfg.maxTransferBytes < pairs.length → (∀ p ∈ pairs, (hexval p.1).isSome ∧ (hexval p.2).isSome) →
    exec (.dispatch (0x54#8 :: t :: pairs.flatMap fun p => [p.1, p.2])) s = .next (errorState .moreThanMax s) ∧
    exec .service { s with inq := (0x54#8 :: t :: pairs.flatMap fun p => [p.1, p.2]) ++ [0x0A#8] } =
      exec (.cmdT (t :: (pairs.take s.cfg.maxTransferBytes).flatMap fun p => [p.1, p.2]))
        { s with
          inq := []
          trace := s.trace ++ ((0x54#8 :: t :: pairs.flatMap fun p => [p.1, p.2]) ++ [0x0A#8]).map .rx }

/-! ### The Response Encoder -/

/-- 42_command_front_end.md R162, RESP_BARE. -/
def Obligations.BareResponse : Prop :=
  ∀ (s : State), s.ready = true →
    (exec (.respBare .c) s = .next { s with
      outq := s.outq ++ 0x43#8 :: termBytes s.cfg.respTerm
      trace := s.trace ++ (0x43#8 :: termBytes s.cfg.respTerm).map .tx }) ∧
    (exec (.respBare .e) s = .next { s with
      outq := s.outq ++ 0x45#8 :: termBytes s.cfg.respTerm
      trace := s.trace ++ (0x45#8 :: termBytes s.cfg.respTerm).map .tx })

/-- 42_command_front_end.md R163, RESP_DATA: `S`, two lower-case hex characters a byte, high nibble first, the
terminator. -/
def Obligations.DataResponse : Prop :=
  ∀ (s : State) (payload : List Byte), s.ready = true →
    ∃ hex, exec (.respData payload) s = .next { s with
        outq := s.outq ++ 0x53#8 :: (hex ++ termBytes s.cfg.respTerm)
        trace := s.trace ++ (0x53#8 :: (hex ++ termBytes s.cfg.respTerm)).map .tx } ∧
      hex.length = 2 * payload.length ∧
      (∀ c ∈ hex, (0x30 ≤ c.toNat ∧ c.toNat ≤ 0x39) ∨ (0x61 ≤ c.toNat ∧ c.toNat ≤ 0x66)) ∧
      ∀ i v, payload[i]? = some v →
        (hex[2 * i]?.bind hexval) = some (v.toNat / 16) ∧ (hex[2 * i + 1]?.bind hexval) = some (v.toNat % 16)

/-- 42_command_front_end.md R164, RESP_COMMENT: a comment line in `DEBUG` mode, else nothing. -/
def Obligations.CommentResponse : Prop :=
  ∀ (s : State) (text : List Byte), s.ready = true →
    (s.cfg.debug = false → exec (.respComment text) s = .next s) ∧
    (s.cfg.debug = true → exec (.respComment text) s = .next { s with
      outq := s.outq ++ s.cfg.commentMark :: (text ++ termBytes s.cfg.respTerm)
      trace := s.trace ++ (s.cfg.commentMark :: (text ++ termBytes s.cfg.respTerm)).map .tx })

/-- 42_command_front_end.md R165, BANNER: `RESP_COMMENT(BANNER_TEXT)`. -/
def Obligations.BannerResponse : Prop :=
  ∀ (s : State), s.ready = true →
    exec .banner s = exec (.respComment s.cfg.bannerText) s ∧
    (s.cfg.debug = false → exec .banner s = .next s) ∧
    (s.cfg.debug = true → exec .banner s = .next { s with
      outq := s.outq ++ s.cfg.commentMark :: (s.cfg.bannerText ++ termBytes s.cfg.respTerm)
      trace := s.trace ++ (s.cfg.commentMark :: (s.cfg.bannerText ++ termBytes s.cfg.respTerm)).map .tx })

/-! ### The machine -/

/-- A step runs the decoded instruction of the oldest call, and `withFetchWord` places a word of the table where the next
step runs exactly it. The call port is the model's own (log entries 10, 13). -/
def Obligations.StepRunsCalledInstruction : Prop :=
  (∀ (s : State) (c : Call) (rest : List Call) (i : Instr),
    s.ready = true → s.calls = c :: rest → decode c.format c.bytes = .ok i →
    step s = exec i { s with calls := rest }) ∧
  (∀ (s : State) (nbits w : Nat) (i : Instr),
    s.cfg.wf = true → decodeTableWord nbits w = some i →
    step (s.withFetchWord nbits w) = exec i { s with seq := .idle })

/-- A step that reads the terminator of a line runs the instruction the line decodes to (R150, R154): whole, or, for a T
line that passes every check, by starting its transfer, which the sequencer then runs one action a step (R117; log entry
9; `SequencerRunsTransfer`). -/
def Obligations.StepRunsDecodedLine : Prop :=
  ∀ (s : State) (c : Byte) (rest : List Byte) (i : Instr),
    s.ready = true → s.calls = [] → s.inq = c :: rest → (c = 0x0A#8 ∨ c = 0x0D#8) → s.line ≠ [] →
    decodeLine s.line = .ok i →
    (∀ arg b out, i = .cmdT arg → parseTransfer s.cfg arg = .ok (b, out) →
      step s = .next { s with
        inq := rest, line := [], trace := s.trace ++ [.rx c], seq := .pre b, buf := some out }) ∧
    ((∀ arg b out, i = .cmdT arg → parseTransfer s.cfg arg ≠ .ok (b, out)) →
      step s = exec i { s with inq := rest, line := [], trace := s.trace ++ [.rx c] })

/-- A step with no line to run (R150, R151): a content byte joins the line or is dropped, a terminator on an empty line
does nothing, and with nothing to read "every latch holds": nothing changes (log entry 28). -/
def Obligations.StepWithoutLine : Prop :=
  ∀ (s : State), s.ready = true → s.calls = [] →
    (s.inq = [] → step s = .next s) ∧
    ∀ (c : Byte) (rest : List Byte), s.inq = c :: rest →
      ((c = 0x0A#8 ∨ c = 0x0D#8) → s.line = [] →
        step s = .next { s with inq := rest, trace := s.trace ++ [.rx c] }) ∧
      (c ≠ 0x0A#8 → c ≠ 0x0D#8 →
        step s = .next { s with
          inq := rest
          trace := s.trace ++ [.rx c]
          line := if s.len < 2 * s.cfg.maxTransferBytes + 2 then s.line ++ [c] else s.line })

/-- 40_bus_target.md R117, the step function of the sequencer: SELECT_ASSERT at `PRE`; at `i < n` the action
`list(mode)[s]` with `d = buf_out[i][k]`, a sample stored in `rx[k]`, and the next position; at `i = n` SELECT_DEASSERT
and IDLE, with the rest of CMD_T (R157; log entry 25). When `buf[i]` takes the inbound byte, and `tx` and `rx` on entering
a byte, are R31, R32 of 10_state.md and R106 as log entry 27 reads them (DEDUCED). -/
def Obligations.SequencerStep : Prop :=
  ∀ (s : State) (b : BusTarget) (l : List Byte), s.Inv → s.buf = some l →
    (s.seq = .pre b →
      step s = .next { s with
        x := s.x.write b.pinSel s.cfg.selActive
        trace := s.trace ++ [.drv b.pinSel s.cfg.selActive]
        seq := .xfer b 0 7 0
        tx := l.head?
        rx := l.head?.map fun _ => 0#8 }) ∧
    (∀ i k j d, s.seq = .xfer b i k j → i < l.length → l[i]?.map (fun v => bitAt v k) = some d →
      ∃ a r v, (actions b.mode)[j]? = some a ∧ s.rx = some r ∧ v = storeSample r k (act b d a s).2 ∧
        (j + 1 < (actions b.mode).length →
          step s = .next { (act b d a s).1 with rx := some v, seq := .xfer b i k (j + 1) }) ∧
        (j + 1 = (actions b.mode).length → 0 < k →
          step s = .next { (act b d a s).1 with rx := some v, seq := .xfer b i (k - 1) 0 }) ∧
        (j + 1 = (actions b.mode).length → k = 0 →
          step s = .next { (act b d a s).1 with
            buf := some (l.set i v)
            seq := .xfer b (i + 1) 7 0
            tx := l[i + 1]?
            rx := l[i + 1]?.map fun _ => 0#8 })) ∧
    (∀ k j, s.seq = .xfer b l.length k j →
      step s = .next { s with
        x := s.x.write b.pinSel (!s.cfg.selActive)
        seq := .idle
        buf := none
        outq := s.outq ++ dataLine s.cfg l
        trace := s.trace ++ .drv b.pinSel (!s.cfg.selActive) :: (dataLine s.cfg l).map .tx })

/-- 40_bus_target.md R117: "The big-step rules R105 and R106 and this small-step form produce the same trace". From the
start of a transfer the machine reaches, after one step for select, one for each action of each bit and one for the end,
exactly the state CMD_T as a whole leaves. -/
def Obligations.SequencerRunsTransfer : Prop :=
  ∀ (s : State) (arg : List Byte) (b : BusTarget) (out : List Byte),
    s.Inv → s.seq = .idle → parseTransfer s.cfg arg = .ok (b, out) →
    runSteps (2 + 8 * (actions b.mode).length * out.length) (beginTransfer b out s) =
      exec (.cmdT arg) s

/-- Every step keeps the invariant: the configuration well formed, the pin maps canonical, the line buffer within its
bounds and free of terminators (10_state.md R33), the sequencer's registers in agreement (R26, R31, R32). -/
def Obligations.StepKeepsInvariant : Prop :=
  ∀ s t : State, s.Inv → step s = .next t → t.Inv

/-- The invariants hold at `State.reset`. -/
def Obligations.ResetMeetsInvariants : Prop := State.reset.Inv ∧ State.reset.HostInv

/-- 10_state.md R37: a machine that only its host drives never stops, and every step keeps select deasserted and the
clock idle on every Bus Target but the one a transfer uses, whose select is asserted and whose clock is where its action
list has brought it. -/
def Obligations.HostDrivenLatchInvariant : Prop :=
  ∀ s : State, s.HostInv → (∃ t, step s = .next t) ∧ ∀ t, step s = .next t → t.HostInv

/-- The state after start-up meets both invariants, for every well-formed platform (10_state.md R36, R37). -/
def Obligations.StartStateMeetsInvariants : Prop :=
  ∀ cfg : Config, cfg.wf = true → (State.resetOf cfg).Inv ∧ (State.resetOf cfg).HostInv

/-- 42_command_front_end.md R169: what the host and the bus device do between two steps keeps both invariants. -/
def Obligations.HostActionsKeepInvariants : Prop :=
  ∀ (s : State) (bytes : List Byte) (n : Nat) (answers : List Bit) (c : Call),
    (s.Inv → (hostSend bytes s).Inv ∧ (hostTake n s).2.Inv ∧ (setAnswers answers s).Inv ∧ (hostCall c s).Inv) ∧
    (s.HostInv → (hostSend bytes s).HostInv ∧ (hostTake n s).2.HostInv ∧ (setAnswers answers s).HostInv)

/-- 70_reset_and_hazards.md R231: INIT_BUS of every Bus Target, INIT_OUT of every Output Target and BANNER, run by the
machine from pins without levels, end in the state after reset; the trace apart, which D11 sets to empty there (log
entry 6). The order of these operations is the model's (DESIGN CHOICE; log entry 35). -/
def Obligations.StartUpReachesReset : Prop :=
  ∀ cfg : Config, cfg.wf = true →
    ∃ t, startUp cfg = .next (State.unbooted cfg) ∧
      runSteps (bootInstrs cfg).length (State.unbooted cfg) = .next t ∧
      t = { State.resetOf cfg with trace := (commentLine cfg cfg.bannerText).map .tx }

/-- 10_state.md R36, the table of reset values, for every well-formed platform. -/
def Obligations.ResetTable : Prop :=
  ∀ cfg : Config, cfg.wf = true →
    (∀ t b, (t, b) ∈ cfg.busReg →
      (State.resetOf cfg).x.read b.pinSel = some (!cfg.selActive) ∧
      (State.resetOf cfg).x.read b.pinClk = some (idleLevel b.mode) ∧
      (State.resetOf cfg).x.read b.pinDout = some false ∧
      (State.resetOf cfg).dir.read b.pinSel = some .output ∧
      (State.resetOf cfg).dir.read b.pinClk = some .output ∧
      (State.resetOf cfg).dir.read b.pinDout = some .output ∧
      (State.resetOf cfg).dir.read b.pinDin = some .input) ∧
    (∀ t o, (t, o) ∈ cfg.outReg →
      (State.resetOf cfg).x.read o.pinOut = none ∧ (State.resetOf cfg).dir.read o.pinOut = some .output) ∧
    (State.resetOf cfg).len = 0 ∧ (State.resetOf cfg).seq = .idle ∧ (State.resetOf cfg).buf = none ∧
    (State.resetOf cfg).tx = none ∧ (State.resetOf cfg).rx = none ∧ (State.resetOf cfg).inq = [] ∧
    (State.resetOf cfg).outq =
      (if cfg.debug then cfg.commentMark :: (cfg.bannerText ++ termBytes cfg.respTerm) else []) ∧
    (State.resetOf cfg).trace = []

/-- 20_memory.md R59, R62, 10_state.md R27, R30: every step only adds events to the trace; the bytes it read are gone from
the front of `inq`, the bytes it sent are at the end of `outq`, in order; no step changes the configuration. -/
def Obligations.StepExtendsHistory : Prop :=
  ∀ s t : State, step s = .next t →
    ∃ evs, t.trace = s.trace ++ evs ∧ s.inq = readBytes evs ++ t.inq ∧ t.outq = s.outq ++ sentBytes evs ∧
      t.cfg = s.cfg

/-- 70_reset_and_hazards.md R247: while a transfer runs nothing is read, so bytes the host sends meanwhile wait in `inq`
and change nothing (20_memory.md R55). -/
def Obligations.InputWaitsDuringTransfer : Prop :=
  ∀ (s t : State) (bytes : List Byte), s.seq ≠ .idle → step s = .next t →
    t.inq = s.inq ∧ step (hostSend bytes s) = .next (hostSend bytes t)

/-- 60_exceptions.md R212: `DEBUG` "changes nothing else: no pin action, no timing rule, no parsing rule". An instruction
that completes with the flag either way completes with it off and on, leaves the same state but for the flag and the two
streams, and its events, and so the bytes it sends, differ only by comment lines: the diagnostic comment immediately
before an `E` line, and the comment line that BANNER or RESP_COMMENT is. -/
def Obligations.DebugChangesOnlyComments : Prop :=
  ∀ (i : Instr) (s t : State) (flag : Bool), exec i (s.withDebug flag) = .next t →
    ∃ u w plain full, exec i (s.withDebug false) = .next u ∧ exec i (s.withDebug true) = .next w ∧
      w = { u.withDebug true with outq := w.outq, trace := w.trace } ∧
      u.trace = s.trace ++ plain ∧ w.trace = s.trace ++ full ∧ DebugTraces s.cfg i full plain ∧
      u.outq = s.outq ++ sentBytes plain ∧ w.outq = s.outq ++ sentBytes full

/-- 10_state.md R21, R24: an instruction that is not an initialisation adds events to the trace, and every latch holds
the level the last of them drove it to, or its old level if none did. -/
def Obligations.LatchHoldsLastDrive : Prop :=
  ∀ (i : Instr) (s u : State), exec i s = .next u → (∀ t, i ≠ .initBus t) → (∀ t, i ≠ .initOut t) →
    ∃ evs, u.trace = s.trace ++ evs ∧ ∀ p, u.x.read p = levelAfter p (s.x.read p) evs
end

