-- ==== Sys2Proof/Laws/Config.lean ====
section
/-! SUPPORT. What a well-formed configuration says (00_scope.md R8): registries are maps and pins are owned by one
target. -/

namespace Sys2Proof

open Machine

variable {cfg : Config}

theorem Config.wf_iff : cfg.wf = true ↔
    cfg.ratesPositive = true ∧ cfg.pins.Nodup ∧ (cfg.busReg.map Prod.fst).Nodup ∧ (cfg.outReg.map Prod.fst).Nodup
      ∧ 1 ≤ cfg.maxTransferBytes ∧ cfg.rangesOk = true ∧ cfg.textsOk = true := by
  simp only [Config.wf, Config.pinsDistinct, Config.keysUnique, Bool.and_eq_true, decide_eq_true_eq]
  tauto

/-- `lookup` finds only entries of the registry. -/
theorem Machine.mem_of_lookup {α : Type} {reg : List (Tag × α)} {t : Tag} {v : α} (h : lookup reg t = some v) :
    (t, v) ∈ reg := by
  induction reg with
  | nil => simp [lookup] at h
  | cons e reg ih =>
    obtain ⟨k, w⟩ := e
    unfold lookup at h
    split_ifs at h with hk
    · simp_all
    · exact List.mem_cons_of_mem _ (ih h)

/-- On unique keys `lookup` finds every entry. -/
theorem Machine.lookup_of_mem {α : Type} {reg : List (Tag × α)} (hk : (reg.map Prod.fst).Nodup) {t : Tag} {v : α}
    (h : (t, v) ∈ reg) : lookup reg t = some v := by
  induction reg with
  | nil => simp at h
  | cons e reg ih =>
    obtain ⟨k, w⟩ := e
    simp only [List.map_cons, List.nodup_cons] at hk
    unfold lookup
    rcases List.mem_cons.1 h with h | h
    · obtain ⟨rfl, rfl⟩ := Prod.mk.inj h
      exact if_pos rfl
    · have hne : t ≠ k := by
        intro htk
        rw [← htk] at hk
        exact hk.1 (List.mem_map.2 ⟨(t, v), h, rfl⟩)
      rw [if_neg hne]
      exact ih hk.2 h

theorem registered_of_lookup {t : Tag} {b : BusTarget} (h : lookup cfg.busReg t = some b) : isRegistered cfg b :=
  ⟨t, mem_of_lookup h⟩

/-- The pins of one Bus Target in the list of all pins. -/
theorem Config.busPins_nodup (h : cfg.wf = true) {b : BusTarget} (hb : isRegistered cfg b) :
    [b.pinDout, b.pinDin, b.pinClk, b.pinSel].Nodup := by
  obtain ⟨t, ht⟩ := hb
  have hp := (Config.wf_iff.1 h).2.1
  have h1 := (List.nodup_append.1 hp).1
  exact (List.nodup_flatMap.1 h1).1 (t, b) ht

/-- The three latches and the input of a registered target are four pins. -/
theorem Config.busPins_ne (h : cfg.wf = true) {b : BusTarget} (hb : isRegistered cfg b) :
    b.pinDout ≠ b.pinClk ∧ b.pinDout ≠ b.pinSel ∧ b.pinClk ≠ b.pinSel ∧ b.pinDin ≠ b.pinDout ∧ b.pinDin ≠ b.pinClk
      ∧ b.pinDin ≠ b.pinSel := by
  have h1 := Config.busPins_nodup h hb
  simp only [List.nodup_cons, List.mem_cons, List.not_mem_nil, or_false, not_or] at h1
  obtain ⟨⟨h1, h2, h3⟩, ⟨h4, h5⟩, h6, -⟩ := h1
  exact ⟨h2, h3, h6, Ne.symm h1, h4, h5⟩

/-- Two registered targets own different pins, unless they are the same target. -/
theorem Config.busPins_disjoint (h : cfg.wf = true) {b c : BusTarget} (hb : isRegistered cfg b)
    (hc : isRegistered cfg c) (hbc : b ≠ c) :
    List.Disjoint [b.pinDout, b.pinDin, b.pinClk, b.pinSel] [c.pinDout, c.pinDin, c.pinClk, c.pinSel] := by
  obtain ⟨t, ht⟩ := hb
  obtain ⟨u, hu⟩ := hc
  have hp := (Config.wf_iff.1 h).2.1
  have h1 := (List.nodup_flatMap.1 (List.nodup_append.1 hp).1).2
  have h2 : ∀ e ∈ cfg.busReg, ∀ f ∈ cfg.busReg, e ≠ f →
      List.Disjoint [e.2.pinDout, e.2.pinDin, e.2.pinClk, e.2.pinSel] [f.2.pinDout, f.2.pinDin, f.2.pinClk, f.2.pinSel] := by
    intro e he f hf hne
    obtain ⟨i, hi, rfl⟩ := List.getElem_of_mem he
    obtain ⟨j, hj, rfl⟩ := List.getElem_of_mem hf
    rcases Nat.lt_trichotomy i j with hij | rfl | hij
    · exact List.pairwise_iff_getElem.1 h1 i j hi hj hij
    · exact absurd rfl hne
    · exact (List.pairwise_iff_getElem.1 h1 j i hj hi hij).symm
  exact h2 (t, b) ht (u, c) hu fun he => hbc (congrArg Prod.snd he)

/-- The pin of an Output Target belongs to no Bus Target. -/
theorem Config.outPin_ne (h : cfg.wf = true) {b : BusTarget} (hb : isRegistered cfg b) {t : Tag} {o : OutputTarget}
    (ho : (t, o) ∈ cfg.outReg) :
    o.pinOut ≠ b.pinDout ∧ o.pinOut ≠ b.pinDin ∧ o.pinOut ≠ b.pinClk ∧ o.pinOut ≠ b.pinSel := by
  obtain ⟨u, hu⟩ := hb
  have hp := (Config.wf_iff.1 h).2.1
  have h1 := (List.nodup_append.1 hp).2.2
  have key : ∀ p ∈ [b.pinDout, b.pinDin, b.pinClk, b.pinSel], p ≠ o.pinOut := fun p hp =>
    h1 p (List.mem_flatMap.2 ⟨(u, b), hu, hp⟩) o.pinOut (List.mem_map.2 ⟨(t, o), ho, rfl⟩)
  exact ⟨(key _ (by simp)).symm, (key _ (by simp)).symm, (key _ (by simp)).symm, (key _ (by simp)).symm⟩

end Sys2Proof
end

