-- ==== Sys2Proof/Laws/PinMap.lean ====
section
/-! SUPPORT. The laws of the pin map: reading after a write, and the canonical form. -/

namespace Sys2Proof.Machine

variable {α : Type}

@[simp] theorem PinMap.read_nil (p : Pin) : PinMap.read ([] : PinMap α) p = none := rfl

/-- Reading after a write: the value written at its pin, the old value elsewhere. -/
theorem PinMap.read_write (m : PinMap α) (p q : Pin) (v : α) :
    (PinMap.write m p v).read q = if q = p then some v else PinMap.read m q := by
  induction m with
  | nil => rfl
  | cons e m ih =>
    obtain ⟨r, w⟩ := e
    by_cases h1 : p < r
    · simp [PinMap.write, h1, PinMap.read]
    · by_cases h2 : p = r
      · subst h2
        by_cases hq : q = p <;> simp [PinMap.write, PinMap.read, hq]
      · by_cases hq : q = r
        · subst hq
          simp [PinMap.write, h1, h2, PinMap.read, Ne.symm h2]
        · simp [PinMap.write, h1, h2, PinMap.read, hq, ih]

@[simp] theorem PinMap.read_write_same (m : PinMap α) (p : Pin) (v : α) : (PinMap.write m p v).read p = some v := by
  simp [PinMap.read_write]

theorem PinMap.read_write_ne (m : PinMap α) {p q : Pin} (v : α) (h : q ≠ p) :
    (PinMap.write m p v).read q = PinMap.read m q := by
  simp [PinMap.read_write, h]

theorem PinMap.mem_write {m : PinMap α} {p : Pin} {v : α} {e : Pin × α} (h : e ∈ PinMap.write m p v) :
    e = (p, v) ∨ e ∈ m := by
  induction m with
  | nil => simpa [PinMap.write] using h
  | cons a m ih =>
    obtain ⟨r, w⟩ := a
    unfold PinMap.write at h
    split_ifs at h
    · simpa using h
    · rcases List.mem_cons.1 h with h | h <;> simp [h]
    · rcases List.mem_cons.1 h with h | h
      · simp [h]
      · rcases ih h with h | h <;> simp [h]

/-- A write keeps the canonical form. -/
theorem PinMap.wf_write {m : PinMap α} (hm : m.wf) (p : Pin) (v : α) : (PinMap.write m p v).wf := by
  induction m with
  | nil => simp [PinMap.write, PinMap.wf]
  | cons a m ih =>
    obtain ⟨r, w⟩ := a
    obtain ⟨h1, h2⟩ := List.pairwise_cons.1 hm
    unfold PinMap.write
    split_ifs with h3 h4
    · refine List.pairwise_cons.2 ⟨?_, hm⟩
      intro e he
      rcases List.mem_cons.1 he with he | he
      · simpa [he] using h3
      · exact lt_trans h3 (h1 e he)
    · subst h4
      exact List.pairwise_cons.2 ⟨h1, h2⟩
    · refine List.pairwise_cons.2 ⟨?_, ih h2⟩
      intro e he
      rcases PinMap.mem_write he with he | he
      · subst he
        exact Nat.lt_of_le_of_ne (Nat.le_of_not_lt h3) (Ne.symm h4)
      · exact h1 e he

theorem PinMap.mem_clear {m : PinMap α} {p : Pin} {e : Pin × α} (h : e ∈ PinMap.clear m p) : e ∈ m := by
  induction m with
  | nil => exact h
  | cons a m ih =>
    obtain ⟨r, w⟩ := a
    unfold PinMap.clear at h
    split_ifs at h
    · exact List.mem_cons_of_mem _ h
    · rcases List.mem_cons.1 h with h | h
      · simp [h]
      · exact List.mem_cons_of_mem _ (ih h)

/-- A clear keeps the canonical form. -/
theorem PinMap.wf_clear {m : PinMap α} (hm : m.wf) (p : Pin) : (PinMap.clear m p).wf := by
  induction m with
  | nil => exact hm
  | cons a m ih =>
    obtain ⟨r, w⟩ := a
    obtain ⟨h1, h2⟩ := List.pairwise_cons.1 hm
    unfold PinMap.clear
    split_ifs
    · exact h2
    · exact List.pairwise_cons.2 ⟨fun e he => h1 e (PinMap.mem_clear he), ih h2⟩

/-- A pin below every listed pin has no value. -/
theorem PinMap.read_none_of_lt {m : PinMap α} {p : Pin} (h : ∀ e ∈ m, p < e.1) : PinMap.read m p = none := by
  induction m with
  | nil => rfl
  | cons a m ih =>
    obtain ⟨r, w⟩ := a
    have hr : p < r := h (r, w) (by simp)
    simp only [PinMap.read, if_neg (Nat.ne_of_lt hr)]
    exact ih fun e he => h e (List.mem_cons_of_mem _ he)

/-- Reading after a clear of a canonical map: no value at the pin, the old value elsewhere. -/
theorem PinMap.read_clear {m : PinMap α} (hm : m.wf) (p q : Pin) :
    (PinMap.clear m p).read q = if q = p then none else PinMap.read m q := by
  induction m with
  | nil => simp [PinMap.clear]
  | cons a m ih =>
    obtain ⟨r, w⟩ := a
    obtain ⟨h1, h2⟩ := List.pairwise_cons.1 hm
    unfold PinMap.clear
    by_cases hp : p = r
    · subst hp
      rw [if_pos rfl]
      by_cases hq : q = p
      · subst hq
        simpa using PinMap.read_none_of_lt h1
      · simp [PinMap.read, hq]
    · rw [if_neg hp]
      by_cases hq : q = r
      · subst hq
        simp [PinMap.read, Ne.symm hp]
      · simp only [PinMap.read, if_neg hq, ih h2]

/-- Two canonical maps that read alike are the same list. -/
theorem PinMap.ext_of_read {m m' : PinMap α} (hm : m.wf) (hm' : m'.wf) (h : ∀ p, PinMap.read m p = PinMap.read m' p) :
    m = m' := by
  induction m generalizing m' with
  | nil =>
    cases m' with
    | nil => rfl
    | cons a m' => simpa [PinMap.read] using h a.1
  | cons a m ih =>
    obtain ⟨r, w⟩ := a
    obtain ⟨h1, h2⟩ := List.pairwise_cons.1 hm
    cases m' with
    | nil => simpa [PinMap.read] using h r
    | cons a' m' =>
      obtain ⟨r', w'⟩ := a'
      obtain ⟨h1', h2'⟩ := List.pairwise_cons.1 hm'
      have hr : r = r' := by
        rcases Nat.lt_trichotomy r r' with hlt | heq | hgt
        · have hn : PinMap.read m' r = none :=
            PinMap.read_none_of_lt fun e he => Nat.lt_trans hlt (h1' e he)
          simpa [PinMap.read, Nat.ne_of_lt hlt, hn] using h r
        · exact heq
        · have hn : PinMap.read m r' = none :=
            PinMap.read_none_of_lt fun e he => Nat.lt_trans hgt (h1 e he)
          simpa [PinMap.read, Nat.ne_of_lt hgt, hn] using h r'
      subst hr
      have hw : w = w' := by simpa [PinMap.read] using h r
      subst hw
      congr 1
      refine ih h2 h2' fun p => ?_
      by_cases hp : p = r
      · subst hp
        rw [PinMap.read_none_of_lt h1, PinMap.read_none_of_lt h1']
      · simpa [PinMap.read, hp] using h p

/-- Writing the value a canonical map already reads changes nothing. -/
theorem PinMap.write_read_same {m : PinMap α} (hm : m.wf) {p : Pin} {v : α} (h : PinMap.read m p = some v) :
    PinMap.write m p v = m := by
  refine PinMap.ext_of_read (PinMap.wf_write hm p v) hm fun q => ?_
  rw [PinMap.read_write]
  split_ifs with hq
  · subst hq
    exact h.symm
  · rfl

end Sys2Proof.Machine
end

