-- ==== Sys2Proof/Laws/State.lean ====
section
/-! SUPPORT. What every update of the state does to every field, so that no later proof unfolds a record update. -/

namespace Sys2Proof.Machine

variable (s : State)

/-! ### logEvent -/

@[simp] theorem logEvent_cfg (e : Event) : (logEvent e s).cfg = s.cfg := rfl
@[simp] theorem logEvent_x (e : Event) : (logEvent e s).x = s.x := rfl
@[simp] theorem logEvent_dir (e : Event) : (logEvent e s).dir = s.dir := rfl
@[simp] theorem logEvent_line (e : Event) : (logEvent e s).line = s.line := rfl
@[simp] theorem logEvent_seq (e : Event) : (logEvent e s).seq = s.seq := rfl
@[simp] theorem logEvent_buf (e : Event) : (logEvent e s).buf = s.buf := rfl
@[simp] theorem logEvent_tx (e : Event) : (logEvent e s).tx = s.tx := rfl
@[simp] theorem logEvent_rx (e : Event) : (logEvent e s).rx = s.rx := rfl
@[simp] theorem logEvent_inq (e : Event) : (logEvent e s).inq = s.inq := rfl
@[simp] theorem logEvent_outq (e : Event) : (logEvent e s).outq = s.outq := rfl
@[simp] theorem logEvent_trace (e : Event) : (logEvent e s).trace = s.trace ++ [e] := rfl
@[simp] theorem logEvent_calls (e : Event) : (logEvent e s).calls = s.calls := rfl
@[simp] theorem logEvent_ret (e : Event) : (logEvent e s).ret = s.ret := rfl
@[simp] theorem logEvent_din (e : Event) : (logEvent e s).din = s.din := rfl
@[simp] theorem logEvent_samples (e : Event) : (logEvent e s).samples = s.samples := rfl

/-! ### drive -/

@[simp] theorem drive_cfg (p : Pin) (v : Bit) : (drive p v s).cfg = s.cfg := rfl
@[simp] theorem drive_x (p : Pin) (v : Bit) : (drive p v s).x = s.x.write p v := rfl
@[simp] theorem drive_dir (p : Pin) (v : Bit) : (drive p v s).dir = s.dir := rfl
@[simp] theorem drive_line (p : Pin) (v : Bit) : (drive p v s).line = s.line := rfl
@[simp] theorem drive_seq (p : Pin) (v : Bit) : (drive p v s).seq = s.seq := rfl
@[simp] theorem drive_buf (p : Pin) (v : Bit) : (drive p v s).buf = s.buf := rfl
@[simp] theorem drive_tx (p : Pin) (v : Bit) : (drive p v s).tx = s.tx := rfl
@[simp] theorem drive_rx (p : Pin) (v : Bit) : (drive p v s).rx = s.rx := rfl
@[simp] theorem drive_inq (p : Pin) (v : Bit) : (drive p v s).inq = s.inq := rfl
@[simp] theorem drive_outq (p : Pin) (v : Bit) : (drive p v s).outq = s.outq := rfl
@[simp] theorem drive_trace (p : Pin) (v : Bit) : (drive p v s).trace = s.trace ++ [.drv p v] := rfl
@[simp] theorem drive_calls (p : Pin) (v : Bit) : (drive p v s).calls = s.calls := rfl
@[simp] theorem drive_ret (p : Pin) (v : Bit) : (drive p v s).ret = s.ret := rfl
@[simp] theorem drive_din (p : Pin) (v : Bit) : (drive p v s).din = s.din := rfl
@[simp] theorem drive_samples (p : Pin) (v : Bit) : (drive p v s).samples = s.samples := rfl

/-! ### sample -/

@[simp] theorem sample_cfg (p : Pin) : ((sample p s).1).cfg = s.cfg := rfl
@[simp] theorem sample_x (p : Pin) : ((sample p s).1).x = s.x := rfl
@[simp] theorem sample_dir (p : Pin) : ((sample p s).1).dir = s.dir := rfl
@[simp] theorem sample_line (p : Pin) : ((sample p s).1).line = s.line := rfl
@[simp] theorem sample_seq (p : Pin) : ((sample p s).1).seq = s.seq := rfl
@[simp] theorem sample_buf (p : Pin) : ((sample p s).1).buf = s.buf := rfl
@[simp] theorem sample_tx (p : Pin) : ((sample p s).1).tx = s.tx := rfl
@[simp] theorem sample_rx (p : Pin) : ((sample p s).1).rx = s.rx := rfl
@[simp] theorem sample_inq (p : Pin) : ((sample p s).1).inq = s.inq := rfl
@[simp] theorem sample_outq (p : Pin) : ((sample p s).1).outq = s.outq := rfl
@[simp] theorem sample_trace (p : Pin) : ((sample p s).1).trace = s.trace ++ [.smp p (nextAnswer s)] := rfl
@[simp] theorem sample_calls (p : Pin) : ((sample p s).1).calls = s.calls := rfl
@[simp] theorem sample_ret (p : Pin) : ((sample p s).1).ret = s.ret := rfl
@[simp] theorem sample_din (p : Pin) : ((sample p s).1).din = s.din.tail := rfl
@[simp] theorem sample_samples (p : Pin) : ((sample p s).1).samples = s.samples + 1 := rfl

/-! ### waitTicks -/

@[simp] theorem waitTicks_cfg (d : Nat) : (waitTicks d s).cfg = s.cfg := rfl
@[simp] theorem waitTicks_x (d : Nat) : (waitTicks d s).x = s.x := rfl
@[simp] theorem waitTicks_dir (d : Nat) : (waitTicks d s).dir = s.dir := rfl
@[simp] theorem waitTicks_line (d : Nat) : (waitTicks d s).line = s.line := rfl
@[simp] theorem waitTicks_seq (d : Nat) : (waitTicks d s).seq = s.seq := rfl
@[simp] theorem waitTicks_buf (d : Nat) : (waitTicks d s).buf = s.buf := rfl
@[simp] theorem waitTicks_tx (d : Nat) : (waitTicks d s).tx = s.tx := rfl
@[simp] theorem waitTicks_rx (d : Nat) : (waitTicks d s).rx = s.rx := rfl
@[simp] theorem waitTicks_inq (d : Nat) : (waitTicks d s).inq = s.inq := rfl
@[simp] theorem waitTicks_outq (d : Nat) : (waitTicks d s).outq = s.outq := rfl
@[simp] theorem waitTicks_trace (d : Nat) : (waitTicks d s).trace = s.trace ++ [.wt d] := rfl
@[simp] theorem waitTicks_calls (d : Nat) : (waitTicks d s).calls = s.calls := rfl
@[simp] theorem waitTicks_ret (d : Nat) : (waitTicks d s).ret = s.ret := rfl
@[simp] theorem waitTicks_din (d : Nat) : (waitTicks d s).din = s.din := rfl
@[simp] theorem waitTicks_samples (d : Nat) : (waitTicks d s).samples = s.samples := rfl

/-! ### waitMs -/

@[simp] theorem waitMs_cfg (n : Nat) : (waitMs n s).cfg = s.cfg := rfl
@[simp] theorem waitMs_x (n : Nat) : (waitMs n s).x = s.x := rfl
@[simp] theorem waitMs_dir (n : Nat) : (waitMs n s).dir = s.dir := rfl
@[simp] theorem waitMs_line (n : Nat) : (waitMs n s).line = s.line := rfl
@[simp] theorem waitMs_seq (n : Nat) : (waitMs n s).seq = s.seq := rfl
@[simp] theorem waitMs_buf (n : Nat) : (waitMs n s).buf = s.buf := rfl
@[simp] theorem waitMs_tx (n : Nat) : (waitMs n s).tx = s.tx := rfl
@[simp] theorem waitMs_rx (n : Nat) : (waitMs n s).rx = s.rx := rfl
@[simp] theorem waitMs_inq (n : Nat) : (waitMs n s).inq = s.inq := rfl
@[simp] theorem waitMs_outq (n : Nat) : (waitMs n s).outq = s.outq := rfl
@[simp] theorem waitMs_trace (n : Nat) : (waitMs n s).trace = s.trace ++ [.wtMs n] := rfl
@[simp] theorem waitMs_calls (n : Nat) : (waitMs n s).calls = s.calls := rfl
@[simp] theorem waitMs_ret (n : Nat) : (waitMs n s).ret = s.ret := rfl
@[simp] theorem waitMs_din (n : Nat) : (waitMs n s).din = s.din := rfl
@[simp] theorem waitMs_samples (n : Nat) : (waitMs n s).samples = s.samples := rfl

/-! ### rxByte -/

@[simp] theorem rxByte_cfg (c : Byte) : (rxByte c s).cfg = s.cfg := rfl
@[simp] theorem rxByte_x (c : Byte) : (rxByte c s).x = s.x := rfl
@[simp] theorem rxByte_dir (c : Byte) : (rxByte c s).dir = s.dir := rfl
@[simp] theorem rxByte_line (c : Byte) : (rxByte c s).line = s.line := rfl
@[simp] theorem rxByte_seq (c : Byte) : (rxByte c s).seq = s.seq := rfl
@[simp] theorem rxByte_buf (c : Byte) : (rxByte c s).buf = s.buf := rfl
@[simp] theorem rxByte_tx (c : Byte) : (rxByte c s).tx = s.tx := rfl
@[simp] theorem rxByte_rx (c : Byte) : (rxByte c s).rx = s.rx := rfl
@[simp] theorem rxByte_inq (c : Byte) : (rxByte c s).inq = s.inq.tail := rfl
@[simp] theorem rxByte_outq (c : Byte) : (rxByte c s).outq = s.outq := rfl
@[simp] theorem rxByte_trace (c : Byte) : (rxByte c s).trace = s.trace ++ [.rx c] := rfl
@[simp] theorem rxByte_calls (c : Byte) : (rxByte c s).calls = s.calls := rfl
@[simp] theorem rxByte_ret (c : Byte) : (rxByte c s).ret = s.ret := rfl
@[simp] theorem rxByte_din (c : Byte) : (rxByte c s).din = s.din := rfl
@[simp] theorem rxByte_samples (c : Byte) : (rxByte c s).samples = s.samples := rfl

/-! ### txByte -/

@[simp] theorem txByte_cfg (c : Byte) : (txByte c s).cfg = s.cfg := rfl
@[simp] theorem txByte_x (c : Byte) : (txByte c s).x = s.x := rfl
@[simp] theorem txByte_dir (c : Byte) : (txByte c s).dir = s.dir := rfl
@[simp] theorem txByte_line (c : Byte) : (txByte c s).line = s.line := rfl
@[simp] theorem txByte_seq (c : Byte) : (txByte c s).seq = s.seq := rfl
@[simp] theorem txByte_buf (c : Byte) : (txByte c s).buf = s.buf := rfl
@[simp] theorem txByte_tx (c : Byte) : (txByte c s).tx = s.tx := rfl
@[simp] theorem txByte_rx (c : Byte) : (txByte c s).rx = s.rx := rfl
@[simp] theorem txByte_inq (c : Byte) : (txByte c s).inq = s.inq := rfl
@[simp] theorem txByte_outq (c : Byte) : (txByte c s).outq = s.outq ++ [c] := rfl
@[simp] theorem txByte_trace (c : Byte) : (txByte c s).trace = s.trace ++ [.tx c] := rfl
@[simp] theorem txByte_calls (c : Byte) : (txByte c s).calls = s.calls := rfl
@[simp] theorem txByte_ret (c : Byte) : (txByte c s).ret = s.ret := rfl
@[simp] theorem txByte_din (c : Byte) : (txByte c s).din = s.din := rfl
@[simp] theorem txByte_samples (c : Byte) : (txByte c s).samples = s.samples := rfl

/-! ### discardBuf -/

@[simp] theorem discardBuf_cfg : (discardBuf s).cfg = s.cfg := rfl
@[simp] theorem discardBuf_x : (discardBuf s).x = s.x := rfl
@[simp] theorem discardBuf_dir : (discardBuf s).dir = s.dir := rfl
@[simp] theorem discardBuf_line : (discardBuf s).line = s.line := rfl
@[simp] theorem discardBuf_seq : (discardBuf s).seq = s.seq := rfl
@[simp] theorem discardBuf_buf : (discardBuf s).buf = none := rfl
@[simp] theorem discardBuf_tx : (discardBuf s).tx = s.tx := rfl
@[simp] theorem discardBuf_rx : (discardBuf s).rx = s.rx := rfl
@[simp] theorem discardBuf_inq : (discardBuf s).inq = s.inq := rfl
@[simp] theorem discardBuf_outq : (discardBuf s).outq = s.outq := rfl
@[simp] theorem discardBuf_trace : (discardBuf s).trace = s.trace := rfl
@[simp] theorem discardBuf_calls : (discardBuf s).calls = s.calls := rfl
@[simp] theorem discardBuf_ret : (discardBuf s).ret = s.ret := rfl
@[simp] theorem discardBuf_din : (discardBuf s).din = s.din := rfl
@[simp] theorem discardBuf_samples : (discardBuf s).samples = s.samples := rfl

/-! ### doInitBus -/

@[simp] theorem doInitBus_cfg (b : BusTarget) : (doInitBus b s).cfg = s.cfg := rfl
@[simp] theorem doInitBus_x (b : BusTarget) : (doInitBus b s).x = initBusLatches s.cfg.selActive b s.x := rfl
@[simp] theorem doInitBus_dir (b : BusTarget) : (doInitBus b s).dir = initBusDirs b s.dir := rfl
@[simp] theorem doInitBus_line (b : BusTarget) : (doInitBus b s).line = s.line := rfl
@[simp] theorem doInitBus_seq (b : BusTarget) : (doInitBus b s).seq = s.seq := rfl
@[simp] theorem doInitBus_buf (b : BusTarget) : (doInitBus b s).buf = s.buf := rfl
@[simp] theorem doInitBus_tx (b : BusTarget) : (doInitBus b s).tx = s.tx := rfl
@[simp] theorem doInitBus_rx (b : BusTarget) : (doInitBus b s).rx = s.rx := rfl
@[simp] theorem doInitBus_inq (b : BusTarget) : (doInitBus b s).inq = s.inq := rfl
@[simp] theorem doInitBus_outq (b : BusTarget) : (doInitBus b s).outq = s.outq := rfl
@[simp] theorem doInitBus_trace (b : BusTarget) : (doInitBus b s).trace = s.trace := rfl
@[simp] theorem doInitBus_calls (b : BusTarget) : (doInitBus b s).calls = s.calls := rfl
@[simp] theorem doInitBus_ret (b : BusTarget) : (doInitBus b s).ret = s.ret := rfl
@[simp] theorem doInitBus_din (b : BusTarget) : (doInitBus b s).din = s.din := rfl
@[simp] theorem doInitBus_samples (b : BusTarget) : (doInitBus b s).samples = s.samples := rfl

/-! ### doInitOut -/

@[simp] theorem doInitOut_cfg (o : OutputTarget) : (doInitOut o s).cfg = s.cfg := rfl
@[simp] theorem doInitOut_x (o : OutputTarget) : (doInitOut o s).x = s.x.clear o.pinOut := rfl
@[simp] theorem doInitOut_dir (o : OutputTarget) : (doInitOut o s).dir = s.dir.write o.pinOut .output := rfl
@[simp] theorem doInitOut_line (o : OutputTarget) : (doInitOut o s).line = s.line := rfl
@[simp] theorem doInitOut_seq (o : OutputTarget) : (doInitOut o s).seq = s.seq := rfl
@[simp] theorem doInitOut_buf (o : OutputTarget) : (doInitOut o s).buf = s.buf := rfl
@[simp] theorem doInitOut_tx (o : OutputTarget) : (doInitOut o s).tx = s.tx := rfl
@[simp] theorem doInitOut_rx (o : OutputTarget) : (doInitOut o s).rx = s.rx := rfl
@[simp] theorem doInitOut_inq (o : OutputTarget) : (doInitOut o s).inq = s.inq := rfl
@[simp] theorem doInitOut_outq (o : OutputTarget) : (doInitOut o s).outq = s.outq := rfl
@[simp] theorem doInitOut_trace (o : OutputTarget) : (doInitOut o s).trace = s.trace := rfl
@[simp] theorem doInitOut_calls (o : OutputTarget) : (doInitOut o s).calls = s.calls := rfl
@[simp] theorem doInitOut_ret (o : OutputTarget) : (doInitOut o s).ret = s.ret := rfl
@[simp] theorem doInitOut_din (o : OutputTarget) : (doInitOut o s).din = s.din := rfl
@[simp] theorem doInitOut_samples (o : OutputTarget) : (doInitOut o s).samples = s.samples := rfl

/-! ### dropBytes -/

@[simp] theorem dropBytes_cfg : (dropBytes s).cfg = s.cfg := rfl
@[simp] theorem dropBytes_x : (dropBytes s).x = s.x := rfl
@[simp] theorem dropBytes_dir : (dropBytes s).dir = s.dir := rfl
@[simp] theorem dropBytes_line : (dropBytes s).line = s.line := rfl
@[simp] theorem dropBytes_seq : (dropBytes s).seq = s.seq := rfl
@[simp] theorem dropBytes_buf : (dropBytes s).buf = s.buf := rfl
@[simp] theorem dropBytes_tx : (dropBytes s).tx = none := rfl
@[simp] theorem dropBytes_rx : (dropBytes s).rx = none := rfl
@[simp] theorem dropBytes_inq : (dropBytes s).inq = s.inq := rfl
@[simp] theorem dropBytes_outq : (dropBytes s).outq = s.outq := rfl
@[simp] theorem dropBytes_trace : (dropBytes s).trace = s.trace := rfl
@[simp] theorem dropBytes_calls : (dropBytes s).calls = s.calls := rfl
@[simp] theorem dropBytes_ret : (dropBytes s).ret = s.ret := rfl
@[simp] theorem dropBytes_din : (dropBytes s).din = s.din := rfl
@[simp] theorem dropBytes_samples : (dropBytes s).samples = s.samples := rfl

/-! ### setRet -/

@[simp] theorem setRet_cfg (r : Ret) : (setRet r s).cfg = s.cfg := rfl
@[simp] theorem setRet_x (r : Ret) : (setRet r s).x = s.x := rfl
@[simp] theorem setRet_dir (r : Ret) : (setRet r s).dir = s.dir := rfl
@[simp] theorem setRet_line (r : Ret) : (setRet r s).line = s.line := rfl
@[simp] theorem setRet_seq (r : Ret) : (setRet r s).seq = s.seq := rfl
@[simp] theorem setRet_buf (r : Ret) : (setRet r s).buf = s.buf := rfl
@[simp] theorem setRet_tx (r : Ret) : (setRet r s).tx = s.tx := rfl
@[simp] theorem setRet_rx (r : Ret) : (setRet r s).rx = s.rx := rfl
@[simp] theorem setRet_inq (r : Ret) : (setRet r s).inq = s.inq := rfl
@[simp] theorem setRet_outq (r : Ret) : (setRet r s).outq = s.outq := rfl
@[simp] theorem setRet_trace (r : Ret) : (setRet r s).trace = s.trace := rfl
@[simp] theorem setRet_calls (r : Ret) : (setRet r s).calls = s.calls := rfl
@[simp] theorem setRet_ret (r : Ret) : (setRet r s).ret = r := rfl
@[simp] theorem setRet_din (r : Ret) : (setRet r s).din = s.din := rfl
@[simp] theorem setRet_samples (r : Ret) : (setRet r s).samples = s.samples := rfl

/-! ### setSeq -/

@[simp] theorem setSeq_cfg (q : Seq) : (setSeq q s).cfg = s.cfg := rfl
@[simp] theorem setSeq_x (q : Seq) : (setSeq q s).x = s.x := rfl
@[simp] theorem setSeq_dir (q : Seq) : (setSeq q s).dir = s.dir := rfl
@[simp] theorem setSeq_line (q : Seq) : (setSeq q s).line = s.line := rfl
@[simp] theorem setSeq_seq (q : Seq) : (setSeq q s).seq = q := rfl
@[simp] theorem setSeq_buf (q : Seq) : (setSeq q s).buf = s.buf := rfl
@[simp] theorem setSeq_tx (q : Seq) : (setSeq q s).tx = s.tx := rfl
@[simp] theorem setSeq_rx (q : Seq) : (setSeq q s).rx = s.rx := rfl
@[simp] theorem setSeq_inq (q : Seq) : (setSeq q s).inq = s.inq := rfl
@[simp] theorem setSeq_outq (q : Seq) : (setSeq q s).outq = s.outq := rfl
@[simp] theorem setSeq_trace (q : Seq) : (setSeq q s).trace = s.trace := rfl
@[simp] theorem setSeq_calls (q : Seq) : (setSeq q s).calls = s.calls := rfl
@[simp] theorem setSeq_ret (q : Seq) : (setSeq q s).ret = s.ret := rfl
@[simp] theorem setSeq_din (q : Seq) : (setSeq q s).din = s.din := rfl
@[simp] theorem setSeq_samples (q : Seq) : (setSeq q s).samples = s.samples := rfl

@[simp] theorem sample_bit (p : Pin) : (sample p s).2 = nextAnswer s := rfl

/-! ### sendBytes -/

/-- Sending bytes appends them to `outq` and their `Tx` events to the trace, and does nothing else. -/
theorem sendBytes_eq (bs : List Byte) (s : State) :
    sendBytes bs s = { s with outq := s.outq ++ bs, trace := s.trace ++ bs.map .tx } := by
  induction bs generalizing s with
  | nil => simp [sendBytes]
  | cons c cs ih => simp [sendBytes, ih, txByte, logEvent]

@[simp] theorem sendBytes_cfg (bs : List Byte) : (sendBytes bs s).cfg = s.cfg := by rw [sendBytes_eq]
@[simp] theorem sendBytes_x (bs : List Byte) : (sendBytes bs s).x = s.x := by rw [sendBytes_eq]
@[simp] theorem sendBytes_dir (bs : List Byte) : (sendBytes bs s).dir = s.dir := by rw [sendBytes_eq]
@[simp] theorem sendBytes_line (bs : List Byte) : (sendBytes bs s).line = s.line := by rw [sendBytes_eq]
@[simp] theorem sendBytes_seq (bs : List Byte) : (sendBytes bs s).seq = s.seq := by rw [sendBytes_eq]
@[simp] theorem sendBytes_buf (bs : List Byte) : (sendBytes bs s).buf = s.buf := by rw [sendBytes_eq]
@[simp] theorem sendBytes_tx (bs : List Byte) : (sendBytes bs s).tx = s.tx := by rw [sendBytes_eq]
@[simp] theorem sendBytes_rx (bs : List Byte) : (sendBytes bs s).rx = s.rx := by rw [sendBytes_eq]
@[simp] theorem sendBytes_inq (bs : List Byte) : (sendBytes bs s).inq = s.inq := by rw [sendBytes_eq]
@[simp] theorem sendBytes_outq (bs : List Byte) : (sendBytes bs s).outq = s.outq ++ bs := by rw [sendBytes_eq]
@[simp] theorem sendBytes_trace (bs : List Byte) : (sendBytes bs s).trace = s.trace ++ bs.map .tx := by rw [sendBytes_eq]
@[simp] theorem sendBytes_calls (bs : List Byte) : (sendBytes bs s).calls = s.calls := by rw [sendBytes_eq]
@[simp] theorem sendBytes_ret (bs : List Byte) : (sendBytes bs s).ret = s.ret := by rw [sendBytes_eq]
@[simp] theorem sendBytes_din (bs : List Byte) : (sendBytes bs s).din = s.din := by rw [sendBytes_eq]
@[simp] theorem sendBytes_samples (bs : List Byte) : (sendBytes bs s).samples = s.samples := by rw [sendBytes_eq]

end Sys2Proof.Machine
end

