-- ==== Sys2Proof/Laws/Ops.lean ====
section
/-! SUPPORT. One lemma per shared operation that says all it does. -/

namespace Sys2Proof.Machine

variable {s t : State}

/-! ### The conditions every operation shares -/

theorem ready_iff : s.ready = true ↔ s.cfg.wf = true ∧ s.seq = .idle := by simp [State.ready]

theorem whenReady_of_ready (h : s.ready = true) (k : State → Result) : whenReady s k = k s := by
  obtain ⟨h1, h2⟩ := ready_iff.1 h
  simp [whenReady, h1, h2]

theorem onBus_of_ready (h : s.ready = true) {g : Tag} {b : BusTarget} (hb : lookup s.cfg.busReg g = some b)
    (k : BusTarget → State → Result) : onBus g s k = k b s := by
  simp [onBus, whenReady_of_ready h, hb]

theorem onOut_of_ready (h : s.ready = true) {g : Tag} {o : OutputTarget} (ho : lookup s.cfg.outReg g = some o)
    (k : OutputTarget → State → Result) : onOut g s k = k o s := by
  simp [onOut, whenReady_of_ready h, ho]

/-- If an operation answers a next state, the machine was ready. -/
theorem whenReady_next {k : State → Result} (h : whenReady s k = .next t) : s.ready = true ∧ k s = .next t := by
  unfold whenReady at h
  split_ifs at h with h1 h2
  exact ⟨ready_iff.2 ⟨h1, h2⟩, h⟩

theorem onBus_next {g : Tag} {k : BusTarget → State → Result} (h : onBus g s k = .next t) :
    s.ready = true ∧ ∃ b, lookup s.cfg.busReg g = some b ∧ k b s = .next t := by
  obtain ⟨h1, h2⟩ := whenReady_next h
  cases hb : lookup s.cfg.busReg g with
  | none => simp [hb] at h2
  | some b => exact ⟨h1, b, rfl, by simpa [hb] using h2⟩

theorem onOut_next {g : Tag} {k : OutputTarget → State → Result} (h : onOut g s k = .next t) :
    s.ready = true ∧ ∃ o, lookup s.cfg.outReg g = some o ∧ k o s = .next t := by
  obtain ⟨h1, h2⟩ := whenReady_next h
  cases ho : lookup s.cfg.outReg g with
  | none => simp [ho] at h2
  | some o => exact ⟨h1, o, rfl, by simpa [ho] using h2⟩

/-! ### Taking an error -/

/-- An error discards `buf`, sends its lines, and changes nothing else (60_exceptions.md R204). -/
theorem raiseError_eq (d : Diag) (s : State) : raiseError d s = errorState d s := by
  simp [raiseError, returnToService, sendBare, sendComment, sendBytes_eq, errorState, errorLines, discardBuf]

/-! ### The environment's answers -/

@[simp] theorem answerAt_zero (s : State) : answerAt s 0 = nextAnswer s := by
  unfold answerAt nextAnswer
  cases s.din <;> simp

/-- Taking a sample moves on to the next answer. -/
theorem answerAt_succ (s : State) (j : Nat) (u : State) (hd : u.din = s.din.tail) (hs : u.samples = s.samples + 1) :
    answerAt u j = answerAt s (j + 1) := by
  unfold answerAt
  rw [hd, hs, List.getElem?_tail]
  cases s.din[j + 1]? <;> simp [Nat.add_assoc, Nat.add_comm 1 j]

theorem answerAt_add (s : State) (n j : Nat) (u : State) (hd : u.din = s.din.drop n) (hs : u.samples = s.samples + n) :
    answerAt u j = answerAt s (j + n) := by
  unfold answerAt
  rw [hd, hs, List.getElem?_drop, Nat.add_comm n j]
  cases s.din[j + n]? <;> simp [Nat.add_assoc, Nat.add_comm n j]

/-! ### Bits of a byte -/

theorem bitAt_putBit (v : Byte) (k j : Nat) (b : Bit) (hj : j < 8) :
    bitAt (putBit v k b) j = if j = k then b else bitAt v j := by
  unfold bitAt putBit
  cases b <;> by_cases hjk : j = k <;> simp [hj, hjk] <;> omega

theorem Byte.ext_bitAt {v w : Byte} (h : ∀ k, k < 8 → bitAt v k = bitAt w k) : v = w :=
  BitVec.eq_of_getLsbD_eq h

/-! ### Bit-phases -/

/-- The latches after one bit-phase. -/
def phaseLatches (m : Mode) (b : BusTarget) (d : Bit) (x : PinMap Bit) : PinMap Bit :=
  match m with
  | .m0 => ((x.write b.pinDout d).write b.pinClk true).write b.pinClk false
  | .m1 => ((x.write b.pinClk true).write b.pinDout d).write b.pinClk false
  | .m2 => ((x.write b.pinDout d).write b.pinClk false).write b.pinClk true
  | .m3 => ((x.write b.pinClk false).write b.pinDout d).write b.pinClk true
  | .m5 => ((x.write b.pinDout d).write b.pinClk false).write b.pinClk true

/-- All one bit-phase does (40_bus_target.md R107 to R111). -/
theorem doBitPhase_eq (m : Mode) (b : BusTarget) (d : Bit) (s : State) :
    doBitPhase m b d s =
      ({ s with
          x := phaseLatches m b d s.x
          trace := s.trace ++ phaseEvents m b (busHalf b s) d (nextAnswer s)
          din := s.din.tail
          samples := s.samples + 1 }, nextAnswer s) := by
  cases m <;>
    simp [doBitPhase, actions, runActions, act, phaseLatches, phaseEvents, doWaitHalf, waitTicks, drive, sample, logEvent,
      nextAnswer, busHalf]

/-- What the latches read after one bit-phase: data-out at the bit driven, the clock at its idle polarity again. -/
theorem phaseLatches_read (m : Mode) (b : BusTarget) (d : Bit) (x : PinMap Bit) (p : Pin) :
    (phaseLatches m b d x).read p =
      if p = b.pinClk then some (idleLevel m) else if p = b.pinDout then some d else x.read p := by
  cases m <;> simp only [phaseLatches, PinMap.read_write, idleLevel] <;> split_ifs <;> simp_all

theorem phaseLatches_wf (m : Mode) (b : BusTarget) (d : Bit) {x : PinMap Bit} (hx : x.wf) :
    (phaseLatches m b d x).wf := by
  cases m <;> exact PinMap.wf_write (PinMap.wf_write (PinMap.wf_write hx _ _) _ _) _ _

/-! ### Byte exchanges -/

/-- The latches after the bit-phases of bits `n-1` down to 0. -/
def bitsLatches (b : BusTarget) (t : Byte) : Nat → PinMap Bit → PinMap Bit
  | 0, x => x
  | n + 1, x => bitsLatches b t n (phaseLatches b.mode b (bitAt t n) x)

/-- All that the bit-phases of `n` bits do to the state. -/
theorem exchangeBits_state (b : BusTarget) (t : Byte) (n : Nat) (s : State) (r : Byte) :
    (exchangeBits b t n s r).1 =
      { s with
        x := bitsLatches b t n s.x
        trace := s.trace ++ bitsEvents b (busHalf b s) t n (answerAt s)
        din := s.din.drop n
        samples := s.samples + n } := by
  induction n generalizing s r with
  | zero => simp [exchangeBits, bitsLatches, bitsEvents]
  | succ n ih =>
    rw [exchangeBits, doBitPhase_eq, ih]
    simp only [bitsLatches, bitsEvents, answerAt_zero, busHalf, List.append_assoc]
    have ha : ∀ u : State, u.din = s.din.tail → u.samples = s.samples + 1 →
        answerAt u = fun j => answerAt s (j + 1) := fun u hd hs => funext fun j => answerAt_succ s j u hd hs
    rw [ha _ rfl rfl]
    simp [List.drop_tail, Nat.add_assoc, Nat.add_comm 1 n]

/-- The bits assembled by the bit-phases of `n` bits: bit `k` is the answer `n - 1 - k`. -/
theorem exchangeBits_bit (b : BusTarget) (t : Byte) (n : Nat) (s : State) (r : Byte) (k : Nat) (hk : k < 8) :
    bitAt (exchangeBits b t n s r).2 k = if k < n then answerAt s (n - 1 - k) else bitAt r k := by
  induction n generalizing s r with
  | zero => simp [exchangeBits]
  | succ n ih =>
    rw [exchangeBits, doBitPhase_eq, ih, bitAt_putBit _ _ _ _ hk]
    by_cases h1 : k < n
    · rw [if_pos h1, if_pos (by omega), answerAt_succ s _ _ rfl rfl]
      congr 1
      omega
    · by_cases h2 : k = n
      · subst h2
        simp
      · rw [if_neg h1, if_neg h2, if_neg (by omega)]

/-- All that EXCHANGE_BYTE does to the state (R106). -/
theorem doExchange_state (b : BusTarget) (t : Byte) (s : State) :
    (doExchange b t s).1 =
      { s with
        x := bitsLatches b t 8 s.x
        trace := s.trace ++ bitsEvents b (busHalf b s) t 8 (answerAt s)
        din := s.din.drop 8
        samples := s.samples + 8
        tx := none
        rx := none } := by
  simp [doExchange, exchangeBits_state, dropBytes]

/-- The byte EXCHANGE_BYTE returns: the first answer is its bit 7, the eighth its bit 0 (R106, 20_memory.md R50). -/
theorem doExchange_bit (b : BusTarget) (t : Byte) (s : State) (k : Nat) (hk : k < 8) :
    bitAt (doExchange b t s).2 (7 - k) = answerAt s k := by
  rw [doExchange, exchangeBits_bit _ _ _ _ _ _ (by omega), if_pos (by omega)]
  congr 1
  omega

/-- The latches after the exchange of the bytes `out`. -/
def bytesLatches (b : BusTarget) : List Byte → PinMap Bit → PinMap Bit
  | [], x => x
  | t :: ts, x => bytesLatches b ts (bitsLatches b t 8 x)

/-- All that the byte exchanges of a transfer do to the state (R105). -/
theorem exchangeAll_state (b : BusTarget) (out : List Byte) (s : State) :
    (exchangeAll b out s).1 =
      { s with
        x := bytesLatches b out s.x
        trace := s.trace ++ bytesEvents b (busHalf b s) out (answerAt s)
        din := s.din.drop (8 * out.length)
        samples := s.samples + 8 * out.length
        tx := if out.isEmpty then s.tx else none
        rx := if out.isEmpty then s.rx else none } := by
  induction out generalizing s with
  | nil => simp [exchangeAll, bytesLatches, bytesEvents]
  | cons t ts ih =>
    have ha : answerAt (doExchange b t s).1 = fun j => answerAt s (j + 8) :=
      funext fun j => answerAt_add s 8 j _ (by simp [doExchange_state]) (by simp [doExchange_state])
    rw [exchangeAll, ih, ha, doExchange_state]
    simp only [bytesLatches, bytesEvents, busHalf, List.append_assoc]
    simp [List.drop_drop, Nat.mul_add, Nat.add_assoc, Nat.add_comm 8]

/-- The bytes a transfer returns: one for each outbound byte, its bits the answers in order (R105, 20_memory.md R51). -/
theorem exchangeAll_inbound (b : BusTarget) (out : List Byte) (s : State) :
    isInbound (exchangeAll b out s).2 out.length (answerAt s) := by
  induction out generalizing s with
  | nil => simp [exchangeAll, isInbound]
  | cons t ts ih =>
    obtain ⟨h1, h2⟩ := ih (doExchange b t s).1
    refine ⟨by simp [exchangeAll, h1], ?_⟩
    intro i v hv k hk
    cases i with
    | zero =>
      have : (doExchange b t s).2 = v := by simpa [exchangeAll] using hv
      rw [← this, doExchange_bit _ _ _ _ hk]
      simp
    | succ i =>
      rw [h2 i v (by simpa [exchangeAll] using hv) k hk]
      rw [answerAt_add s 8 _ (doExchange b t s).1 (by simp [doExchange_state]) (by simp [doExchange_state])]
      congr 1
      omega

/-- The latches after a whole transfer. -/
def transferLatches (b : BusTarget) (selActive : Bit) (out : List Byte) (x : PinMap Bit) : PinMap Bit :=
  (bytesLatches b out (x.write b.pinSel selActive)).write b.pinSel (!selActive)

/-- All that TRANSFER does to the state (R105). -/
theorem doTransfer_state (b : BusTarget) (out : List Byte) (s : State) :
    (doTransfer b out s).1 =
      { s with
        x := transferLatches b s.cfg.selActive out s.x
        trace := s.trace ++ transferEvents b s.cfg.selActive (busHalf b s) out (answerAt s)
        din := s.din.drop (8 * out.length)
        samples := s.samples + 8 * out.length
        tx := if out.isEmpty then s.tx else none
        rx := if out.isEmpty then s.rx else none } := by
  have ha : answerAt (doSelectAssert b s) = answerAt s := rfl
  simp [doTransfer, exchangeAll_state, doSelectDeassert, doSelectAssert, drive, logEvent, transferLatches,
    transferEvents, busHalf]
  exact congrArg _ ha

/-- The bytes TRANSFER returns (R105). -/
theorem doTransfer_inbound (b : BusTarget) (out : List Byte) (s : State) :
    isInbound (doTransfer b out s).2 out.length (answerAt s) :=
  exchangeAll_inbound b out (doSelectAssert b s)

/-! ### The latches after whole exchanges -/

theorem bitsLatches_read (b : BusTarget) (t : Byte) (n : Nat) (x : PinMap Bit) (p : Pin) :
    (bitsLatches b t (n + 1) x).read p =
      if p = b.pinClk then some (idleLevel b.mode) else if p = b.pinDout then some (bitAt t 0) else x.read p := by
  induction n generalizing x with
  | zero => simp [bitsLatches, phaseLatches_read]
  | succ n ih =>
    rw [bitsLatches, ih, phaseLatches_read]
    split_ifs <;> rfl

/-- After the exchange of at least one byte: the clock at its idle polarity, data-out at bit 0 of the last byte (R115). -/
theorem bytesLatches_read (b : BusTarget) (out : List Byte) (last : Byte) (hlast : out.getLast? = some last)
    (x : PinMap Bit) (p : Pin) :
    (bytesLatches b out x).read p =
      if p = b.pinClk then some (idleLevel b.mode) else if p = b.pinDout then some (bitAt last 0) else x.read p := by
  induction out generalizing x with
  | nil => simp at hlast
  | cons t ts ih =>
    cases ts with
    | nil =>
      simp only [List.getLast?_singleton, Option.some.injEq] at hlast
      subst hlast
      exact bitsLatches_read b t 7 x p
    | cons u us =>
      rw [bytesLatches, ih (by simpa [List.getLast?_cons_cons] using hlast), bitsLatches_read b t 7 x]
      split_ifs <;> rfl

theorem bitsLatches_wf (b : BusTarget) (t : Byte) (n : Nat) {x : PinMap Bit} (hx : x.wf) : (bitsLatches b t n x).wf := by
  induction n generalizing x with
  | zero => exact hx
  | succ n ih => exact ih (phaseLatches_wf _ _ _ hx)

theorem bytesLatches_wf (b : BusTarget) (out : List Byte) {x : PinMap Bit} (hx : x.wf) : (bytesLatches b out x).wf := by
  induction out generalizing x with
  | nil => exact hx
  | cons t ts ih => exact ih (bitsLatches_wf _ _ _ hx)

theorem transferLatches_wf (b : BusTarget) (v : Bit) (out : List Byte) {x : PinMap Bit} (hx : x.wf) :
    (transferLatches b v out x).wf :=
  PinMap.wf_write (bytesLatches_wf b out (PinMap.wf_write hx _ _)) _ _

theorem initBusLatches_wf (v : Bit) (b : BusTarget) {x : PinMap Bit} (hx : x.wf) : (initBusLatches v b x).wf :=
  PinMap.wf_write (PinMap.wf_write (PinMap.wf_write hx _ _) _ _) _ _

theorem initBusDirs_wf (b : BusTarget) {dir : PinMap Dir} (hd : dir.wf) : (initBusDirs b dir).wf :=
  PinMap.wf_write (PinMap.wf_write (PinMap.wf_write (PinMap.wf_write hd _ _) _ _) _ _) _ _

end Sys2Proof.Machine
end

