-- ==== Sys2Proof/Laws/Exec.lean ====
section
/-! SUPPORT. One lemma per instruction: what it leaves on a ready machine; and the inversion: a next state of `exec` is
one of these. -/

namespace Sys2Proof.Machine

variable {s u : State}

theorem exec_cmdD (hs : s.ready = true) (arg : List Byte) :
    exec (.cmdD arg) s = .next (doCmdD arg s) := by
  simp only [exec, execCmdD, whenReady_of_ready hs]

theorem exec_cmdT (hs : s.ready = true) (arg : List Byte) :
    exec (.cmdT arg) s = .next (doCmdT arg s) := by
  simp only [exec, execCmdT, whenReady_of_ready hs]

theorem exec_cmdI (hs : s.ready = true) (arg : List Byte) :
    exec (.cmdI arg) s = .next (doCmdI arg s) := by
  simp only [exec, execCmdI, whenReady_of_ready hs]

theorem exec_cmdComment (hs : s.ready = true) (arg : List Byte) :
    exec (.cmdComment arg) s = .next (s) := by
  simp only [exec, execCmdComment, whenReady_of_ready hs, doCmdComment]

theorem exec_cmdUnknown (hs : s.ready = true) (key : Byte) (rest : List Byte) :
    exec (.cmdUnknown key rest) s = .next (doCmdUnknown s) := by
  simp only [exec, execCmdUnknown, whenReady_of_ready hs]

theorem exec_service (hs : s.ready = true) :
    exec .service s = .next (serviceAll s.inq s) := by
  simp only [exec, execService, whenReady_of_ready hs]

theorem exec_feed (hs : s.ready = true) (c : Byte) :
    exec (.feed c) s = .next (setRet (.line (feedLine c s)) (doFeed c s)) := by
  simp only [exec, execFeed, whenReady_of_ready hs]

theorem exec_dispatch (hs : s.ready = true) (key : Byte) (arg : List Byte) :
    exec (.dispatch (key :: arg)) s = .next (doDispatch key arg s) := by
  simp only [exec, execDispatch, whenReady_of_ready hs]

theorem exec_respBare (hs : s.ready = true) (r : BareCode) :
    exec (.respBare r) s = .next (sendBare r s) := by
  simp only [exec, execRespBare, whenReady_of_ready hs]

theorem exec_respData (hs : s.ready = true) (payload : List Byte) :
    exec (.respData payload) s = .next (sendData payload s) := by
  simp only [exec, execRespData, whenReady_of_ready hs]

theorem exec_respComment (hs : s.ready = true) (text : List Byte) :
    exec (.respComment text) s = .next (sendComment text s) := by
  simp only [exec, execRespComment, whenReady_of_ready hs]

theorem exec_banner (hs : s.ready = true) :
    exec .banner s = .next (sendComment s.cfg.bannerText s) := by
  simp only [exec, execBanner, whenReady_of_ready hs]

theorem exec_bitphaseM0 (hs : s.ready = true) {t : Tag} {b : BusTarget} (hb : lookup s.cfg.busReg t = some b) (d : Bit) :
    exec (.bitphaseM0 t d) s = .next (setRet (.bit (doBitPhase .m0 b d s).2) (doBitPhase .m0 b d s).1) := by
  simp only [exec, execBitphaseM0, onBus_of_ready hs hb, returnBit]

theorem exec_bitphaseM1 (hs : s.ready = true) {t : Tag} {b : BusTarget} (hb : lookup s.cfg.busReg t = some b) (d : Bit) :
    exec (.bitphaseM1 t d) s = .next (setRet (.bit (doBitPhase .m1 b d s).2) (doBitPhase .m1 b d s).1) := by
  simp only [exec, execBitphaseM1, onBus_of_ready hs hb, returnBit]

theorem exec_bitphaseM2 (hs : s.ready = true) {t : Tag} {b : BusTarget} (hb : lookup s.cfg.busReg t = some b) (d : Bit) :
    exec (.bitphaseM2 t d) s = .next (setRet (.bit (doBitPhase .m2 b d s).2) (doBitPhase .m2 b d s).1) := by
  simp only [exec, execBitphaseM2, onBus_of_ready hs hb, returnBit]

theorem exec_bitphaseM3 (hs : s.ready = true) {t : Tag} {b : BusTarget} (hb : lookup s.cfg.busReg t = some b) (d : Bit) :
    exec (.bitphaseM3 t d) s = .next (setRet (.bit (doBitPhase .m3 b d s).2) (doBitPhase .m3 b d s).1) := by
  simp only [exec, execBitphaseM3, onBus_of_ready hs hb, returnBit]

theorem exec_bitphaseM5 (hs : s.ready = true) {t : Tag} {b : BusTarget} (hb : lookup s.cfg.busReg t = some b) (d : Bit) :
    exec (.bitphaseM5 t d) s = .next (setRet (.bit (doBitPhase .m5 b d s).2) (doBitPhase .m5 b d s).1) := by
  simp only [exec, execBitphaseM5, onBus_of_ready hs hb, returnBit]

theorem exec_initBus (hs : s.ready = true) {t : Tag} {b : BusTarget} (hb : lookup s.cfg.busReg t = some b) :
    exec (.initBus t) s = .next (doInitBus b s) := by
  simp only [exec, execInitBus, onBus_of_ready hs hb]

theorem exec_selectAssert (hs : s.ready = true) {t : Tag} {b : BusTarget} (hb : lookup s.cfg.busReg t = some b) :
    exec (.selectAssert t) s = .next (doSelectAssert b s) := by
  simp only [exec, execSelectAssert, onBus_of_ready hs hb]

theorem exec_selectDeassert (hs : s.ready = true) {t : Tag} {b : BusTarget} (hb : lookup s.cfg.busReg t = some b) :
    exec (.selectDeassert t) s = .next (doSelectDeassert b s) := by
  simp only [exec, execSelectDeassert, onBus_of_ready hs hb]

theorem exec_transfer (hs : s.ready = true) {t : Tag} {b : BusTarget} (hb : lookup s.cfg.busReg t = some b) (out : List Byte) (hl : out.length ≤ s.cfg.maxTransferBytes) :
    exec (.transfer t out) s = .next (setRet (.bytes (doTransfer b out s).2) (doTransfer b out s).1) := by
  simp only [exec, execTransfer, onBus_of_ready hs hb, if_pos hl]

theorem exec_exchangeByte (hs : s.ready = true) {t : Tag} {b : BusTarget} (hb : lookup s.cfg.busReg t = some b) (tx : Byte) :
    exec (.exchangeByte t tx) s = .next (setRet (.byte (doExchange b tx s).2) (doExchange b tx s).1) := by
  simp only [exec, execExchangeByte, onBus_of_ready hs hb]

theorem exec_waitHalf (hs : s.ready = true) {t : Tag} {b : BusTarget} (hb : lookup s.cfg.busReg t = some b) :
    exec (.waitHalf t) s = .next (doWaitHalf b s) := by
  simp only [exec, execWaitHalf, onBus_of_ready hs hb]

theorem exec_initOut (hs : s.ready = true) {t : Tag} {o : OutputTarget} (ho : lookup s.cfg.outReg t = some o) :
    exec (.initOut t) s = .next (doInitOut o s) := by
  simp only [exec, execInitOut, onOut_of_ready hs ho]

theorem exec_setOut (hs : s.ready = true) {t : Tag} {o : OutputTarget} (ho : lookup s.cfg.outReg t = some o) (level : Bool) :
    exec (.setOut t level) s = .next (doSet o level s) := by
  simp only [exec, execSetOut, onOut_of_ready hs ho]

/-- `Ran s i u`: the instruction `i` leaves `u` from `s`. -/
inductive Ran (s : State) : Instr → State → Prop
  | cmdD (arg : List Byte) : Ran s (.cmdD arg) (doCmdD arg s)
  | cmdT (arg : List Byte) : Ran s (.cmdT arg) (doCmdT arg s)
  | cmdI (arg : List Byte) : Ran s (.cmdI arg) (doCmdI arg s)
  | cmdComment (arg : List Byte) : Ran s (.cmdComment arg) (s)
  | cmdUnknown (key : Byte) (rest : List Byte) : Ran s (.cmdUnknown key rest) (doCmdUnknown s)
  | service : Ran s .service (serviceAll s.inq s)
  | feed (c : Byte) : Ran s (.feed c) (setRet (.line (feedLine c s)) (doFeed c s))
  | dispatch (key : Byte) (arg : List Byte) : Ran s (.dispatch (key :: arg)) (doDispatch key arg s)
  | respBare (r : BareCode) : Ran s (.respBare r) (sendBare r s)
  | respData (payload : List Byte) : Ran s (.respData payload) (sendData payload s)
  | respComment (text : List Byte) : Ran s (.respComment text) (sendComment text s)
  | banner : Ran s .banner (sendComment s.cfg.bannerText s)
  | bitphaseM0 (t : Tag) (b : BusTarget) (hb : lookup s.cfg.busReg t = some b) (d : Bit) :
      Ran s (.bitphaseM0 t d) (setRet (.bit (doBitPhase .m0 b d s).2) (doBitPhase .m0 b d s).1)
  | bitphaseM1 (t : Tag) (b : BusTarget) (hb : lookup s.cfg.busReg t = some b) (d : Bit) :
      Ran s (.bitphaseM1 t d) (setRet (.bit (doBitPhase .m1 b d s).2) (doBitPhase .m1 b d s).1)
  | bitphaseM2 (t : Tag) (b : BusTarget) (hb : lookup s.cfg.busReg t = some b) (d : Bit) :
      Ran s (.bitphaseM2 t d) (setRet (.bit (doBitPhase .m2 b d s).2) (doBitPhase .m2 b d s).1)
  | bitphaseM3 (t : Tag) (b : BusTarget) (hb : lookup s.cfg.busReg t = some b) (d : Bit) :
      Ran s (.bitphaseM3 t d) (setRet (.bit (doBitPhase .m3 b d s).2) (doBitPhase .m3 b d s).1)
  | bitphaseM5 (t : Tag) (b : BusTarget) (hb : lookup s.cfg.busReg t = some b) (d : Bit) :
      Ran s (.bitphaseM5 t d) (setRet (.bit (doBitPhase .m5 b d s).2) (doBitPhase .m5 b d s).1)
  | initBus (t : Tag) (b : BusTarget) (hb : lookup s.cfg.busReg t = some b) :
      Ran s (.initBus t) (doInitBus b s)
  | selectAssert (t : Tag) (b : BusTarget) (hb : lookup s.cfg.busReg t = some b) :
      Ran s (.selectAssert t) (doSelectAssert b s)
  | selectDeassert (t : Tag) (b : BusTarget) (hb : lookup s.cfg.busReg t = some b) :
      Ran s (.selectDeassert t) (doSelectDeassert b s)
  | transfer (t : Tag) (b : BusTarget) (hb : lookup s.cfg.busReg t = some b) (out : List Byte) (hl : out.length ≤ s.cfg.maxTransferBytes) :
      Ran s (.transfer t out) (setRet (.bytes (doTransfer b out s).2) (doTransfer b out s).1)
  | exchangeByte (t : Tag) (b : BusTarget) (hb : lookup s.cfg.busReg t = some b) (tx : Byte) :
      Ran s (.exchangeByte t tx) (setRet (.byte (doExchange b tx s).2) (doExchange b tx s).1)
  | waitHalf (t : Tag) (b : BusTarget) (hb : lookup s.cfg.busReg t = some b) :
      Ran s (.waitHalf t) (doWaitHalf b s)
  | initOut (t : Tag) (o : OutputTarget) (ho : lookup s.cfg.outReg t = some o) :
      Ran s (.initOut t) (doInitOut o s)
  | setOut (t : Tag) (o : OutputTarget) (ho : lookup s.cfg.outReg t = some o) (level : Bool) :
      Ran s (.setOut t level) (doSet o level s)

/-- If `exec` answers a next state, the machine was ready and the state is the one the instruction leaves. -/
theorem exec_next {i : Instr} (h : exec i s = .next u) : s.ready = true ∧ Ran s i u := by
  cases i with
  | cmdD arg =>
    simp only [exec, execCmdD] at h
    obtain ⟨hs, h⟩ := whenReady_next h
    injection h with h
    subst h
    exact ⟨hs, .cmdD arg⟩
  | cmdT arg =>
    simp only [exec, execCmdT] at h
    obtain ⟨hs, h⟩ := whenReady_next h
    injection h with h
    subst h
    exact ⟨hs, .cmdT arg⟩
  | cmdI arg =>
    simp only [exec, execCmdI] at h
    obtain ⟨hs, h⟩ := whenReady_next h
    injection h with h
    subst h
    exact ⟨hs, .cmdI arg⟩
  | cmdComment arg =>
    simp only [exec, execCmdComment, doCmdComment] at h
    obtain ⟨hs, h⟩ := whenReady_next h
    injection h with h
    subst h
    exact ⟨hs, .cmdComment arg⟩
  | cmdUnknown key rest =>
    simp only [exec, execCmdUnknown] at h
    obtain ⟨hs, h⟩ := whenReady_next h
    injection h with h
    subst h
    exact ⟨hs, .cmdUnknown key rest⟩
  | service =>
    simp only [exec, execService] at h
    obtain ⟨hs, h⟩ := whenReady_next h
    injection h with h
    subst h
    exact ⟨hs, .service⟩
  | feed c =>
    simp only [exec, execFeed] at h
    obtain ⟨hs, h⟩ := whenReady_next h
    injection h with h
    subst h
    exact ⟨hs, .feed c⟩
  | dispatch l =>
    simp only [exec, execDispatch] at h
    obtain ⟨hs, h⟩ := whenReady_next h
    cases l with
    | nil => simp at h
    | cons key arg =>
      injection h with h
      subst h
      exact ⟨hs, .dispatch key arg⟩
  | respBare r =>
    simp only [exec, execRespBare] at h
    obtain ⟨hs, h⟩ := whenReady_next h
    injection h with h
    subst h
    exact ⟨hs, .respBare r⟩
  | respData payload =>
    simp only [exec, execRespData] at h
    obtain ⟨hs, h⟩ := whenReady_next h
    injection h with h
    subst h
    exact ⟨hs, .respData payload⟩
  | respComment text =>
    simp only [exec, execRespComment] at h
    obtain ⟨hs, h⟩ := whenReady_next h
    injection h with h
    subst h
    exact ⟨hs, .respComment text⟩
  | banner =>
    simp only [exec, execBanner] at h
    obtain ⟨hs, h⟩ := whenReady_next h
    injection h with h
    subst h
    exact ⟨hs, .banner⟩
  | bitphaseM0 t d =>
    simp only [exec, execBitphaseM0, returnBit] at h
    obtain ⟨hs, b, hb, h⟩ := onBus_next h
    injection h with h
    subst h
    exact ⟨hs, .bitphaseM0 t b hb d⟩
  | bitphaseM1 t d =>
    simp only [exec, execBitphaseM1, returnBit] at h
    obtain ⟨hs, b, hb, h⟩ := onBus_next h
    injection h with h
    subst h
    exact ⟨hs, .bitphaseM1 t b hb d⟩
  | bitphaseM2 t d =>
    simp only [exec, execBitphaseM2, returnBit] at h
    obtain ⟨hs, b, hb, h⟩ := onBus_next h
    injection h with h
    subst h
    exact ⟨hs, .bitphaseM2 t b hb d⟩
  | bitphaseM3 t d =>
    simp only [exec, execBitphaseM3, returnBit] at h
    obtain ⟨hs, b, hb, h⟩ := onBus_next h
    injection h with h
    subst h
    exact ⟨hs, .bitphaseM3 t b hb d⟩
  | bitphaseM5 t d =>
    simp only [exec, execBitphaseM5, returnBit] at h
    obtain ⟨hs, b, hb, h⟩ := onBus_next h
    injection h with h
    subst h
    exact ⟨hs, .bitphaseM5 t b hb d⟩
  | initBus t =>
    simp only [exec, execInitBus] at h
    obtain ⟨hs, b, hb, h⟩ := onBus_next h
    injection h with h
    subst h
    exact ⟨hs, .initBus t b hb⟩
  | selectAssert t =>
    simp only [exec, execSelectAssert] at h
    obtain ⟨hs, b, hb, h⟩ := onBus_next h
    injection h with h
    subst h
    exact ⟨hs, .selectAssert t b hb⟩
  | selectDeassert t =>
    simp only [exec, execSelectDeassert] at h
    obtain ⟨hs, b, hb, h⟩ := onBus_next h
    injection h with h
    subst h
    exact ⟨hs, .selectDeassert t b hb⟩
  | transfer t out =>
    simp only [exec, execTransfer] at h
    obtain ⟨hs, b, hb, h⟩ := onBus_next h
    split_ifs at h with hl
    injection h with h
    subst h
    exact ⟨hs, .transfer t b hb out hl⟩
  | exchangeByte t tx =>
    simp only [exec, execExchangeByte] at h
    obtain ⟨hs, b, hb, h⟩ := onBus_next h
    injection h with h
    subst h
    exact ⟨hs, .exchangeByte t b hb tx⟩
  | waitHalf t =>
    simp only [exec, execWaitHalf] at h
    obtain ⟨hs, b, hb, h⟩ := onBus_next h
    injection h with h
    subst h
    exact ⟨hs, .waitHalf t b hb⟩
  | initOut t =>
    simp only [exec, execInitOut] at h
    obtain ⟨hs, o, ho, h⟩ := onOut_next h
    injection h with h
    subst h
    exact ⟨hs, .initOut t o ho⟩
  | setOut t level =>
    simp only [exec, execSetOut] at h
    obtain ⟨hs, o, ho, h⟩ := onOut_next h
    injection h with h
    subst h
    exact ⟨hs, .setOut t o ho level⟩

end Sys2Proof.Machine
end

