-- ==== Sys2Proof/Laws/Trace.lean ====
section
/-! SUPPORT. Every operation only adds events to the trace, and `inq`, `outq` and the latches are what those events say:
proved once, operation by operation. -/

namespace Sys2Proof.Machine

variable {s t u : State}

/-! ### Events one after another -/

theorem levelAfter_append (p : Pin) (v : Option Bit) (es fs : List Event) :
    levelAfter p v (es ++ fs) = levelAfter p (levelAfter p v es) fs := by
  induction es generalizing v with
  | nil => rfl
  | cons e es ih => cases e <;> simp [levelAfter, ih]

theorem sentBytes_append (es fs : List Event) : sentBytes (es ++ fs) = sentBytes es ++ sentBytes fs := by
  induction es with
  | nil => rfl
  | cons e es ih => cases e <;> simp [sentBytes, ih]

theorem readBytes_append (es fs : List Event) : readBytes (es ++ fs) = readBytes es ++ readBytes fs := by
  induction es with
  | nil => rfl
  | cons e es ih => cases e <;> simp [readBytes, ih]

theorem minTicks_append (es fs : List Event) : minTicks (es ++ fs) = minTicks es + minTicks fs := by
  induction es with
  | nil => simp [minTicks]
  | cons e es ih => cases e <;> simp [minTicks, ih, Nat.add_assoc]

@[simp] theorem sentBytes_tx (bs : List Byte) : sentBytes (bs.map .tx) = bs := by
  induction bs with
  | nil => rfl
  | cons b bs ih => simp [sentBytes, ih]

@[simp] theorem readBytes_tx (bs : List Byte) : readBytes (bs.map .tx) = [] := by
  induction bs with
  | nil => rfl
  | cons b bs ih => simp [readBytes, ih]

@[simp] theorem levelAfter_tx (p : Pin) (v : Option Bit) (bs : List Byte) : levelAfter p v (bs.map .tx) = v := by
  induction bs with
  | nil => rfl
  | cons b bs ih => simp [levelAfter, ih]

@[simp] theorem sentBytes_phaseEvents (m : Mode) (b : BusTarget) (h : Nat) (d v : Bit) :
    sentBytes (phaseEvents m b h d v) = [] := by cases m <;> rfl

@[simp] theorem sentBytes_bitsEvents (b : BusTarget) (h : Nat) (t : Byte) (n : Nat) (a : Nat → Bit) :
    sentBytes (bitsEvents b h t n a) = [] := by
  induction n generalizing a with
  | zero => rfl
  | succ n ih => simp [bitsEvents, sentBytes_append, ih]

@[simp] theorem sentBytes_bytesEvents (b : BusTarget) (h : Nat) (out : List Byte) (a : Nat → Bit) :
    sentBytes (bytesEvents b h out a) = [] := by
  induction out generalizing a with
  | nil => rfl
  | cons t ts ih => simp [bytesEvents, sentBytes_append, ih]

@[simp] theorem sentBytes_transferEvents (b : BusTarget) (sel : Bit) (h : Nat) (out : List Byte) (a : Nat → Bit) :
    sentBytes (transferEvents b sel h out a) = [] := by
  simp [transferEvents, sentBytes, sentBytes_append]

/-! ### With `DEBUG` on and off -/

theorem DebugTraces.refl {cfg : Config} {i : Instr} : ∀ es : List Event, DebugTraces cfg i es es
  | [] => .nil
  | e :: es => .same e (DebugTraces.refl es)

theorem DebugTraces.append {cfg : Config} {i : Instr} {es fs es' fs' : List Event} (h : DebugTraces cfg i es fs)
    (k : DebugTraces cfg i es' fs') : DebugTraces cfg i (es ++ es') (fs ++ fs') := by
  induction h with
  | nil => exact k
  | same e _ ih => exact .same e ih
  | error d _ ih => simpa using DebugTraces.error d ih
  | comment text ht _ ih => simpa using DebugTraces.comment text ht ih

/-! ### The relation -/

/-- From `s` to `u` the events `evs` were added, and the configuration, the streams and the latches are as they say. -/
structure Logged (s u : State) (evs : List Event) : Prop where
  cfg : u.cfg = s.cfg
  trace : u.trace = s.trace ++ evs
  inq : s.inq = readBytes evs ++ u.inq
  outq : u.outq = s.outq ++ sentBytes evs
  latch : ∀ p, u.x.read p = levelAfter p (s.x.read p) evs

/-- Some events were added. -/
def Extends (s u : State) : Prop := ∃ evs, Logged s u evs

theorem Extends.of_eq (hc : u.cfg = s.cfg) (ht : u.trace = s.trace) (hi : u.inq = s.inq) (ho : u.outq = s.outq)
    (hx : u.x = s.x) : Extends s u :=
  ⟨[], hc, by simp [ht], by simp [readBytes, hi], by simp [sentBytes, ho], by simp [levelAfter, hx]⟩

theorem Extends.refl (s : State) : Extends s s := .of_eq rfl rfl rfl rfl rfl

theorem Extends.trans (h : Extends s t) (k : Extends t u) : Extends s u := by
  obtain ⟨es, h⟩ := h
  obtain ⟨fs, k⟩ := k
  refine ⟨es ++ fs, k.cfg.trans h.cfg, ?_, ?_, ?_, ?_⟩
  · rw [k.trace, h.trace, List.append_assoc]
  · rw [readBytes_append, h.inq, k.inq, List.append_assoc]
  · rw [sentBytes_append, k.outq, h.outq, List.append_assoc]
  · intro p
    rw [levelAfter_append, k.latch, h.latch]

/-! ### The operations -/

theorem drive_extends (p : Pin) (v : Bit) (s : State) : Extends s (drive p v s) :=
  ⟨[.drv p v], rfl, rfl, rfl, by simp [sentBytes], by simp [levelAfter, PinMap.read_write, eq_comm]⟩

theorem waitTicks_extends (d : Nat) (s : State) : Extends s (waitTicks d s) :=
  ⟨[.wt d], rfl, rfl, rfl, by simp [sentBytes], by simp [levelAfter]⟩

theorem waitMs_extends (n : Nat) (s : State) : Extends s (waitMs n s) :=
  ⟨[.wtMs n], rfl, rfl, rfl, by simp [sentBytes], by simp [levelAfter]⟩

theorem sample_extends (p : Pin) (s : State) : Extends s (sample p s).1 :=
  ⟨[.smp p (nextAnswer s)], rfl, rfl, rfl, by simp [sentBytes, sample, logEvent], by simp [levelAfter]⟩

theorem rxByte_extends {c : Byte} {rest : List Byte} (h : s.inq = c :: rest) : Extends s (rxByte c s) :=
  ⟨[.rx c], rfl, rfl, by simp [readBytes, h], by simp [sentBytes], by simp [levelAfter]⟩

theorem sendBytes_extends (bs : List Byte) (s : State) : Extends s (sendBytes bs s) :=
  ⟨bs.map .tx, by simp, by simp, by simp, by simp, by simp⟩

theorem sendBare_extends (r : BareCode) (s : State) : Extends s (sendBare r s) := sendBytes_extends _ s

theorem sendData_extends (payload : List Byte) (s : State) : Extends s (sendData payload s) := sendBytes_extends _ s

theorem sendComment_extends (text : List Byte) (s : State) : Extends s (sendComment text s) := sendBytes_extends _ s

theorem act_extends (b : BusTarget) (d : Bit) (a : Action) (s : State) : Extends s (act b d a s).1 := by
  cases a
  · exact drive_extends _ _ s
  · exact waitTicks_extends _ s
  · exact sample_extends _ s
  · exact drive_extends _ _ s
  · exact drive_extends _ _ s

theorem runActions_extends (b : BusTarget) (d : Bit) (as : List Action) (s : State) (v : Bit) :
    Extends s (runActions b d as s v).1 := by
  induction as generalizing s v with
  | nil => exact .refl s
  | cons a as ih => exact (act_extends b d a s).trans (ih _ _)

theorem doBitPhase_extends (m : Mode) (b : BusTarget) (d : Bit) (s : State) : Extends s (doBitPhase m b d s).1 :=
  runActions_extends _ _ _ _ _

theorem exchangeBits_extends (b : BusTarget) (t : Byte) (n : Nat) (s : State) (r : Byte) :
    Extends s (exchangeBits b t n s r).1 := by
  induction n generalizing s r with
  | zero => exact .refl s
  | succ n ih => exact (doBitPhase_extends _ _ _ s).trans (ih _ _)

theorem doExchange_extends (b : BusTarget) (t : Byte) (s : State) : Extends s (doExchange b t s).1 :=
  (exchangeBits_extends b t 8 s 0#8).trans (.of_eq rfl rfl rfl rfl rfl)

theorem exchangeAll_extends (b : BusTarget) (out : List Byte) (s : State) : Extends s (exchangeAll b out s).1 := by
  induction out generalizing s with
  | nil => exact .refl s
  | cons t ts ih => exact (doExchange_extends b t s).trans (ih _)

theorem doTransfer_extends (b : BusTarget) (out : List Byte) (s : State) : Extends s (doTransfer b out s).1 :=
  (drive_extends _ _ s).trans ((exchangeAll_extends b out _).trans (drive_extends _ _ _))

theorem raiseError_extends (d : Diag) (s : State) : Extends s (raiseError d s) :=
  (Extends.of_eq (s := s) (u := discardBuf s) rfl rfl rfl rfl rfl).trans
    ((sendComment_extends _ _).trans (sendBare_extends _ _))

theorem doCmdD_extends (arg : List Byte) (s : State) : Extends s (doCmdD arg s) := by
  unfold doCmdD
  split
  · exact raiseError_extends _ s
  · exact (waitMs_extends _ s).trans (sendBare_extends _ _)

theorem doCmdT_extends (arg : List Byte) (s : State) : Extends s (doCmdT arg s) := by
  unfold doCmdT
  split
  · exact raiseError_extends _ s
  · exact (doTransfer_extends _ _ s).trans ((sendData_extends _ _).trans (.of_eq rfl rfl rfl rfl rfl))

theorem doCmdI_extends (arg : List Byte) (s : State) : Extends s (doCmdI arg s) := by
  unfold doCmdI
  split
  · exact raiseError_extends _ s
  · exact drive_extends _ _ s

theorem doDispatch_extends (key : Byte) (arg : List Byte) (s : State) : Extends s (doDispatch key arg s) := by
  unfold doDispatch
  split
  · exact doCmdD_extends arg s
  · exact doCmdT_extends arg s
  · exact doCmdI_extends arg s
  · exact .refl s
  · exact raiseError_extends _ s

theorem runLine_extends (l : Option (List Byte)) (s : State) : Extends s (runLine l s) := by
  unfold runLine
  split
  · exact .refl s
  · exact .refl s
  · exact doDispatch_extends _ _ s

theorem doFeed_extends (c : Byte) (s : State) : Extends s (doFeed c s) := by
  unfold doFeed
  split_ifs
  · exact .of_eq rfl rfl rfl rfl rfl
  · exact .of_eq rfl rfl rfl rfl rfl
  · exact .refl s

theorem serviceByte_extends {c : Byte} {rest : List Byte} (h : s.inq = c :: rest) : Extends s (serviceByte c s) :=
  (rxByte_extends h).trans ((doFeed_extends c _).trans (runLine_extends _ _))

end Sys2Proof.Machine
end

