-- ==== Sys2Proof/Laws/Lines.lean ====
section
/-! SUPPORT. What the command lines, the Line Framer and the service routine leave unchanged, and what the service
routine does with a run of bytes. -/

namespace Sys2Proof.Machine

variable {s : State}

/-! ### What a command line leaves unchanged -/

/-- The fields no command line touches, and the payload buffer and the transient bytes, which are gone or as before. -/
structure LineFrame (s u : State) : Prop where
  cfg : u.cfg = s.cfg
  dir : u.dir = s.dir
  line : u.line = s.line
  seq : u.seq = s.seq
  inq : u.inq = s.inq
  calls : u.calls = s.calls
  ret : u.ret = s.ret
  buf : u.buf = s.buf ∨ u.buf = none
  tx : u.tx = s.tx ∨ u.tx = none
  rx : u.rx = s.rx ∨ u.rx = none

theorem LineFrame.refl (s : State) : LineFrame s s := ⟨rfl, rfl, rfl, rfl, rfl, rfl, rfl, .inl rfl, .inl rfl, .inl rfl⟩

theorem raiseError_frame (d : Diag) (s : State) : LineFrame s (raiseError d s) := by
  rw [raiseError_eq]
  exact ⟨rfl, rfl, rfl, rfl, rfl, rfl, rfl, .inr rfl, .inl rfl, .inl rfl⟩

theorem doCmdD_frame (arg : List Byte) (s : State) : LineFrame s (doCmdD arg s) := by
  unfold doCmdD
  split
  · exact raiseError_frame _ s
  · constructor <;> simp [sendBare]

theorem doCmdT_frame (arg : List Byte) (s : State) : LineFrame s (doCmdT arg s) := by
  unfold doCmdT
  split
  · exact raiseError_frame _ s
  · rename_i b out _
    constructor <;> simp [sendData, doTransfer_state]
    · cases out <;> simp
    · cases out <;> simp

theorem doCmdI_frame (arg : List Byte) (s : State) : LineFrame s (doCmdI arg s) := by
  unfold doCmdI
  split
  · exact raiseError_frame _ s
  · constructor <;> simp [doSet]

theorem doDispatch_frame (key : Byte) (arg : List Byte) (s : State) : LineFrame s (doDispatch key arg s) := by
  unfold doDispatch
  split
  · exact doCmdD_frame arg s
  · exact doCmdT_frame arg s
  · exact doCmdI_frame arg s
  · exact .refl s
  · exact raiseError_frame _ s

theorem runLine_frame (l : Option (List Byte)) (s : State) : LineFrame s (runLine l s) := by
  unfold runLine
  split
  · exact .refl s
  · exact .refl s
  · exact doDispatch_frame _ _ s

/-- A line that raises an error leaves the error's state (60_exceptions.md R204). -/
theorem doDispatch_of_error {key : Byte} {arg : List Byte} {d : Diag} (h : lineError s.cfg (key :: arg) = some d) :
    doDispatch key arg s = errorState d s := by
  rw [← raiseError_eq]
  unfold lineError at h
  unfold doDispatch
  cases hk : keyOf key <;> simp only [hk] at h ⊢
  · unfold doCmdD
    cases hp : parseDelay s.cfg.delayWidth arg <;> simp_all
  · unfold doCmdT
    cases hp : parseTransfer s.cfg arg <;> simp_all
  · unfold doCmdI
    cases hp : parseOutput s.cfg arg <;> simp_all
  · simp at h
  · simp only [Option.some.injEq] at h
    subst h
    rfl

/-! ### Bytes -/

theorem isTerminator_iff {c : Byte} : isTerminator c = true ↔ c = 0x0A#8 ∨ c = 0x0D#8 := by simp [isTerminator]

theorem isTerminator_false_iff {c : Byte} : isTerminator c = false ↔ c ≠ 0x0A#8 ∧ c ≠ 0x0D#8 := by simp [isTerminator]

/-- FEED of a terminator: the accumulator is empty after it. -/
theorem doFeed_terminator {c : Byte} (h : isTerminator c = true) : doFeed c s = { s with line := [] } := by
  simp [doFeed, h]

/-- FEED of a content byte, with an accumulator within its capacity: appended, and cut to the capacity. -/
theorem doFeed_content {c : Byte} (h : isTerminator c = false) (hl : s.line.length ≤ lineCap s.cfg) :
    doFeed c s = { s with line := (s.line ++ [c]).take (lineCap s.cfg) } := by
  by_cases hlt : s.line.length < lineCap s.cfg
  · simp [doFeed, h, hlt, List.take_of_length_le (l := s.line ++ [c]) (i := lineCap s.cfg) (by simp; omega)]
  · have : lineCap s.cfg = s.line.length := by omega
    simp [doFeed, h, this]

theorem serviceByte_seq (c : Byte) (s : State) : (serviceByte c s).seq = s.seq := by
  have h := (runLine_frame (feedLine c (rxByte c s)) (doFeed c (rxByte c s))).seq
  rw [serviceByte, h]
  unfold doFeed
  split_ifs <;> rfl

theorem serviceByte_inq (c : Byte) (s : State) : (serviceByte c s).inq = s.inq.tail := by
  have h := (runLine_frame (feedLine c (rxByte c s)) (doFeed c (rxByte c s))).inq
  rw [serviceByte, h]
  unfold doFeed
  split_ifs <;> rfl

theorem serviceAll_append (as bs : List Byte) (s : State) : serviceAll (as ++ bs) s = serviceAll bs (serviceAll as s) := by
  induction as generalizing s with
  | nil => rfl
  | cons a as ih => exact ih _

theorem serviceAll_seq (cs : List Byte) (s : State) : (serviceAll cs s).seq = s.seq := by
  induction cs generalizing s with
  | nil => rfl
  | cons c cs ih => exact (ih _).trans (serviceByte_seq c s)

/-- SERVICE's loop over bytes at the front of `inq`: it reads them all. -/
theorem serviceAll_inq {cs rest : List Byte} {s : State} (h : s.inq = cs ++ rest) : (serviceAll cs s).inq = rest := by
  induction cs generalizing s with
  | nil => exact h
  | cons c cs ih => exact ih (by rw [serviceByte_inq, h]; rfl)

theorem serviceAll_extends {cs rest : List Byte} {s : State} (h : s.inq = cs ++ rest) : Extends s (serviceAll cs s) := by
  induction cs generalizing s with
  | nil => exact .refl s
  | cons c cs ih => exact (serviceByte_extends h).trans (ih (by rw [serviceByte_inq, h]; rfl))

/-- Content bytes only fill the accumulator, up to its capacity (42_command_front_end.md R152). -/
theorem serviceAll_content {bs rest : List Byte} {s : State} (hc : ∀ e ∈ bs, isTerminator e = false)
    (hl : s.line.length ≤ lineCap s.cfg) (hi : s.inq = bs ++ rest) :
    serviceAll bs s =
      { s with inq := rest, trace := s.trace ++ bs.map .rx, line := (s.line ++ bs).take (lineCap s.cfg) } := by
  induction bs generalizing s with
  | nil =>
    have : s.inq = rest := hi
    simp [serviceAll, List.take_of_length_le hl, ← this]
  | cons c cs ih =>
    have ht : isTerminator c = false := hc c (by simp)
    have hb : serviceByte c s =
        { s with inq := cs ++ rest, trace := s.trace ++ [.rx c], line := (s.line ++ [c]).take (lineCap s.cfg) } := by
      rw [serviceByte, doFeed_content (s := rxByte c s) ht hl]
      simp [feedLine, ht, runLine, rxByte, logEvent, hi]
    rw [serviceAll, hb, ih (fun e he => hc e (by simp [he])) (by simp) rfl]
    by_cases hlt : s.line.length < lineCap s.cfg
    · rw [List.take_of_length_le (l := s.line ++ [c]) (by simp; omega)]
      simp
    · have : lineCap s.cfg = s.line.length := by omega
      simp [this]

/-! ### The lines a stream of bytes delivers -/

@[simp] theorem linesOf_nil (cap : Nat) (acc : List Byte) : linesOf cap acc [] = [] := rfl

theorem linesOf_content {cap : Nat} {acc cs : List Byte} {c : Byte} (h : isTerminator c = false) :
    linesOf cap acc (c :: cs) = linesOf cap (if acc.length < cap then acc ++ [c] else acc) cs := by
  simp [linesOf, h]

theorem linesOf_terminator {cap : Nat} {acc cs : List Byte} {c : Byte} (h : isTerminator c = true) :
    linesOf cap acc (c :: cs) = (if acc = [] then [] else [acc]) ++ linesOf cap [] cs := by
  cases acc <;> simp [linesOf, h]

/-- All that SERVICE's loop does to the state is to read a byte, to set the accumulator, and to dispatch a line that the
Line Framer delivers: what these three keep, it keeps (42_command_front_end.md R150). -/
theorem serviceAll_keeps {P : State → Prop} (hbyte : ∀ u c l, P u → P { rxByte c u with line := l }) (cs : List Byte)
    (s : State) (h : P s)
    (hline : ∀ key arg u, key :: arg ∈ linesOf (lineCap s.cfg) s.line cs → P u → P (doDispatch key arg u)) :
    P (serviceAll cs s) := by
  induction cs generalizing s with
  | nil => exact h
  | cons c cs ih =>
    by_cases ht : isTerminator c = true
    · rw [linesOf_terminator ht] at hline
      have hf : doFeed c (rxByte c s) = { rxByte c s with line := [] } := doFeed_terminator ht
      have hb : P (serviceByte c s) := by
        rw [serviceByte, hf]
        cases hl : s.line with
        | nil => simpa [feedLine, ht, rxByte, logEvent, hl, runLine] using hbyte s c [] h
        | cons key arg =>
          simpa [feedLine, ht, rxByte, logEvent, hl, runLine] using
            hline key arg _ (by simp [hl]) (hbyte s c [] h)
      have hfr := runLine_frame (feedLine c (rxByte c s)) (doFeed c (rxByte c s))
      refine ih (serviceByte c s) hb fun key arg u hm hu => hline key arg u (List.mem_append_right _ ?_) hu
      rw [serviceByte, hfr.cfg, hfr.line, hf] at hm
      exact hm
    · have ht : isTerminator c = false := by simpa using ht
      rw [linesOf_content ht] at hline
      have hs : serviceByte c s =
          { rxByte c s with line := if s.line.length < lineCap s.cfg then s.line ++ [c] else s.line } := by
        by_cases hlt : s.line.length < lineCap s.cfg <;>
          simp [serviceByte, feedLine, doFeed, ht, runLine, rxByte, logEvent, hlt]
      rw [serviceAll, hs]
      exact ih _ (hbyte s c _ h) hline

end Sys2Proof.Machine
end

