-- ==== Sys2Proof/Laws/Parse.lean ====
section
/-! SUPPORT. What the parsers of the command lines answer (30_encoding.md R77, R78; 42_command_front_end.md R155, R157). -/

namespace Sys2Proof.Machine

/-! ### The decimal argument -/

/-- Reducing at every digit is reducing at the end. -/
theorem parseDigits_ok (width : Nat) (arg : List Byte) (v : Nat) (h : ∀ c ∈ arg, isDigit c = true) (hv : v < 2 ^ width) :
    parseDigits width v arg = .ok (arg.foldl (fun v c => v * 10 + (c.toNat - 0x30)) v % 2 ^ width) := by
  have key : ∀ w, parseDigits width (w % 2 ^ width) arg =
      .ok (arg.foldl (fun v c => v * 10 + (c.toNat - 0x30)) w % 2 ^ width) := by
    clear hv
    induction arg with
    | nil => intro w; rfl
    | cons c cs ih =>
      intro w
      rw [parseDigits, h c (by simp), if_pos rfl, List.foldl_cons, ← ih (fun c hc => h c (by simp [hc]))]
      congr 1
      simp [Nat.add_mod, Nat.mul_mod]
  rw [← key, Nat.mod_eq_of_lt hv]

theorem parseDigits_bad (width : Nat) (arg : List Byte) (v : Nat) (h : ∃ c ∈ arg, isDigit c = false) :
    parseDigits width v arg = .error .badDigit := by
  induction arg generalizing v with
  | nil => simp at h
  | cons c cs ih =>
    rw [parseDigits]
    by_cases hc : isDigit c = true
    · rw [if_pos hc]
      apply ih
      obtain ⟨e, he, h⟩ := h
      rcases List.mem_cons.1 he with rfl | he
      · simp_all
      · exact ⟨e, he, h⟩
    · rw [if_neg hc]

/-! ### The hex pairs -/

theorem hexval_lt {c : Byte} {v : Nat} (h : hexval c = some v) : v < 16 := by
  unfold hexval at h
  simp only at h
  split_ifs at h <;> simp only [Option.some.injEq] at h <;> omega

/-- Encoding then decoding a nibble. -/
theorem hexval_lowHex {v : Nat} (h : v < 16) : hexval (lowHex v) = some v := by
  have key : ∀ w : Fin 16, hexval (lowHex w) = some w.val := by decide
  exact key ⟨v, h⟩

theorem hexByte_eq {h l : Nat} (hl : l < 16) : hexByte h l = BitVec.ofNat 8 (16 * h + l) := by
  have := Nat.two_pow_add_eq_or_of_lt (i := 4) (b := l) (by simpa using hl) h
  rw [hexByte, Nat.shiftLeft_eq, Nat.mul_comm h, ← this]

/-- Pairs of hex digits within the bound. -/
theorem parsePairs_ok {max : Nat} {pairs : List (Byte × Byte)} {out : List Byte}
    (h : List.Forall₂ (fun p v => ∃ high low, hexval p.1 = some high ∧ hexval p.2 = some low ∧
      v = BitVec.ofNat 8 (16 * high + low)) pairs out) (n : Nat) (hn : n + out.length ≤ max) :
    parsePairs max n (pairs.flatMap fun p => [p.1, p.2]) = .ok out := by
  induction h generalizing n with
  | nil => rfl
  | @cons p v ps vs hp _ ih =>
    rw [List.length_cons] at hn
    obtain ⟨high, low, h1, h2, h3⟩ := hp
    simp only [List.flatMap_cons, List.cons_append, List.nil_append, parsePairs]
    rw [if_neg (by omega), h1, h2]
    simp only [ih (n + 1) (by omega), hexByte_eq (hexval_lt h2), h3]

/-- A well-formed prefix of pairs hands the error of what follows it on. -/
theorem parsePairs_error {max : Nat} {pairs : List (Byte × Byte)}
    (h : ∀ p ∈ pairs, (hexval p.1).isSome ∧ (hexval p.2).isSome) {tail : List Byte} {d : Diag} (n : Nat)
    (hn : n + pairs.length ≤ max) (ht : parsePairs max (n + pairs.length) tail = .error d) :
    parsePairs max n ((pairs.flatMap fun p => [p.1, p.2]) ++ tail) = .error d := by
  induction pairs generalizing n with
  | nil => exact ht
  | cons p ps ih =>
    rw [List.length_cons] at hn ht
    obtain ⟨h1, h2⟩ := h p (by simp)
    obtain ⟨x, hx⟩ := Option.isSome_iff_exists.1 h1
    obtain ⟨y, hy⟩ := Option.isSome_iff_exists.1 h2
    have := ih (fun p hp => h p (by simp [hp])) (n + 1) (by omega) (by rw [← ht]; congr 1; omega)
    simp only [List.flatMap_cons, List.cons_append, List.nil_append, parsePairs]
    rw [if_neg (by omega), hx, hy]
    simp only [this]

end Sys2Proof.Machine
end

