-- ==== Sys2Proof/Laws/PerInstr.lean ====
section
/-! SUPPORT. Facts stated for each instruction: the space and the number opcode_table.json gives it are those its encoding
begins with. -/

namespace Sys2Proof.Laws

/-- The space and the `match` value of the instruction's row of opcode_table.json; the row CMD_UNKNOWN matches every key
the others leave (30_encoding.md R76). -/
def tableNumber : Instr → Format × Byte
  | .cmdD _ => (.line, 0x44#8)
  | .cmdT _ => (.line, 0x54#8)
  | .cmdI _ => (.line, 0x49#8)
  | .cmdComment _ => (.line, 0x3B#8)
  | .cmdUnknown key _ => (.line, key)
  | .bitphaseM0 _ _ => (.mode, 0x00#8)
  | .bitphaseM1 _ _ => (.mode, 0x01#8)
  | .bitphaseM2 _ _ => (.mode, 0x02#8)
  | .bitphaseM3 _ _ => (.mode, 0x03#8)
  | .bitphaseM5 _ _ => (.mode, 0x05#8)
  | .initBus _ => (.op, 0x00#8)
  | .selectAssert _ => (.op, 0x01#8)
  | .selectDeassert _ => (.op, 0x02#8)
  | .transfer _ _ => (.op, 0x03#8)
  | .exchangeByte _ _ => (.op, 0x04#8)
  | .waitHalf _ => (.op, 0x05#8)
  | .initOut _ => (.op, 0x06#8)
  | .setOut _ _ => (.op, 0x07#8)
  | .service => (.op, 0x08#8)
  | .feed _ => (.op, 0x09#8)
  | .dispatch _ => (.op, 0x0A#8)
  | .respBare _ => (.op, 0x0B#8)
  | .respData _ => (.op, 0x0C#8)
  | .respComment _ => (.op, 0x0D#8)
  | .banner => (.op, 0x0E#8)

/-- The encoding of an instruction begins with its number, in its space. -/
def TableNumber.Statement (i : Instr) : Prop :=
  (encode i).1 = (tableNumber i).1 ∧ (encode i).2.head? = some (tableNumber i).2

theorem TableNumber.cmdD (arg : List Byte) : TableNumber.Statement (.cmdD arg) := ⟨rfl, rfl⟩

theorem TableNumber.cmdT (arg : List Byte) : TableNumber.Statement (.cmdT arg) := ⟨rfl, rfl⟩

theorem TableNumber.cmdI (arg : List Byte) : TableNumber.Statement (.cmdI arg) := ⟨rfl, rfl⟩

theorem TableNumber.cmdComment (arg : List Byte) : TableNumber.Statement (.cmdComment arg) := ⟨rfl, rfl⟩

theorem TableNumber.cmdUnknown (key : Byte) (rest : List Byte) : TableNumber.Statement (.cmdUnknown key rest) := ⟨rfl, rfl⟩

theorem TableNumber.bitphaseM0 (b : Tag) (d : Bit) : TableNumber.Statement (.bitphaseM0 b d) := ⟨rfl, rfl⟩

theorem TableNumber.bitphaseM1 (b : Tag) (d : Bit) : TableNumber.Statement (.bitphaseM1 b d) := ⟨rfl, rfl⟩

theorem TableNumber.bitphaseM2 (b : Tag) (d : Bit) : TableNumber.Statement (.bitphaseM2 b d) := ⟨rfl, rfl⟩

theorem TableNumber.bitphaseM3 (b : Tag) (d : Bit) : TableNumber.Statement (.bitphaseM3 b d) := ⟨rfl, rfl⟩

theorem TableNumber.bitphaseM5 (b : Tag) (d : Bit) : TableNumber.Statement (.bitphaseM5 b d) := ⟨rfl, rfl⟩

theorem TableNumber.initBus (b : Tag) : TableNumber.Statement (.initBus b) := ⟨rfl, rfl⟩

theorem TableNumber.selectAssert (b : Tag) : TableNumber.Statement (.selectAssert b) := ⟨rfl, rfl⟩

theorem TableNumber.selectDeassert (b : Tag) : TableNumber.Statement (.selectDeassert b) := ⟨rfl, rfl⟩

theorem TableNumber.transfer (b : Tag) (out : List Byte) : TableNumber.Statement (.transfer b out) := ⟨rfl, rfl⟩

theorem TableNumber.exchangeByte (b : Tag) (tx : Byte) : TableNumber.Statement (.exchangeByte b tx) := ⟨rfl, rfl⟩

theorem TableNumber.waitHalf (b : Tag) : TableNumber.Statement (.waitHalf b) := ⟨rfl, rfl⟩

theorem TableNumber.initOut (o : Tag) : TableNumber.Statement (.initOut o) := ⟨rfl, rfl⟩

theorem TableNumber.setOut (o : Tag) (level : Bool) : TableNumber.Statement (.setOut o level) := ⟨rfl, rfl⟩

theorem TableNumber.service : TableNumber.Statement .service := ⟨rfl, rfl⟩

theorem TableNumber.feed (c : Byte) : TableNumber.Statement (.feed c) := ⟨rfl, rfl⟩

theorem TableNumber.dispatch (l : List Byte) : TableNumber.Statement (.dispatch l) := ⟨rfl, rfl⟩

theorem TableNumber.respBare (r : BareCode) : TableNumber.Statement (.respBare r) := ⟨rfl, rfl⟩

theorem TableNumber.respData (payload : List Byte) : TableNumber.Statement (.respData payload) := ⟨rfl, rfl⟩

theorem TableNumber.respComment (text : List Byte) : TableNumber.Statement (.respComment text) := ⟨rfl, rfl⟩

theorem TableNumber.banner : TableNumber.Statement .banner := ⟨rfl, rfl⟩

end Sys2Proof.Laws
end

