-- ==== Sys2Proof/Laws/Reset.lean ====
section
/-! SUPPORT. The latches and directions after start-up: the canonical form, and what each pin reads as (10_state.md
R36). -/

namespace Sys2Proof.Machine

variable {cfg : Config}

/-! ### The canonical form -/

theorem busLatches_wf (v : Bit) (reg : List (Tag × BusTarget)) {x : PinMap Bit} (hx : x.wf) :
    (reg.foldl (fun x e => initBusLatches v e.2 x) x).wf := by
  induction reg generalizing x with
  | nil => exact hx
  | cons e reg ih => exact ih (initBusLatches_wf v e.2 hx)

theorem resetLatches_wf (cfg : Config) : (resetLatches cfg).wf := busLatches_wf _ _ List.Pairwise.nil

theorem busDirs_wf (reg : List (Tag × BusTarget)) {dir : PinMap Dir} (hd : dir.wf) :
    (reg.foldl (fun dir e => initBusDirs e.2 dir) dir).wf := by
  induction reg generalizing dir with
  | nil => exact hd
  | cons e reg ih => exact ih (initBusDirs_wf e.2 hd)

theorem outDirs_wf (reg : List (Tag × OutputTarget)) {dir : PinMap Dir} (hd : dir.wf) :
    (reg.foldl (fun dir e => dir.write e.2.pinOut .output) dir).wf := by
  induction reg generalizing dir with
  | nil => exact hd
  | cons e reg ih => exact ih (PinMap.wf_write hd _ _)

theorem resetDirs_wf (cfg : Config) : (resetDirs cfg).wf := outDirs_wf _ (busDirs_wf _ List.Pairwise.nil)

/-- `State.reset` has its pin maps in canonical form. -/
theorem reset_maps_wf (cfg : Config) : (State.resetOf cfg).x.wf ∧ (State.resetOf cfg).dir.wf :=
  ⟨resetLatches_wf cfg, resetDirs_wf cfg⟩

/-! ### What each pin reads as -/

/-- INIT_BUS of other targets leaves a pin that is none of theirs. -/
theorem busLatches_read_other (v : Bit) (reg : List (Tag × BusTarget)) (x : PinMap Bit) (p : Pin)
    (h : ∀ e ∈ reg, p ≠ e.2.pinSel ∧ p ≠ e.2.pinClk ∧ p ≠ e.2.pinDout) :
    (reg.foldl (fun x e => initBusLatches v e.2 x) x).read p = x.read p := by
  induction reg generalizing x with
  | nil => rfl
  | cons e reg ih =>
    obtain ⟨h1, h2, h3⟩ := h e (by simp)
    rw [List.foldl_cons, ih _ (fun e he => h e (by simp [he]))]
    simp [initBusLatches, PinMap.read_write, h1, h2, h3]

theorem busDirs_read_other (reg : List (Tag × BusTarget)) (dir : PinMap Dir) (p : Pin)
    (h : ∀ e ∈ reg, p ≠ e.2.pinSel ∧ p ≠ e.2.pinClk ∧ p ≠ e.2.pinDout ∧ p ≠ e.2.pinDin) :
    (reg.foldl (fun dir e => initBusDirs e.2 dir) dir).read p = dir.read p := by
  induction reg generalizing dir with
  | nil => rfl
  | cons e reg ih =>
    obtain ⟨h1, h2, h3, h4⟩ := h e (by simp)
    rw [List.foldl_cons, ih _ (fun e he => h e (by simp [he]))]
    simp [initBusDirs, PinMap.read_write, h1, h2, h3, h4]

theorem outDirs_read_other (reg : List (Tag × OutputTarget)) (dir : PinMap Dir) (p : Pin)
    (h : ∀ e ∈ reg, p ≠ e.2.pinOut) :
    (reg.foldl (fun dir e => dir.write e.2.pinOut .output) dir).read p = dir.read p := by
  induction reg generalizing dir with
  | nil => rfl
  | cons e reg ih =>
    rw [List.foldl_cons, ih _ (fun e he => h e (by simp [he])), PinMap.read_write_ne _ _ (h e (by simp))]

/-- The four pins of a target of the registry are none of the pins of the entries after it. -/
theorem busReg_split (h : cfg.wf = true) {before after : List (Tag × BusTarget)} {e : Tag × BusTarget}
    (hr : cfg.busReg = before ++ e :: after) {f : Tag × BusTarget} (hf : f ∈ after) :
    List.Disjoint [e.2.pinDout, e.2.pinDin, e.2.pinClk, e.2.pinSel] [f.2.pinDout, f.2.pinDin, f.2.pinClk, f.2.pinSel] := by
  have hp := (Config.wf_iff.1 h).2.1
  have h1 := (List.nodup_flatMap.1 (List.nodup_append.1 hp).1).2
  rw [hr] at h1
  exact (List.pairwise_cons.1 (List.pairwise_append.1 h1).2.1).1 f hf

/-- The latches of a Bus Target after start-up. -/
theorem resetLatches_bus (h : cfg.wf = true) {b : BusTarget} (hb : isRegistered cfg b) :
    (resetLatches cfg).read b.pinSel = some (!cfg.selActive) ∧
      (resetLatches cfg).read b.pinClk = some (idleLevel b.mode) ∧ (resetLatches cfg).read b.pinDout = some false := by
  obtain ⟨g1, g2, g3, -⟩ := Config.busPins_ne h hb
  obtain ⟨t, ht⟩ := hb
  obtain ⟨before, after, hr⟩ := List.append_of_mem ht
  have key : ∀ p ∈ [b.pinDout, b.pinDin, b.pinClk, b.pinSel],
      (resetLatches cfg).read p =
        (initBusLatches cfg.selActive b (before.foldl (fun x e => initBusLatches cfg.selActive e.2 x) [])).read p := by
    intro p hp
    rw [resetLatches, hr, List.foldl_append, List.foldl_cons]
    apply busLatches_read_other
    intro e he
    have hd := List.disjoint_left.1 (busReg_split h hr he) hp
    simp only [List.mem_cons, List.not_mem_nil, or_false, not_or] at hd
    exact ⟨hd.2.2.2, hd.2.2.1, hd.1⟩
  rw [key _ (by simp), key _ (by simp), key _ (by simp)]
  simp [initBusLatches, PinMap.read_write, Ne.symm g1, Ne.symm g2, Ne.symm g3]

/-- An Output Target's latch has no level after start-up. -/
theorem resetLatches_out (h : cfg.wf = true) {t : Tag} {o : OutputTarget} (ho : (t, o) ∈ cfg.outReg) :
    (resetLatches cfg).read o.pinOut = none := by
  rw [resetLatches, busLatches_read_other]
  · rfl
  · intro e he
    obtain ⟨h1, -, h3, h4⟩ := Config.outPin_ne h ⟨e.1, he⟩ ho
    exact ⟨h4, h3, h1⟩

/-- The directions of a Bus Target's pins after start-up. -/
theorem resetDirs_bus (h : cfg.wf = true) {b : BusTarget} (hb : isRegistered cfg b) :
    (resetDirs cfg).read b.pinSel = some .output ∧ (resetDirs cfg).read b.pinClk = some .output ∧
      (resetDirs cfg).read b.pinDout = some .output ∧ (resetDirs cfg).read b.pinDin = some .input := by
  have hb' := hb
  obtain ⟨g1, g2, g3, g4, g5, g6⟩ := Config.busPins_ne h hb
  obtain ⟨t, ht⟩ := hb
  obtain ⟨before, after, hr⟩ := List.append_of_mem ht
  have key : ∀ p ∈ [b.pinDout, b.pinDin, b.pinClk, b.pinSel],
      (resetDirs cfg).read p = (initBusDirs b (before.foldl (fun dir e => initBusDirs e.2 dir) [])).read p := by
    intro p hp
    rw [resetDirs, outDirs_read_other]
    · rw [hr, List.foldl_append, List.foldl_cons]
      apply busDirs_read_other
      intro e he
      have hd := List.disjoint_left.1 (busReg_split h hr he) hp
      simp only [List.mem_cons, List.not_mem_nil, or_false, not_or] at hd
      exact ⟨hd.2.2.2, hd.2.2.1, hd.1, hd.2.1⟩
    · intro e he
      obtain ⟨h1, h2, h3, h4⟩ := Config.outPin_ne h hb' he
      simp only [List.mem_cons, List.not_mem_nil, or_false] at hp
      rcases hp with rfl | rfl | rfl | rfl
      · exact h1.symm
      · exact h2.symm
      · exact h3.symm
      · exact h4.symm
  rw [key _ (by simp), key _ (by simp), key _ (by simp), key _ (by simp)]
  simp [initBusDirs, PinMap.read_write, Ne.symm g1, Ne.symm g2, Ne.symm g3, Ne.symm g4, Ne.symm g5, Ne.symm g6]

theorem outDirs_read_mem (reg : List (Tag × OutputTarget)) (dir : PinMap Dir) {e : Tag × OutputTarget} (he : e ∈ reg) :
    (reg.foldl (fun dir e => dir.write e.2.pinOut .output) dir).read e.2.pinOut = some .output := by
  have keep : ∀ (reg : List (Tag × OutputTarget)) (dir : PinMap Dir) (p : Pin), dir.read p = some .output →
      (reg.foldl (fun dir e => dir.write e.2.pinOut .output) dir).read p = some .output := by
    intro reg
    induction reg with
    | nil => intro dir p hp; exact hp
    | cons f reg ih =>
      intro dir p hp
      apply ih
      rw [PinMap.read_write]
      split_ifs
      · rfl
      · exact hp
  induction reg generalizing dir with
  | nil => simp at he
  | cons f reg ih =>
    rcases List.mem_cons.1 he with rfl | he
    · exact keep reg _ _ (by simp)
    · exact ih _ he

/-- The direction of an Output Target's pin after start-up. -/
theorem resetDirs_out {t : Tag} {o : OutputTarget} (ho : (t, o) ∈ cfg.outReg) :
    (resetDirs cfg).read o.pinOut = some .output := outDirs_read_mem _ _ ho

end Sys2Proof.Machine
end

