-- ==== Sys2Proof/Laws/Sequencer.lean ====
section
/-! SUPPORT. The sequencer: one bit-phase, one byte, one transfer, action by action, is the whole operation
(40_bus_target.md R117). -/

namespace Sys2Proof.Machine

variable {s : State}

/-! ### Steps -/

theorem step_of_pre (hw : s.cfg.wf = true) {b : BusTarget} (h : s.seq = .pre b) :
    step s = .next (enterByte b 0 (doSelectAssert b s)) := by
  simp [step, runStep, hw, h, seqStep]

theorem step_of_action (hw : s.cfg.wf = true) {b : BusTarget} {i k j : Nat} {t r : Byte} {a : Action}
    (h : s.seq = .xfer b i k j) (ht : s.tx = some t) (hr : s.rx = some r) (ha : (actions b.mode)[j]? = some a) :
    step s = .next (advance b i k j (storeSample r k (act b (bitAt t k) a s).2) (act b (bitAt t k) a s).1) := by
  simp [step, runStep, hw, h, seqStep, ht, hr, ha]

theorem step_of_end (hw : s.cfg.wf = true) {b : BusTarget} {i k j : Nat} (h : s.seq = .xfer b i k j)
    (ht : s.tx = none) : step s = .next (finishTransfer b s) := by
  simp [step, runStep, hw, h, seqStep, ht]

/-- `runSteps` is the host's run of the machine. -/
theorem runSteps_eq (n : Nat) (s : State) : runSteps n s = Host.Core.run Sys2Proof.core n s := by
  induction n generalizing s with
  | zero => rfl
  | succ n ih =>
    cases h : step s with
    | next t => simpa [runSteps, Host.Core.run, core, h] using ih t
    | fault r => cases r
    | refused r => simp [runSteps, Host.Core.run, core, h]

theorem run_succ {n : Nat} {t : State} (h : step s = .next t) :
    runSteps (n + 1) s = runSteps n t := by
  rw [runSteps, h]

theorem run_add {m n : Nat} {t : State} (h : runSteps m s = .next t) :
    runSteps (m + n) s = runSteps n t := by
  induction m generalizing s with
  | zero =>
    have : s = t := Host.Outcome.next.inj h
    rw [this, Nat.zero_add]
  | succ m ih =>
    rw [Nat.succ_add, runSteps]
    rw [runSteps] at h
    cases hs : step s with
    | next u => rw [hs] at h; exact ih h
    | fault f => cases f
    | refused f => rw [hs] at h; cases h

/-! ### One bit-phase -/

/-- `rx` after the actions of a list, each sample stored at bit `k`. -/
def storeRun (b : BusTarget) (d : Bit) (k : Nat) : List Action → State → Byte → Byte
  | [], _, r => r
  | a :: as, s, r => storeRun b d k as (act b d a s).1 (storeSample r k (act b d a s).2)

/-- The position after the last action of bit `k` of byte `i`, with `rx = r`. -/
def endBit (b : BusTarget) (i : Nat) (r : Byte) : Nat → State → State
  | k + 1, s => { s with seq := .xfer b i k 0, rx := some r }
  | 0, s => enterByte b (i + 1) { s with buf := s.buf.map (fun l => l.set i r) }

/-- An action does not look at the sequencer's position or at `rx`. -/
theorem act_position (b : BusTarget) (d : Bit) (a : Action) (s : State) (q : Seq) (r : Option Byte) :
    act b d a { s with seq := q, rx := r } = ({ (act b d a s).1 with seq := q, rx := r }, (act b d a s).2) := by
  cases a <;> rfl

theorem act_fields (b : BusTarget) (d : Bit) (a : Action) (s : State) :
    (act b d a s).1.cfg = s.cfg ∧ (act b d a s).1.tx = s.tx ∧ (act b d a s).1.rx = s.rx ∧
      (act b d a s).1.seq = s.seq ∧ (act b d a s).1.buf = s.buf := by
  cases a <;> exact ⟨rfl, rfl, rfl, rfl, rfl⟩

theorem runActions_position (b : BusTarget) (d : Bit) (as : List Action) (s : State) (v : Bit) (q : Seq)
    (r : Option Byte) :
    (runActions b d as { s with seq := q, rx := r } v).1 = { (runActions b d as s v).1 with seq := q, rx := r } := by
  induction as generalizing s v with
  | nil => rfl
  | cons a as ih => rw [runActions, runActions, act_position, ih]

theorem storeRun_position (b : BusTarget) (d : Bit) (k : Nat) (as : List Action) (s : State) (r : Byte) (q : Seq)
    (r' : Option Byte) : storeRun b d k as { s with seq := q, rx := r' } r = storeRun b d k as s r := by
  induction as generalizing s r with
  | nil => rfl
  | cons a as ih => rw [storeRun, storeRun, act_position, ih]

theorem endBit_position (b : BusTarget) (i k : Nat) (v : Byte) (s : State) (q : Seq) (r : Option Byte) :
    endBit b i v k { s with seq := q, rx := r } = endBit b i v k s := by
  cases k <;> rfl

/-- The rest of a bit-phase, from action `j` on. -/
theorem run_actions {b : BusTarget} {i k : Nat} {t : Byte} (as : List Action) (a : Action) (j : Nat) (r : Byte)
    (s : State) (v : Bit) (hw : s.cfg.wf = true) (hd : (actions b.mode).drop j = a :: as) (h : s.seq = .xfer b i k j)
    (ht : s.tx = some t) (hr : s.rx = some r) :
    runSteps (as.length + 1) s =
      .next (endBit b i (storeRun b (bitAt t k) k (a :: as) s r) k (runActions b (bitAt t k) (a :: as) s v).1) := by
  induction as generalizing a j r s v with
  | nil =>
    have hj : (actions b.mode)[j]? = some a := by
      rw [← Nat.add_zero j, ← List.getElem?_drop, hd]; rfl
    have hlen : (actions b.mode).length = j + 1 := by
      have h1 := congrArg List.length hd
      simp only [List.length_drop, List.length_cons, List.length_nil] at h1
      omega
    rw [run_succ (step_of_action hw h ht hr hj)]
    simp only [List.length_nil, runSteps, storeRun, runActions, advance, hlen, Nat.lt_irrefl, if_false]
    cases k <;> rfl
  | cons a' as ih =>
    have hj : (actions b.mode)[j]? = some a := by
      rw [← Nat.add_zero j, ← List.getElem?_drop, hd]; rfl
    have hlen : j + 1 < (actions b.mode).length := by
      have h1 := congrArg List.length hd
      simp only [List.length_drop, List.length_cons] at h1
      omega
    have hd' : (actions b.mode).drop (j + 1) = a' :: as := by
      rw [← List.drop_drop, hd]; rfl
    obtain ⟨f1, f2, -, -, -⟩ := act_fields b (bitAt t k) a s
    rw [List.length_cons, run_succ (step_of_action hw h ht hr hj)]
    simp only [advance, hlen, if_true]
    rw [ih a' (j + 1) _ _ ((act b (bitAt t k) a s).2.getD v) (by rw [← hw, ← f1]) hd' rfl (by rw [← ht, ← f2]) rfl]
    rw [runActions_position, storeRun_position, endBit_position]
    rfl

/-- A list samples exactly once, so what is stored is the bit it returns. -/
theorem storeRun_actions (m : Mode) (b : BusTarget) (d : Bit) (k : Nat) (s : State) (r : Byte) :
    storeRun b d k (actions m) s r = putBit r k (doBitPhase m b d s).2 := by
  rw [doBitPhase_eq]
  cases m <;> rfl

/-- One bit-phase, action by action. -/
theorem run_bitPhase {b : BusTarget} {i k : Nat} {t r : Byte} (hw : s.cfg.wf = true) (h : s.seq = .xfer b i k 0)
    (ht : s.tx = some t) (hr : s.rx = some r) :
    runSteps (actions b.mode).length s =
      .next (endBit b i (putBit r k (doBitPhase b.mode b (bitAt t k) s).2) k
        (doBitPhase b.mode b (bitAt t k) s).1) := by
  rw [← storeRun_actions]
  cases ha : actions b.mode with
  | nil => cases hm : b.mode <;> rw [hm] at ha <;> simp [actions] at ha
  | cons a as =>
    rw [List.length_cons, run_actions as a 0 r s false hw (by simpa using ha) h ht hr, doBitPhase, ha]

/-! ### One byte -/

/-- A bit-phase does not look at the sequencer, at `buf` or at the transient bytes. -/
theorem doBitPhase_idle (m : Mode) (b : BusTarget) (d : Bit) (s : State) (q : Seq) (l : Option (List Byte))
    (t r : Option Byte) :
    doBitPhase m b d { s with seq := q, buf := l, tx := t, rx := r } =
      ({ (doBitPhase m b d s).1 with seq := q, buf := l, tx := t, rx := r }, (doBitPhase m b d s).2) := by
  simp only [doBitPhase_eq]
  rfl

theorem exchangeBits_idle (b : BusTarget) (t : Byte) (n : Nat) (s : State) (r : Byte) (q : Seq)
    (l : Option (List Byte)) (t' r' : Option Byte) :
    exchangeBits b t n { s with seq := q, buf := l, tx := t', rx := r' } r =
      ({ (exchangeBits b t n s r).1 with seq := q, buf := l, tx := t', rx := r' }, (exchangeBits b t n s r).2) := by
  induction n generalizing s r with
  | zero => rfl
  | succ n ih => rw [exchangeBits, doBitPhase_idle, ih]; rfl

theorem exchangeBits_position (b : BusTarget) (t : Byte) (n : Nat) (s : State) (r : Byte) (q : Seq) (r' : Option Byte) :
    exchangeBits b t n { s with seq := q, rx := r' } r =
      ({ (exchangeBits b t n s r).1 with seq := q, rx := r' }, (exchangeBits b t n s r).2) := by
  rw [exchangeBits_idle b t n s r q s.buf s.tx r']
  simp [exchangeBits_state]

/-- The bits `k` down to 0 of byte `i`, action by action. -/
theorem run_bits {b : BusTarget} {i : Nat} {t : Byte} (k : Nat) (r : Byte) (s : State) (hw : s.cfg.wf = true)
    (h : s.seq = .xfer b i k 0) (ht : s.tx = some t) (hr : s.rx = some r) :
    runSteps ((k + 1) * (actions b.mode).length) s =
      .next (endBit b i (exchangeBits b t (k + 1) s r).2 0 (exchangeBits b t (k + 1) s r).1) := by
  induction k generalizing r s with
  | zero => rw [Nat.zero_add, Nat.one_mul, run_bitPhase hw h ht hr]; rfl
  | succ k ih =>
    rw [Nat.succ_mul, Nat.add_comm, run_add (run_bitPhase hw h ht hr)]
    rw [endBit, ih _ _ (by simpa [doBitPhase_eq] using hw) rfl (by simpa [doBitPhase_eq] using ht) rfl]
    rw [exchangeBits_position, endBit_position]
    rfl

/-! ### The bytes of a transfer -/

theorem exchangeAll_length (b : BusTarget) (out : List Byte) (s : State) :
    (exchangeAll b out s).2.length = out.length := (exchangeAll_inbound b out s).1

/-- The bytes from `i` on, action by action: `done` have been exchanged, `out` have not. -/
theorem run_bytes {b : BusTarget} (out done : List Byte) (s : State) (hw : s.cfg.wf = true) :
    runSteps (8 * (actions b.mode).length * out.length)
        (enterByte b done.length { s with buf := some (done ++ out) }) =
      .next (enterByte b (done.length + out.length)
        { (exchangeAll b out s).1 with buf := some (done ++ (exchangeAll b out s).2) }) := by
  induction out generalizing done s with
  | nil => rfl
  | cons t ts ih =>
    have hb : bufByte { s with buf := some (done ++ t :: ts) } done.length = some t := by simp [bufByte]
    rw [List.length_cons, Nat.mul_succ, Nat.add_comm]
    have h1 := run_bits (b := b) (i := done.length) (t := t) 7 0#8
      (enterByte b done.length { s with buf := some (done ++ t :: ts) }) hw rfl hb
      (by rw [enterByte, hb]; rfl)
    rw [run_add h1, enterByte, exchangeBits_idle b t _ s]
    simp only [endBit]
    have h2 := ih (done ++ [(doExchange b t s).2]) (doExchange b t s).1 (by simpa [doExchange_state] using hw)
    have e1 : (done ++ t :: ts).set done.length (doExchange b t s).2 = done ++ [(doExchange b t s).2] ++ ts := by simp
    simp only [List.length_append, List.length_cons, List.length_nil, Nat.zero_add] at h2
    rw [exchangeAll]
    rw [show done.length + (ts.length + 1) = done.length + 1 + ts.length by omega]
    rw [show done ++ (doExchange b t s).2 :: (exchangeAll b ts (doExchange b t s).1).2 =
      done ++ [(doExchange b t s).2] ++ (exchangeAll b ts (doExchange b t s).1).2 by simp]
    rw [← h2, ← e1]
    rfl

end Sys2Proof.Machine
end

