-- ==== Sys2Proof/Tests/Slice0.lean ====
section
/-! SUPPORT. Tests on small states, with expected values from 95_test_vectors.md or from the rules by hand, and for every
statement with hypotheses a witness that meets them. -/

namespace Sys2Proof.Tests

open Machine

/-! ### Small states -/

/-- Tag 'S' a bus of mode `m` on pins 0 to 3, tag 'A' an output on pin 4; `H = 5`. -/
def cfgWith (m : Mode) (max : Nat) : Config :=
  { Config.resetPlatform with
    busReg := [(0x53#8, ⟨0, 1, 2, 3, 100000, m⟩)], outReg := [(0x41#8, ⟨4⟩)], maxTransferBytes := max }

/-- The bus of `cfgWith`. -/
def busWith (m : Mode) : BusTarget := ⟨0, 1, 2, 3, 100000, m⟩

/-- Freshly initialised, with the answers `din` to come. -/
def stateWith (m : Mode) (max : Nat) (din : List Bit) : State := { State.resetOf (cfgWith m max) with din := din }

/-- The next state, `State.reset` where there is none. -/
def after (r : Result) : State :=
  match r with
  | .next s => s
  | .fault _ => State.reset
  | .refused _ => State.reset

/-- The refusal, none where there is a next state. -/
def refusal (r : Result) : Option Refusal :=
  match r with
  | .next _ => none
  | .fault _ => none
  | .refused e => some e

/-- The bits of a byte in bus order. -/
def bitsOf (v : Byte) : List Bit :=
  [bitAt v 7, bitAt v 6, bitAt v 5, bitAt v 4, bitAt v 3, bitAt v 2, bitAt v 1, bitAt v 0]

/-! ### WellFormed refuses each kind of ill-formed term -/

/-- R8(b), V35. -/
theorem test_wf_rate_zero :
    Config.wf { cfgWith .m0 2 with busReg := [(0x53#8, ⟨0, 1, 2, 3, 0, .m0⟩)] } = false := by decide

/-- R8(d), within one target, and between the two registries. -/
theorem test_wf_pin_twice :
    Config.wf { cfgWith .m0 2 with busReg := [(0x53#8, ⟨0, 1, 2, 2, 100000, .m0⟩)] } = false ∧
      Config.wf { cfgWith .m0 2 with outReg := [(0x41#8, ⟨3⟩)] } = false := by decide

/-- R8(e), in each registry. -/
theorem test_wf_key_twice :
    Config.wf { cfgWith .m0 2 with outReg := [(0x41#8, ⟨4⟩), (0x41#8, ⟨5⟩)] } = false ∧
      Config.wf { cfgWith .m0 2 with
        busReg := [(0x53#8, ⟨0, 1, 2, 3, 1, .m0⟩), (0x53#8, ⟨5, 6, 7, 8, 1, .m0⟩)] } = false := by decide

/-- R8(f). -/
theorem test_wf_max_zero : Config.wf (cfgWith .m0 0) = false := by decide

/-- R7. -/
theorem test_wf_ranges :
    Config.wf { cfgWith .m0 2 with tickHz := 0 } = false ∧ Config.wf { cfgWith .m0 2 with delayWidth := 0 } = false := by
  decide

/-- D7. -/
theorem test_wf_texts :
    Config.wf { cfgWith .m0 2 with bannerText := [0x0A#8] } = false ∧
      Config.wf { cfgWith .m0 2 with diagText := { DiagText.quoted with badTag := [0x0D#8] } } = false := by decide

/-- The same key in both registries is admitted (R12), and the platforms of the tests and of `State.reset` are well
formed. -/
theorem test_wf_accepts :
    Config.wf { cfgWith .m0 1 with outReg := [(0x53#8, ⟨4⟩)] } = true ∧ Config.wf Config.resetPlatform = true := by
  decide

/-- Lines: a terminator inside, a key of another command. -/
theorem test_instr_wf_lines :
    Instr.wf (cfgWith .m0 2) (.cmdD [0x31#8, 0x0A#8]) = false ∧ Instr.wf (cfgWith .m0 2) (.cmdT [0x0D#8]) = false ∧
      Instr.wf (cfgWith .m0 2) (.cmdI [0x0A#8]) = false ∧ Instr.wf (cfgWith .m0 2) (.cmdComment [0x0A#8]) = false ∧
      Instr.wf (cfgWith .m0 2) (.cmdUnknown 0x44#8 []) = false ∧
      Instr.wf (cfgWith .m0 2) (.cmdUnknown 0x58#8 [0x0D#8]) = false := by decide

/-- Operations: an unregistered tag, another mode's bit-phase, too many bytes, an empty line, a terminator. -/
theorem test_instr_wf_operations :
    Instr.wf (cfgWith .m0 2) (.bitphaseM1 0x53#8 true) = false ∧ Instr.wf (cfgWith .m0 2) (.bitphaseM0 0x5A#8 true) = false ∧
      Instr.wf (cfgWith .m0 2) (.initBus 0x41#8) = false ∧ Instr.wf (cfgWith .m0 2) (.selectAssert 0x41#8) = false ∧
      Instr.wf (cfgWith .m0 2) (.selectDeassert 0x41#8) = false ∧ Instr.wf (cfgWith .m0 2) (.waitHalf 0x41#8) = false ∧
      Instr.wf (cfgWith .m0 2) (.exchangeByte 0x41#8 0#8) = false ∧
      Instr.wf (cfgWith .m0 2) (.transfer 0x53#8 [0#8, 0#8, 0#8]) = false ∧
      Instr.wf (cfgWith .m0 2) (.transfer 0x41#8 []) = false ∧ Instr.wf (cfgWith .m0 2) (.initOut 0x53#8) = false ∧
      Instr.wf (cfgWith .m0 2) (.setOut 0x53#8 true) = false ∧ Instr.wf (cfgWith .m0 2) (.dispatch []) = false ∧
      Instr.wf (cfgWith .m0 2) (.dispatch [0x44#8, 0x0A#8]) = false ∧
      Instr.wf (cfgWith .m0 2) (.respComment [0x0A#8]) = false := by decide

/-- The other modes' bit-phases on a target of mode 0. -/
theorem test_instr_wf_modes :
    Instr.wf (cfgWith .m1 2) (.bitphaseM0 0x53#8 true) = false ∧ Instr.wf (cfgWith .m0 2) (.bitphaseM2 0x53#8 true) = false ∧
      Instr.wf (cfgWith .m0 2) (.bitphaseM3 0x53#8 true) = false ∧
      Instr.wf (cfgWith .m0 2) (.bitphaseM5 0x53#8 true) = false := by decide

/-! ### Decoding, words written out from 30_encoding.md -/

/-- R71 to R76: `D10`, `TS0A`, `IA1`, `;x`, ` D`. -/
theorem test_decode_lines :
    decode .line [0x44#8, 0x31#8, 0x30#8] = .ok (.cmdD [0x31#8, 0x30#8]) ∧
      decode .line [0x54#8, 0x53#8, 0x30#8, 0x41#8] = .ok (.cmdT [0x53#8, 0x30#8, 0x41#8]) ∧
      decode .line [0x49#8, 0x41#8, 0x31#8] = .ok (.cmdI [0x41#8, 0x31#8]) ∧
      decode .line [0x3B#8, 0x78#8] = .ok (.cmdComment [0x78#8]) ∧
      decode .line [0x20#8, 0x44#8] = .ok (.cmdUnknown 0x20#8 [0x44#8]) ∧
      decode .line [] = .error .emptyWord := by
  exact ⟨rfl, rfl, rfl, rfl, rfl, rfl⟩

/-- R81, R82. -/
theorem test_decode_modes :
    decode .mode [0x00#8, 0x53#8, 0x01#8] = .ok (.bitphaseM0 0x53#8 true) ∧
      decode .mode [0x01#8, 0x53#8, 0x00#8] = .ok (.bitphaseM1 0x53#8 false) ∧
      decode .mode [0x02#8, 0x53#8, 0x01#8] = .ok (.bitphaseM2 0x53#8 true) ∧
      decode .mode [0x03#8, 0x53#8, 0x00#8] = .ok (.bitphaseM3 0x53#8 false) ∧
      decode .mode [0x05#8, 0x53#8, 0x01#8] = .ok (.bitphaseM5 0x53#8 true) ∧
      decode .mode [0x04#8, 0x53#8, 0x01#8] = .error (.reservedMode 4) ∧
      decode .mode [0x06#8, 0x53#8, 0x01#8] = .error (.reservedMode 6) := by
  exact ⟨rfl, rfl, rfl, rfl, rfl, rfl, rfl⟩

/-- R88, indices 0 to 7. -/
theorem test_decode_bus_operations :
    decode .op [0x00#8, 0x53#8] = .ok (.initBus 0x53#8) ∧ decode .op [0x01#8, 0x53#8] = .ok (.selectAssert 0x53#8) ∧
      decode .op [0x02#8, 0x53#8] = .ok (.selectDeassert 0x53#8) ∧
      decode .op [0x03#8, 0x53#8, 0xA5#8] = .ok (.transfer 0x53#8 [0xA5#8]) ∧
      decode .op [0x04#8, 0x53#8, 0xA5#8] = .ok (.exchangeByte 0x53#8 0xA5#8) ∧
      decode .op [0x05#8, 0x53#8] = .ok (.waitHalf 0x53#8) ∧ decode .op [0x06#8, 0x41#8] = .ok (.initOut 0x41#8) ∧
      decode .op [0x07#8, 0x41#8, 0x01#8] = .ok (.setOut 0x41#8 true) := by
  exact ⟨rfl, rfl, rfl, rfl, rfl, rfl, rfl, rfl⟩

/-- R88, indices 8 to 14, and the first index it does not list. -/
theorem test_decode_front_end_operations :
    decode .op [0x08#8] = .ok .service ∧ decode .op [0x09#8, 0x44#8] = .ok (.feed 0x44#8) ∧
      decode .op [0x0A#8, 0x44#8, 0x31#8] = .ok (.dispatch [0x44#8, 0x31#8]) ∧
      decode .op [0x0B#8, 0x45#8] = .ok (.respBare .e) ∧ decode .op [0x0C#8, 0xFF#8] = .ok (.respData [0xFF#8]) ∧
      decode .op [0x0D#8, 0x68#8] = .ok (.respComment [0x68#8]) ∧ decode .op [0x0E#8] = .ok .banner ∧
      decode .op [0x0F#8] = .error (.unknownOperation 15) ∧ decode .op [0x0B#8, 0x53#8] = .error .badOperands := by
  exact ⟨rfl, rfl, rfl, rfl, rfl, rfl, rfl, rfl, rfl⟩

/-- Table words: the key of a line, an index with its operand bytes zero, any other number a line of an unknown command. -/
theorem test_decode_table_words :
    decodeTableWord 8 0x54 = some (.cmdT []) ∧ decodeTableWord 8 0x58 = some (.cmdUnknown 0x58#8 []) ∧
      decodeTableWord 8 0x08 = some .service ∧ decodeTableWord 8 0x04 = some (.exchangeByte 0x00#8 0x00#8) ∧
      decodeTableWord 24 0x014107 = some (.setOut 0x41#8 true) := by
  exact ⟨rfl, rfl, rfl, rfl, rfl⟩

/-- A table word placed at reset is what the next step runs: RESP_DATA of no bytes answers `S` (R85). -/
theorem test_step_fetch_word : (after (step (State.reset.withFetchWord 8 0x0C))).outq = [0x53#8, 0x0A#8] := by decide

/-! ### The Bus Target -/

/-- R101, mode 2: SEL deasserted, CLK high, DOUT low. -/
theorem test_init_bus :
    (after (exec (.initBus 0x53#8) { stateWith .m2 2 [] with x := [(0, true), (2, false)] })).x =
      [(0, false), (2, true), (3, true)] := by decide

/-- R103. -/
theorem test_select_assert :
    (after (exec (.selectAssert 0x53#8) (stateWith .m0 2 []))).trace = [.drv 3 false] := by decide

/-- R104, D1: active high. -/
theorem test_select_deassert :
    (after (exec (.selectDeassert 0x53#8)
      { stateWith .m0 2 [] with cfg := { cfgWith .m0 2 with selActive := true } })).x.read 3 = some false := by decide

/-- V30, V31, V33, V36. -/
theorem test_wait_half :
    (after (exec (.waitHalf 0x53#8) (stateWith .m0 2 []))).trace = [.wt 5] ∧ halfPeriod 1000000 300000 = 1 ∧
      halfPeriod 1000000 500001 = 0 ∧ halfPeriod 1000000 9600 = 52 := by decide

/-- V1. -/
theorem test_bitphase_m0 :
    (after (exec (.bitphaseM0 0x53#8 true) (stateWith .m0 2 [false]))).trace =
      [.drv 0 true, .wt 5, .smp 1 false, .drv 2 true, .wt 5, .drv 2 false] := by decide

/-- V2. -/
theorem test_bitphase_m1 :
    (after (exec (.bitphaseM1 0x53#8 false) (stateWith .m1 2 [true]))).trace =
      [.drv 2 true, .drv 0 false, .wt 5, .smp 1 true, .drv 2 false, .wt 5] := by decide

/-- V3. -/
theorem test_bitphase_m2 :
    (after (exec (.bitphaseM2 0x53#8 true) (stateWith .m2 2 [true]))).trace =
      [.drv 0 true, .wt 5, .smp 1 true, .drv 2 false, .wt 5, .drv 2 true] := by decide

/-- V4. -/
theorem test_bitphase_m3 :
    (after (exec (.bitphaseM3 0x53#8 false) (stateWith .m3 2 [false]))).trace =
      [.wt 5, .drv 2 false, .drv 0 false, .wt 5, .smp 1 false, .drv 2 true] := by decide

/-- V5. -/
theorem test_bitphase_m5 :
    (after (exec (.bitphaseM5 0x53#8 true) (stateWith .m5 2 [true]))).trace =
      [.drv 0 true, .wt 5, .drv 2 false, .wt 5, .smp 1 true, .drv 2 true, .wt 5] := by decide

/-- V11: the answers 1,1,0,0,0,0,1,1 are 0xC3. -/
theorem test_exchange_byte :
    (after (exec (.exchangeByte 0x53#8 0xA5#8)
      (stateWith .m0 2 [true, true, false, false, false, false, true, true]))).ret = .byte 0xC3#8 := by decide

/-- V27: `A5 0F` over a one-bit delay line is `52 87`; the latches after it are SEL 1, CLK 1, DOUT 1 in mode 5. -/
theorem test_transfer :
    (after (exec (.transfer 0x53#8 [0xA5#8, 0x0F#8]) (stateWith .m5 2 (false :: bitsOf 0xA5#8 ++ bitsOf 0x0F#8)))).ret =
      .bytes [0x52#8, 0x87#8] ∧
    (after (exec (.transfer 0x53#8 [0xA5#8, 0x0F#8]) (stateWith .m5 2 (false :: bitsOf 0xA5#8 ++ bitsOf 0x0F#8)))).x =
      [(0, true), (2, true), (3, true)] := by decide +kernel

/-- V28, and one byte more than the bound (R215). -/
theorem test_transfer_bounds :
    (after (exec (.transfer 0x53#8 []) (stateWith .m0 2 []))).trace = [.drv 3 false, .drv 3 true] ∧
      refusal (exec (.transfer 0x53#8 [0#8, 0#8, 0#8]) (stateWith .m0 2 [])) = some .transferTooLong := by decide

/-! ### The Output Target -/

/-- R141. -/
theorem test_init_out :
    (after (exec (.initOut 0x41#8) { stateWith .m0 2 [] with x := [(4, true)] })).x.read 4 = none := by decide

/-- V39, V39b. -/
theorem test_set :
    (after (exec (.setOut 0x41#8 false) { stateWith .m0 2 [] with x := [(4, true), (5, true)] })).x =
      [(4, false), (5, true)] := by decide

/-! ### The command lines -/

/-- V86: `D70000` with 16 bits. -/
theorem test_cmd_d :
    (after (exec (.cmdD [0x37#8, 0x30#8, 0x30#8, 0x30#8, 0x30#8])
      { stateWith .m0 64 [] with cfg := { cfgWith .m0 64 with delayWidth := 16 } })).trace =
      [.wtMs 4464, .tx 0x43#8, .tx 0x0A#8] := by decide

/-- V51. -/
theorem test_cmd_d_bad_digit :
    (after (exec (.cmdD [0x31#8, 0x61#8]) (stateWith .m0 2 []))).trace = [.tx 0x45#8, .tx 0x0A#8] := by decide

/-- V63: `TSaB` on a loop-backed bus of mode 1. -/
theorem test_cmd_t :
    (after (exec (.cmdT [0x53#8, 0x61#8, 0x42#8]) (stateWith .m1 2 (bitsOf 0xAB#8)))).outq =
      [0x53#8, 0x61#8, 0x62#8, 0x0A#8] := by decide +kernel

/-- V43: `more_than_max` comes before `invalid_high_digit`. -/
theorem test_cmd_t_order :
    lineError (cfgWith .m0 2) [0x54#8, 0x53#8, 0x30#8, 0x31#8, 0x30#8, 0x32#8, 0x47#8, 0x47#8] = some .moreThanMax ∧
      lineError (cfgWith .m0 2) [0x54#8, 0x53#8, 0x67#8] = some .invalidHighDigit := by decide

/-- V71. -/
theorem test_cmd_i :
    (after (exec (.cmdI [0x41#8, 0x31#8]) (stateWith .m0 2 []))).trace = [.drv 4 true] := by decide

/-- V66 to V68. -/
theorem test_cmd_i_order :
    lineError (cfgWith .m0 2) [0x49#8, 0x5A#8] = some .badTag ∧
      lineError (cfgWith .m0 2) [0x49#8, 0x41#8, 0x31#8, 0x78#8] = some .tooLong ∧
      lineError (cfgWith .m0 2) [0x49#8, 0x41#8, 0x32#8] = some .invalidLevel := by decide

/-- V74. -/
theorem test_cmd_comment : after (exec (.cmdComment [0x54#8, 0x53#8]) (stateWith .m0 2 [])) = stateWith .m0 2 [] := by
  decide

/-- V95: the phrase as DIAG_TEXT, `DEBUG` true. -/
theorem test_cmd_unknown :
    (after (exec (.cmdUnknown 0x58#8 [])
      { stateWith .m0 2 [] with cfg := { cfgWith .m0 2 with debug := true } })).outq =
      [0x3B#8, 0x55#8, 0x6E#8, 0x6B#8, 0x6E#8, 0x6F#8, 0x77#8, 0x6E#8, 0x20#8, 0x63#8, 0x6F#8, 0x6D#8, 0x6D#8, 0x61#8,
        0x6E#8, 0x64#8, 0x0A#8, 0x45#8, 0x0A#8] := by decide

/-- R154: `IA0` given whole. -/
theorem test_dispatch :
    (after (exec (.dispatch [0x49#8, 0x41#8, 0x30#8]) (stateWith .m0 2 []))).x.read 4 = some false := by decide

/-! ### The Line Framer, the service routine, the responses -/

/-- V49: `LINE_CAP = 6`, the seventh byte is dropped. -/
theorem test_feed_full :
    (after (exec (.feed 0x47#8)
      { stateWith .m0 2 [] with line := [0x41#8, 0x42#8, 0x43#8, 0x44#8, 0x45#8, 0x46#8] })).line =
      [0x41#8, 0x42#8, 0x43#8, 0x44#8, 0x45#8, 0x46#8] := by decide

/-- V45: the terminator delivers the line and empties the accumulator. -/
theorem test_feed_line :
    (after (exec (.feed 0x0D#8) { stateWith .m0 2 [] with line := [0x44#8, 0x31#8] })).ret =
      .line (some [0x44#8, 0x31#8]) := by decide

/-- P3: `D10\r\nD20\n`. -/
theorem test_service :
    (after (exec .service { stateWith .m0 4 [] with
      inq := [0x44#8, 0x31#8, 0x30#8, 0x0D#8, 0x0A#8, 0x44#8, 0x32#8, 0x30#8, 0x0A#8] })).outq =
      [0x43#8, 0x0A#8, 0x43#8, 0x0A#8] := by decide

/-- V41: the over-long line through the framer answers `S0102`. -/
theorem test_service_cut :
    (after (exec .service { stateWith .m0 2 (bitsOf 0x01#8 ++ bitsOf 0x02#8) with
      inq := [0x54#8, 0x53#8, 0x30#8, 0x31#8, 0x30#8, 0x32#8, 0x30#8, 0x33#8, 0x0A#8] })).outq =
      [0x53#8, 0x30#8, 0x31#8, 0x30#8, 0x32#8, 0x0A#8] := by decide +kernel

/-- V91 with `0D 0A`. -/
theorem test_resp_bare :
    (after (exec (.respBare .e) { stateWith .m0 2 [] with cfg := { cfgWith .m0 2 with respTerm := .crlf } })).outq =
      [0x45#8, 0x0D#8, 0x0A#8] := by decide

/-- V94. -/
theorem test_resp_data :
    (after (exec (.respData [0x00#8, 0xFF#8, 0xAB#8]) (stateWith .m0 2 []))).outq =
      [0x53#8, 0x30#8, 0x30#8, 0x66#8, 0x66#8, 0x61#8, 0x62#8, 0x0A#8] := by decide

/-- R164, with `DEBUG` true and false. -/
theorem test_resp_comment :
    (after (exec (.respComment [0x68#8])
      { stateWith .m0 2 [] with cfg := { cfgWith .m0 2 with debug := true } })).outq = [0x3B#8, 0x68#8, 0x0A#8] ∧
    (after (exec (.respComment [0x68#8]) (stateWith .m0 2 []))).outq = [] := by decide

/-- R165. -/
theorem test_banner :
    (after (exec .banner
      { stateWith .m0 2 [] with cfg := { cfgWith .m0 2 with debug := true, bannerText := [0x42#8] } })).trace =
      [.tx 0x3B#8, .tx 0x42#8, .tx 0x0A#8] := by decide

/-! ### Steps -/

/-- R117: at `PRE` the step asserts select and enters byte 0. -/
theorem test_step_pre :
    (after (step { stateWith .m0 2 [] with seq := .pre (busWith .m0), buf := some [0xA5#8] })).seq =
      .xfer (busWith .m0) 0 7 0 := by decide

/-- R36: the pin maps of `State.reset` are in canonical form, and the machine is ready. -/
theorem test_reset : State.reset.x.wf ∧ State.reset.dir.wf ∧ State.reset.ready = true :=
  ⟨resetLatches_wf _, resetDirs_wf _, by decide⟩

/-! ### Witnesses: each shows values that meet all hypotheses of one statement -/

/-- A machine in mode `m`, `MAX_TRANSFER_BYTES = 2`. -/
def base (m : Mode) : State := stateWith m 2 []

theorem base_ready (m : Mode) : (base m).ready = true := by cases m <;> decide

theorem base_bus (m : Mode) : lookup (base m).cfg.busReg 0x53#8 = some (busWith m) := rfl

theorem base_out (m : Mode) : lookup (base m).cfg.outReg 0x41#8 = some ⟨4⟩ := rfl

theorem witness_InitBusEffect :
    (base .m2).ready = true ∧ lookup (base .m2).cfg.busReg 0x53#8 = some (busWith .m2) := ⟨base_ready .m2, rfl⟩

theorem witness_SelectAssertEffect :
    (base .m0).ready = true ∧ lookup (base .m0).cfg.busReg 0x53#8 = some (busWith .m0) := ⟨base_ready .m0, rfl⟩

theorem witness_SelectDeassertEffect :
    (base .m3).ready = true ∧ lookup (base .m3).cfg.busReg 0x53#8 = some (busWith .m3) := ⟨base_ready .m3, rfl⟩

/-- R244: a half-period of 0 is admitted. -/
theorem witness_WaitHalfEffect :
    State.ready { base .m0 with cfg := { cfgWith .m0 2 with tickHz := 1 } } = true ∧
      lookup (cfgWith .m0 2).busReg 0x53#8 = some (busWith .m0) := ⟨by decide, rfl⟩

theorem witness_BitphaseM0Effect :
    (base .m0).ready = true ∧ lookup (base .m0).cfg.busReg 0x53#8 = some (busWith .m0) := ⟨base_ready .m0, rfl⟩

theorem witness_BitphaseM1Effect :
    (base .m1).ready = true ∧ lookup (base .m1).cfg.busReg 0x53#8 = some (busWith .m1) := ⟨base_ready .m1, rfl⟩

theorem witness_BitphaseM2Effect :
    (base .m2).ready = true ∧ lookup (base .m2).cfg.busReg 0x53#8 = some (busWith .m2) := ⟨base_ready .m2, rfl⟩

theorem witness_BitphaseM3Effect :
    (base .m3).ready = true ∧ lookup (base .m3).cfg.busReg 0x53#8 = some (busWith .m3) := ⟨base_ready .m3, rfl⟩

theorem witness_BitphaseM5Effect :
    (base .m5).ready = true ∧ lookup (base .m5).cfg.busReg 0x53#8 = some (busWith .m5) := ⟨base_ready .m5, rfl⟩

theorem witness_ExchangeByteEffect :
    (base .m5).ready = true ∧ lookup (base .m5).cfg.busReg 0x53#8 = some (busWith .m5) := ⟨base_ready .m5, rfl⟩

/-- At the bound of 2 bytes, and the transfer of no byte. -/
theorem witness_TransferEffect :
    (base .m0).ready = true ∧ lookup (base .m0).cfg.busReg 0x53#8 = some (busWith .m0) ∧
      [0xA5#8, 0x0F#8].length ≤ (base .m0).cfg.maxTransferBytes ∧
      ([] : List Byte).length ≤ (base .m0).cfg.maxTransferBytes :=
  ⟨base_ready .m0, rfl, by decide, by decide⟩

theorem witness_TransferEventCounts :
    (∃ u, exec (.transfer 0x53#8 [0xA5#8, 0x0F#8]) (base .m5) = .next u) ∧
      lookup (base .m5).cfg.busReg 0x53#8 = some (busWith .m5) :=
  ⟨⟨_, exec_transfer (base_ready .m5) (base_bus .m5) _ (by decide)⟩, rfl⟩

/-- A transfer of a byte, and one of no byte from a target at rest. -/
theorem witness_TransferLeavesLatches :
    (∃ u, exec (.transfer 0x53#8 [0xA5#8]) (base .m0) = .next u) ∧ [0xA5#8].getLast? = some 0xA5#8 ∧
      (∃ u, exec (.transfer 0x53#8 []) (base .m0) = .next u) ∧
      (base .m0).x.read (busWith .m0).pinSel = some (!(base .m0).cfg.selActive) ∧
      lookup (base .m0).cfg.busReg 0x53#8 = some (busWith .m0) :=
  ⟨⟨_, exec_transfer (base_ready .m0) (base_bus .m0) _ (by decide)⟩, rfl,
    ⟨_, exec_transfer (base_ready .m0) (base_bus .m0) _ (by decide)⟩, by decide, rfl⟩

/-- Loopback as a test. -/
def loopsBack (dout din : Pin) (v : Option Bit) : List Event → Bool
  | [] => true
  | .drv q w :: es => loopsBack dout din (if q = dout then some w else v) es
  | .smp q w :: es => (!decide (q = din) || decide (v = some w)) && loopsBack dout din v es
  | .wt _ :: es => loopsBack dout din v es
  | .wtMs _ :: es => loopsBack dout din v es
  | .rx _ :: es => loopsBack dout din v es
  | .tx _ :: es => loopsBack dout din v es

theorem loopback_of_loopsBack {dout din : Pin} {v : Option Bit} {es : List Event} (h : loopsBack dout din v es = true) :
    loopback dout din v es := by
  induction es generalizing v with
  | nil => trivial
  | cons e es ih =>
    cases e with
    | drv q w => exact ih h
    | smp q w =>
      simp only [loopsBack, Bool.and_eq_true, Bool.or_eq_true, Bool.not_eq_true', decide_eq_true_eq,
        decide_eq_false_iff_not] at h
      exact ⟨fun hq => h.1.resolve_left (fun hn => hn hq), ih h.2⟩
    | wt d => exact ih h
    | wtMs d => exact ih h
    | rx c => exact ih h
    | tx c => exact ih h

/-- A byte exchange in mode 0 and a transfer in mode 5 whose samples return the level of DOUT. -/
theorem witness_LoopbackReturnsOutbound :
    (∃ u evs, exec (.exchangeByte 0x53#8 0xA5#8) (stateWith .m0 2 (bitsOf 0xA5#8)) = .next u ∧
      u.trace = (stateWith .m0 2 (bitsOf 0xA5#8)).trace ++ evs ∧
      loopback 0 1 ((stateWith .m0 2 (bitsOf 0xA5#8)).x.read 0) evs) ∧
    (∃ u evs, exec (.transfer 0x53#8 [0x3C#8]) (stateWith .m5 2 (bitsOf 0x3C#8)) = .next u ∧
      u.trace = (stateWith .m5 2 (bitsOf 0x3C#8)).trace ++ evs ∧
      loopback 0 1 ((stateWith .m5 2 (bitsOf 0x3C#8)).x.read 0) evs) := by
  refine ⟨⟨_, _, exec_exchangeByte (by decide) (b := busWith .m0) rfl _, rfl, ?_⟩,
    ⟨_, _, exec_transfer (by decide) (b := busWith .m5) rfl _ (by decide), rfl, ?_⟩⟩
  · exact loopback_of_loopsBack (by decide +kernel)
  · exact loopback_of_loopsBack (by decide +kernel)

theorem witness_DecodeEncodeRoundTrip :
    Instr.wf (cfgWith .m0 2) (.transfer 0x53#8 [0xFF#8, 0x00#8]) = true ∧
      Instr.wf (cfgWith .m0 2) (.cmdUnknown 0xFF#8 [0x44#8]) = true ∧
      Instr.wf (cfgWith .m3 2) (.bitphaseM3 0x53#8 true) = true := by decide

theorem witness_EncodeDecodeRoundTrip :
    decode .line [0x44#8] = .ok (.cmdD []) ∧ decode .mode [0x05#8, 0x53#8, 0x01#8] = .ok (.bitphaseM5 0x53#8 true) ∧
      decode .op [0x0B#8, 0x43#8] = .ok (.respBare .c) := ⟨rfl, rfl, rfl⟩

/-- Both clauses at their boundaries: 4 and 6, then 3 and 5. -/
theorem witness_ReservedModesRefused :
    ((4 = 4 ∨ 6 ≤ 4) ∧ (6 = 4 ∨ 6 ≤ 6)) ∧ ¬ (3 = 4 ∨ 6 ≤ 3) ∧ ¬ (5 = 4 ∨ 6 ≤ 5) := by decide

theorem witness_HexPayloadRoundTrips : [0x0A#8, 0x1F#8].length ≤ 2 := by decide

/-- Each clause: a configuration that is not well formed; a well-formed one while a transfer runs; an empty line; 3 bytes
with `MAX_TRANSFER_BYTES = 2`; a tag of no target in either registry. -/
theorem witness_OutsideDomainRefused :
    (stateWith .m0 0 []).cfg.wf = false ∧
      (State.cfg { base .m0 with seq := .pre (busWith .m0) }).wf = true ∧
      State.seq { base .m0 with seq := .pre (busWith .m0) } ≠ .idle ∧ (base .m0).ready = true ∧
      lookup (base .m0).cfg.busReg 0x53#8 = some (busWith .m0) ∧
      (base .m0).cfg.maxTransferBytes < [0x00#8, 0x00#8, 0x00#8].length ∧
      lookup (base .m0).cfg.busReg 0x41#8 = none ∧ lookup (base .m0).cfg.outReg 0x53#8 = none := by decide

theorem witness_InitOutEffect :
    (base .m0).ready = true ∧ (base .m0).x.wf ∧ lookup (base .m0).cfg.outReg 0x41#8 = some ⟨4⟩ :=
  ⟨base_ready .m0, resetLatches_wf _, rfl⟩

theorem witness_SetEffect : (base .m0).ready = true ∧ lookup (base .m0).cfg.outReg 0x41#8 = some ⟨4⟩ :=
  ⟨base_ready .m0, rfl⟩

/-- The three clauses, the digits and the bytes next to them (0x2F, 0x30, 0x39, 0x3A). -/
theorem witness_DelayCommand :
    (base .m0).ready = true ∧ [0x30#8, 0x39#8] ≠ [] ∧ (∀ c ∈ [0x30#8, 0x39#8], 0x30 ≤ c.toNat ∧ c.toNat ≤ 0x39) ∧
      (∃ c ∈ [0x30#8, 0x2F#8], ¬ (0x30 ≤ c.toNat ∧ c.toNat ≤ 0x39)) ∧
      (∃ c ∈ [0x3A#8], ¬ (0x30 ≤ c.toNat ∧ c.toNat ≤ 0x39)) := by decide

/-- Two pairs, as many as `MAX_TRANSFER_BYTES`: `aB`, `09`. -/
theorem witness_TransferCommand :
    (base .m0).ready = true ∧ lookup (base .m0).cfg.busReg 0x53#8 = some (busWith .m0) ∧
      [0xAB#8, 0x09#8].length ≤ (base .m0).cfg.maxTransferBytes ∧
      List.Forall₂ (fun p v => ∃ high low, hexval p.1 = some high ∧ hexval p.2 = some low ∧
        v = BitVec.ofNat 8 (16 * high + low)) [(0x61#8, 0x42#8), (0x30#8, 0x39#8)] [0xAB#8, 0x09#8] :=
  ⟨base_ready .m0, rfl, by decide, .cons ⟨10, 11, rfl, rfl, rfl⟩ (.cons ⟨0, 9, rfl, rfl, rfl⟩ .nil)⟩

/-- Every clause: an unregistered tag; the third pair; a bad high digit, a missing low digit, a bad low digit in the
second. -/
theorem witness_TransferCommandErrors :
    (base .m0).ready = true ∧ lookup (base .m0).cfg.busReg 0x5A#8 = none ∧
      lookup (base .m0).cfg.busReg 0x53#8 = some (busWith .m0) ∧
      (∀ p ∈ [(0x30#8, 0x41#8), (0x66#8, 0x46#8)], (hexval p.1).isSome ∧ (hexval p.2).isSome) ∧
      [(0x30#8, 0x41#8), (0x66#8, 0x46#8)].length = (base .m0).cfg.maxTransferBytes ∧
      [(0x30#8, 0x41#8)].length < (base .m0).cfg.maxTransferBytes ∧ hexval 0x47#8 = none ∧
      (hexval 0x39#8).isSome = true ∧ hexval 0x3A#8 = none ∧ hexval 0x2F#8 = none ∧ hexval 0x40#8 = none ∧
      hexval 0x60#8 = none ∧ hexval 0x67#8 = none := by
  refine ⟨base_ready .m0, rfl, rfl, ?_, rfl, by decide, rfl, rfl, rfl, rfl, rfl, rfl, rfl⟩
  simp [hexval]

theorem witness_OutputCommand :
    (base .m0).ready = true ∧ lookup (base .m0).cfg.outReg 0x41#8 = some ⟨4⟩ ∧ lookup (base .m0).cfg.outReg 0x5A#8 = none ∧
      0x32#8 ≠ 0x30#8 ∧ 0x32#8 ≠ 0x31#8 := by decide

theorem witness_CommentCommand : (base .m0).ready = true := base_ready .m0

theorem witness_UnknownCommand : (base .m1).ready = true := base_ready .m1

theorem witness_InvalidLineIdempotent :
    (base .m0).ready = true ∧ lineError (base .m0).cfg [0x54#8, 0x5A#8] = some .badTag := by decide

/-- The five keys, and the bytes next to them that are none (0x43, 0x45; `d` 0x64). -/
theorem witness_DispatchRunsCommand :
    (base .m0).ready = true ∧ keyOf 0x44#8 = .delay ∧ keyOf 0x54#8 = .transfer ∧ keyOf 0x49#8 = .output ∧
      keyOf 0x3B#8 = .comment ∧
      ∀ k ∈ [0x43#8, 0x45#8, 0x64#8], k ≠ 0x44#8 ∧ k ≠ 0x54#8 ∧ k ≠ 0x49#8 ∧ k ≠ 0x3B#8 := by decide

/-- The four clauses: a line and none at a terminator, the accumulator one below its capacity and full. -/
theorem witness_FeedEffect :
    (base .m0).ready = true ∧ State.ready { base .m0 with line := [0x44#8] } = true ∧ (base .m0).line = [] ∧
      State.len { base .m0 with line := List.replicate 5 0x44#8 } < 2 * (base .m0).cfg.maxTransferBytes + 2 ∧
      2 * (base .m0).cfg.maxTransferBytes + 2 ≤ State.len { base .m0 with line := List.replicate 6 0x44#8 } := by decide +kernel

/-- A line one byte longer than `LINE_CAP = 6`. -/
theorem witness_ServiceDispatchesCutLine :
    (base .m0).ready = true ∧ (base .m0).line = [] ∧ List.replicate 7 0x44#8 ≠ [] ∧
      ∀ e ∈ List.replicate 7 0x44#8, e ≠ 0x0A#8 ∧ e ≠ 0x0D#8 := by decide

theorem witness_ServiceDrainsInput :
    State.ready { base .m0 with inq := [0x44#8, 0x0A#8] } = true ∧ (base .m0).ready = true ∧ (base .m0).inq = [] := by
  decide

theorem witness_ServiceInvocationsCompose :
    ∃ u, exec .service { base .m0 with inq := [0x44#8, 0x31#8] } = .next u :=
  ⟨_, exec_service (by decide)⟩

/-- Three pairs with `MAX_TRANSFER_BYTES = 2`. -/
theorem witness_OverlongTransferBothWays :
    (base .m0).ready = true ∧ (base .m0).line = [] ∧ lookup (base .m0).cfg.busReg 0x53#8 = some (busWith .m0) ∧
      0x53#8 ≠ 0x0A#8 ∧ 0x53#8 ≠ 0x0D#8 ∧ (base .m0).cfg.maxTransferBytes < (List.replicate 3 (0x30#8, 0x31#8)).length ∧
      ∀ p ∈ List.replicate 3 (0x30#8, 0x31#8), (hexval p.1).isSome ∧ (hexval p.2).isSome := by
  refine ⟨base_ready .m0, rfl, rfl, by decide, by decide, by decide, ?_⟩
  simp [hexval]

theorem witness_BareResponse : (base .m0).ready = true := base_ready .m0

/-- The last byte of a payload. -/
theorem witness_DataResponse : (base .m0).ready = true ∧ [0x0A#8, 0xFF#8][1]? = some 0xFF#8 := by decide

theorem witness_CommentResponse :
    (base .m0).ready = true ∧ (base .m0).cfg.debug = false ∧
      State.ready { base .m0 with cfg := { cfgWith .m0 2 with debug := true } } = true := by decide

theorem witness_BannerResponse :
    (base .m0).ready = true ∧ (base .m0).cfg.debug = false ∧
      State.ready { base .m0 with cfg := { cfgWith .m0 2 with debug := true } } = true := by decide

/-- A call of SERVICE on the call port; the table word of WAIT_HALF. -/
theorem witness_StepRunsCalledInstruction :
    State.ready { base .m0 with calls := [⟨.op, [0x08#8]⟩] } = true ∧ decode .op [0x08#8] = .ok .service ∧
      (base .m0).cfg.wf = true ∧ decodeTableWord 8 0x05 = some (.waitHalf 0x00#8) :=
  ⟨by decide, rfl, by decide, rfl⟩

/-- `TS00` at its terminator starts a transfer; `TZ` and `D` do not. -/
theorem witness_StepRunsDecodedLine :
    State.ready { base .m0 with line := [0x54#8, 0x53#8, 0x30#8, 0x30#8], inq := [0x0D#8] } = true ∧
      decodeLine [0x54#8, 0x53#8, 0x30#8, 0x30#8] = .ok (.cmdT [0x53#8, 0x30#8, 0x30#8]) ∧
      parseTransfer (base .m0).cfg [0x53#8, 0x30#8, 0x30#8] = .ok (busWith .m0, [0x00#8]) ∧
      decodeLine [0x54#8, 0x5A#8] = .ok (.cmdT [0x5A#8]) ∧ parseTransfer (base .m0).cfg [0x5A#8] = .error .badTag ∧
      decodeLine [0x44#8] = .ok (.cmdD []) :=
  ⟨by decide, rfl, rfl, rfl, rfl, rfl⟩

/-- Nothing to read; a terminator on an empty line; a content byte below the capacity and at it. -/
theorem witness_StepWithoutLine :
    (base .m0).ready = true ∧ (base .m0).calls = [] ∧ (base .m0).inq = [] ∧ (base .m0).line = [] ∧
      State.ready { base .m0 with inq := [0x0A#8] } = true ∧
      State.ready { base .m0 with inq := [0x41#8], line := List.replicate 5 0x44#8 } = true ∧
      State.ready { base .m0 with inq := [0x41#8], line := List.replicate 6 0x44#8 } = true ∧ 0x41#8 ≠ 0x0A#8 ∧
      0x41#8 ≠ 0x0D#8 := by decide +kernel

/-- Before SELECT_ASSERT, with one outbound byte. -/
def atPre : State := { base .m0 with seq := .pre (busWith .m0), buf := some [0xA5#8] }

/-- Before action `j` of bit `k` of the only byte. -/
def atAction (k j : Nat) : State :=
  { base .m0 with seq := .xfer (busWith .m0) 0 k j, buf := some [0xA5#8], tx := some 0xA5#8, rx := some 0#8 }

/-- Before SELECT_DEASSERT. -/
def atEnd : State := { base .m0 with seq := .xfer (busWith .m0) 1 7 0, buf := some [0xC3#8] }

theorem base_inv (m : Mode) : (base m).Inv :=
  ⟨by cases m <;> decide, resetLatches_wf _, resetDirs_wf _, ⟨Nat.zero_le _, rfl⟩, rfl, rfl, rfl⟩

theorem base_registered (m : Mode) : isRegistered (base m).cfg (busWith m) := ⟨0x53#8, List.mem_cons_self⟩

theorem atPre_inv : atPre.Inv :=
  { base_inv .m0 with seq := ⟨base_registered .m0, rfl, rfl, _, rfl, by decide⟩ }

theorem atAction_inv (k j : Nat) (hk : k ≤ 7) (hj : j < 6) : (atAction k j).Inv :=
  { base_inv .m0 with
    seq := ⟨base_registered .m0, _, rfl, Nat.le_of_ble_eq_true rfl, Nat.zero_le _, hk, hj, rfl, by simp [atAction],
      fun h => by simp at h⟩ }

theorem atEnd_inv : atEnd.Inv :=
  { base_inv .m0 with
    seq := ⟨base_registered .m0, _, rfl, by decide, by decide, by decide, by decide, rfl, by decide,
      fun _ => ⟨rfl, rfl⟩⟩ }

/-- The accumulated line `IA1` at its terminator. -/
def atLevel : State := { base .m0 with line := [0x49#8, 0x41#8, 0x31#8], inq := [0x0A#8] }

theorem atLevel_inv : atLevel.Inv := { base_inv .m0 with line := ⟨by decide, by decide⟩, seq := ⟨rfl, rfl, rfl⟩ }

/-- A transfer, and a SERVICE that dispatches an I line (its last byte the terminator) and a comment; a step at the
terminator of an I line, and the last step of a transfer. -/
theorem witness_OnlySetWritesOutput :
    lookup (base .m0).cfg.outReg 0x41#8 = some ⟨4⟩ ∧
      (∃ u, exec (.transfer 0x53#8 [0xA5#8]) (base .m0) = .next u) ∧
      (∃ u, exec .service { base .m0 with inq := [0x49#8, 0x41#8, 0x31#8, 0x0A#8] } = .next u) ∧
      linesOf 6 [] [0x49#8, 0x41#8, 0x31#8, 0x0A#8] = [[0x49#8, 0x41#8, 0x31#8]] ∧
      (∃ u, exec .service { base .m0 with inq := [0x3B#8, 0x0D#8] } = .next u) ∧
      linesOf 6 [] [0x3B#8, 0x0D#8] = [[0x3B#8]] ∧
      (atLevel.Inv ∧ atLevel.calls = [] ∧ ∃ u, step atLevel = .next u) ∧
      (atEnd.Inv ∧ atEnd.calls = [] ∧ ∃ u, step atEnd = .next u) :=
  ⟨rfl, ⟨_, exec_transfer (base_ready .m0) (base_bus .m0) _ (by decide)⟩, ⟨_, exec_service (by decide)⟩, rfl,
    ⟨_, exec_service (by decide)⟩, rfl, ⟨atLevel_inv, rfl, _, rfl⟩, ⟨atEnd_inv, rfl, _, step_of_end (by decide) rfl rfl⟩⟩

/-- Every clause: `PRE`; an action before the last one, the last action of bit 1, the last action of bit 0; the end. -/
theorem witness_SequencerStep :
    (atPre.Inv ∧ atPre.buf = some [0xA5#8] ∧ atPre.seq = .pre (busWith .m0)) ∧
      ((atAction 7 0).Inv ∧ (atAction 7 0).seq = .xfer (busWith .m0) 0 7 0 ∧ 0 + 1 < (actions .m0).length) ∧
      ((atAction 1 5).Inv ∧ (atAction 1 5).seq = .xfer (busWith .m0) 0 1 5 ∧ 5 + 1 = (actions .m0).length) ∧
      ((atAction 0 5).Inv ∧ (atAction 0 5).seq = .xfer (busWith .m0) 0 0 5) ∧
      ([0xA5#8][0]?.map fun v => bitAt v 0) = some true ∧
      (atEnd.Inv ∧ atEnd.buf = some [0xC3#8] ∧ atEnd.seq = .xfer (busWith .m0) [0xC3#8].length 7 0) :=
  ⟨⟨atPre_inv, rfl, rfl⟩, ⟨atAction_inv 7 0 (by decide) (by decide), rfl, by decide⟩,
    ⟨atAction_inv 1 5 (by decide) (by decide), rfl, by decide⟩,
    ⟨atAction_inv 0 5 (by decide) (by decide), rfl⟩, rfl, ⟨atEnd_inv, rfl, rfl⟩⟩

/-- A line of one byte, and one of none. -/
theorem witness_SequencerRunsTransfer :
    (base .m5).Inv ∧ (base .m5).seq = .idle ∧
      parseTransfer (base .m5).cfg [0x53#8, 0x61#8, 0x42#8] = .ok (busWith .m5, [0xAB#8]) ∧
      parseTransfer (base .m5).cfg [0x53#8] = .ok (busWith .m5, []) := ⟨base_inv .m5, rfl, rfl, rfl⟩

/-- In the middle of a transfer, at its end, and idle. -/
theorem witness_StepKeepsInvariant :
    ((atAction 0 5).Inv ∧ ∃ t, step (atAction 0 5) = .next t) ∧ (atEnd.Inv ∧ ∃ t, step atEnd = .next t) ∧
      ((base .m0).Inv ∧ ∃ t, step (base .m0) = .next t) :=
  ⟨⟨atAction_inv 0 5 (by decide) (by decide), _, step_of_action (by decide) rfl rfl rfl rfl⟩,
    ⟨atEnd_inv, _, step_of_end (by decide) rfl rfl⟩, ⟨base_inv .m0, base .m0, rfl⟩⟩

theorem base_latches (m : Mode) : latchesOk (base m) := by
  intro b hb
  obtain ⟨h1, h2, h3⟩ := resetLatches_bus (cfg := cfgWith m 2) (by cases m <;> decide) hb
  exact ⟨h1, h2, by rw [show (base m).x = resetLatches (cfgWith m 2) from rfl, h3]; rfl⟩

/-- An idle machine, and one about to start a transfer. -/
theorem witness_HostDrivenLatchInvariant : (base .m2).HostInv ∧ atPre.HostInv :=
  ⟨⟨base_inv .m2, rfl, base_latches .m2⟩, ⟨atPre_inv, rfl, base_latches .m0⟩⟩

/-- The hypothesis of StartStateMeetsInvariants, StartUpReachesReset and ResetTable, with a member of each registry. -/
theorem witness_StartStateMeetsInvariants :
    (cfgWith .m2 1).wf = true ∧ (0x53#8, busWith .m2) ∈ (cfgWith .m2 1).busReg ∧ (0x41#8, ⟨4⟩) ∈ (cfgWith .m2 1).outReg := by
  decide

theorem witness_StartUpReachesReset : (cfgWith .m5 1).wf = true := by decide

theorem witness_ResetTable :
    (cfgWith .m1 1).wf = true ∧ (0x53#8, busWith .m1) ∈ (cfgWith .m1 1).busReg ∧ (0x41#8, ⟨4⟩) ∈ (cfgWith .m1 1).outReg := by
  decide

theorem witness_HostActionsKeepInvariants : (base .m0).Inv ∧ (base .m0).HostInv :=
  ⟨base_inv .m0, base_inv .m0, rfl, base_latches .m0⟩

theorem witness_StepExtendsHistory : ∃ t, step (atAction 7 0) = .next t :=
  ⟨_, step_of_action (by decide) rfl rfl rfl rfl⟩

/-- Before the first action of a transfer and at its end. -/
theorem witness_InputWaitsDuringTransfer :
    (atPre.seq ≠ .idle ∧ ∃ t, step atPre = .next t) ∧ (atEnd.seq ≠ .idle ∧ ∃ t, step atEnd = .next t) :=
  ⟨⟨by decide, _, step_of_pre (by decide) rfl⟩, ⟨by decide, _, step_of_end (by decide) rfl rfl⟩⟩

/-- A line in error, a data response and the banner, with the flag off and on. -/
theorem witness_DebugChangesOnlyComments :
    (∃ u, exec (.cmdUnknown 0x58#8 []) ((base .m0).withDebug false) = .next u) ∧
      (∃ u, exec (.respData [0xA5#8]) ((base .m0).withDebug true) = .next u) ∧
      ∃ u, exec .banner ((base .m0).withDebug true) = .next u :=
  ⟨⟨_, exec_cmdUnknown (by decide) _ _⟩, ⟨_, exec_respData (by decide) _⟩, ⟨_, exec_banner (by decide)⟩⟩

/-- The comment lines of an error and of the banner, and no other, tell `DEBUG` on from off (60_exceptions.md R212). -/
theorem test_debug_traces :
    DebugTraces (cfgWith .m0 2) .banner ([0x3B#8, 0x0A#8].map .tx) [] ∧
      ¬ DebugTraces (cfgWith .m0 2) .service ([0x53#8, 0x0A#8].map .tx) ([0x45#8, 0x0A#8].map .tx) :=
  ⟨.comment [] (.inr ⟨rfl, rfl⟩) .nil, fun h => by cases h⟩

theorem witness_LatchHoldsLastDrive :
    (∃ u, exec (.setOut 0x41#8 true) (base .m0) = .next u) ∧ (∀ t, Instr.setOut 0x41#8 true ≠ .initBus t) ∧
      ∀ t, Instr.setOut 0x41#8 true ≠ .initOut t :=
  ⟨⟨_, exec_setOut (base_ready .m0) (base_out .m0) _⟩, by simp, by simp⟩

end Sys2Proof.Tests
end

section
/-! PROOFS. The scope of the model (00_scope.md): which configurations and states have a meaning, and what a step runs. -/

namespace Sys2Proof.Machine

variable {s : State}

/-! ### The conditions every operation shares: the refusals -/

theorem whenReady_illFormed (h : s.cfg.wf = false) (k : State → Result) :
    whenReady s k = .refused .illFormedConfig := by
  simp [whenReady, h]

theorem whenReady_busy (h : s.cfg.wf = true) (hq : s.seq ≠ .idle) (k : State → Result) :
    whenReady s k = .refused .busy := by
  simp [whenReady, h, hq]

theorem onBus_of_none (h : s.ready = true) {g : Tag} (hb : lookup s.cfg.busReg g = none)
    (k : BusTarget → State → Result) : onBus g s k = .refused .noSuchTarget := by
  simp [onBus, whenReady_of_ready h, hb]

theorem onOut_of_none (h : s.ready = true) {g : Tag} (ho : lookup s.cfg.outReg g = none)
    (k : OutputTarget → State → Result) : onOut g s k = .refused .noSuchTarget := by
  simp [onOut, whenReady_of_ready h, ho]

/-- Every instruction stands behind the one guard `whenReady`. -/
theorem exec_eq_whenReady (i : Instr) : ∃ k, ∀ s, exec i s = whenReady s k := by
  cases i <;> exact ⟨_, fun _ => rfl⟩

theorem exec_illFormed (h : s.cfg.wf = false) (i : Instr) : exec i s = .refused .illFormedConfig := by
  obtain ⟨k, hk⟩ := exec_eq_whenReady i
  rw [hk, whenReady_illFormed h]

theorem exec_busy (h : s.cfg.wf = true) (hq : s.seq ≠ .idle) (i : Instr) : exec i s = .refused .busy := by
  obtain ⟨k, hk⟩ := exec_eq_whenReady i
  rw [hk, whenReady_busy h hq]

theorem exec_dispatch_nil (h : s.ready = true) : exec (.dispatch []) s = .refused .emptyLine := by
  simp only [exec, execDispatch, whenReady_of_ready h]

theorem exec_transfer_tooLong (h : s.ready = true) {g : Tag} {b : BusTarget} (hb : lookup s.cfg.busReg g = some b)
    {out : List Byte} (hl : s.cfg.maxTransferBytes < out.length) :
    exec (.transfer g out) s = .refused .transferTooLong := by
  simp only [exec, execTransfer, onBus_of_ready h hb, if_neg (Nat.not_le_of_lt hl)]

theorem step_illFormed (h : s.cfg.wf = false) : step s = .refused .illFormedConfig := by
  simp [step, runStep, h]

theorem startUp_illFormed {cfg : Config} (h : cfg.wf = false) : startUp cfg = .refused .illFormedConfig := by
  simp [startUp, h]

/-- Settles O9: the shared guard refuses the configuration and a running transfer, the lookup a tag of no target. -/
theorem outsideDomainRefused : Obligations.OutsideDomainRefused := by
  intro i s
  refine ⟨fun h => ⟨exec_illFormed h i, step_illFormed h, startUp_illFormed h⟩,
    fun h hq => exec_busy h hq i, ?_, ?_, ?_, ?_⟩
  · rintro hs rfl
    exact exec_dispatch_nil hs
  · rintro t b out hs hb hl rfl
    exact exec_transfer_tooLong hs hb hl
  · intro t d v out hs hb hi
    simp only [List.mem_cons, List.not_mem_nil, or_false] at hi
    rcases hi with rfl | rfl | rfl | rfl | rfl | rfl | rfl | rfl | rfl | rfl | rfl
    all_goals
      simp only [exec, execInitBus, execSelectAssert, execSelectDeassert, execWaitHalf, execExchangeByte, execTransfer,
        execBitphaseM0, execBitphaseM1, execBitphaseM2, execBitphaseM3, execBitphaseM5, onBus_of_none hs hb]
  · intro t level hs ho hi
    simp only [List.mem_cons, List.not_mem_nil, or_false] at hi
    rcases hi with rfl | rfl
    all_goals simp only [exec, execInitOut, execSetOut, onOut_of_none hs ho]

/-! ### Well-formed configurations -/

theorem ratesPositive_iff {cfg : Config} :
    cfg.ratesPositive = true ↔ ∀ t b, (t, b) ∈ cfg.busReg → 0 < b.bitRate := by
  simp [Config.ratesPositive]

theorem rangesOk_iff {cfg : Config} : cfg.rangesOk = true ↔ 0 < cfg.tickHz ∧ 0 < cfg.delayWidth := by
  simp [Config.rangesOk]

/-- The list in `textsOk` leaves out no diagnostic. -/
theorem textsOk_iff {cfg : Config} :
    cfg.textsOk = true ↔ textOk cfg.bannerText = true ∧ ∀ d, textOk (diagBytes cfg.diagText d) = true := by
  simp only [Config.textsOk, Bool.and_eq_true, List.all_eq_true]
  refine and_congr_right fun _ => ⟨fun h d => h d ?_, fun h d _ => h d⟩
  cases d <;> decide

/-- Settles O8: `Config.wf` condition by condition. -/
theorem wellFormedConfigConditions : Obligations.WellFormedConfigConditions := by
  intro cfg
  rw [Config.wf_iff, ratesPositive_iff, rangesOk_iff, textsOk_iff, and_assoc]

/-! ### What a step runs -/

/-- On a ready machine the oldest call is decoded and executed. -/
theorem step_of_call (h : s.ready = true) {c : Call} {rest : List Call} (hc : s.calls = c :: rest) :
    step s = runCall c { s with calls := rest } := by
  obtain ⟨hw, hq⟩ := ready_iff.1 h
  simp [step, runStep, idleStep, hw, hq, hc]

/-- On a ready machine without a call the oldest byte is fed to the Line Framer. -/
theorem step_of_byte (h : s.ready = true) (hc : s.calls = []) {c : Byte} {rest : List Byte} (hi : s.inq = c :: rest) :
    step s = pollByte c s := by
  obtain ⟨hw, hq⟩ := ready_iff.1 h
  simp [step, runStep, idleStep, hw, hq, hc, hi]

/-- A ready machine with nothing to do stays as it is. -/
theorem step_of_nothing (h : s.ready = true) (hc : s.calls = []) (hi : s.inq = []) : step s = .next s := by
  obtain ⟨hw, hq⟩ := ready_iff.1 h
  simp [step, runStep, idleStep, hw, hq, hc, hi]

theorem runCall_of_decode {c : Call} {i : Instr} (h : decode c.format c.bytes = .ok i) : runCall c s = exec i s := by
  simp [runCall, h]

theorem decode_of_decodeTableWord {nbits w : Nat} {i : Instr} (h : decodeTableWord nbits w = some i) :
    decode (tableBytes nbits w).1 (tableBytes nbits w).2 = .ok i := by
  unfold decodeTableWord at h
  split at h
  next hd => rw [hd, Option.some.inj h]
  next => cases h

/-- Settles O45: a placed word is the oldest call of an idle machine. -/
theorem stepRunsCalledInstruction : Obligations.StepRunsCalledInstruction := by
  have called : ∀ (s : State) (c : Call) (rest : List Call) (i : Instr), s.ready = true → s.calls = c :: rest →
      decode c.format c.bytes = .ok i → step s = exec i { s with calls := rest } := by
    intro s c rest i hs hc hd
    rw [step_of_call hs hc, runCall_of_decode hd]
  refine ⟨called, fun s nbits w i hw hd => ?_⟩
  exact called (s.withFetchWord nbits w) ⟨_, _⟩ s.calls i (ready_iff.2 ⟨hw, rfl⟩) rfl (decode_of_decodeTableWord hd)

end Sys2Proof.Machine
end

section
/-! PROOFS. Every step keeps the invariant: the operations of an idle machine, then the sequencer, then the inversion
of a step. -/

namespace Sys2Proof.Machine

variable {s t u : State}

/-! ### The invariant by parts -/

/-- The registers of the sequencer while bit `k`, action `j` of byte `i` of the payload `l` comes next. -/
structure XferOk (s : State) (b : BusTarget) (i k j : Nat) (l : List Byte) : Prop where
  registered : isRegistered s.cfg b
  buf : s.buf = some l
  bound : l.length ≤ s.cfg.maxTransferBytes
  index : i ≤ l.length
  bit : k ≤ 7
  action : j < (actions b.mode).length
  tx : s.tx = l[i]?
  rx : s.rx.isSome ↔ i < l.length
  atEnd : i = l.length → k = 7 ∧ j = 0

theorem seqOk_idle (h : s.seq = .idle) : seqOk s ↔ s.buf = none ∧ s.tx = none ∧ s.rx = none := by
  simp [seqOk, h]

theorem seqOk_of_idle (h : s.seq = .idle) (hb : s.buf = none) (ht : s.tx = none) (hr : s.rx = none) : seqOk s :=
  (seqOk_idle h).2 ⟨hb, ht, hr⟩

theorem seqOk_pre {b : BusTarget} (h : s.seq = .pre b) :
    seqOk s ↔ isRegistered s.cfg b ∧ s.tx = none ∧ s.rx = none ∧
      ∃ l, s.buf = some l ∧ l.length ≤ s.cfg.maxTransferBytes := by
  simp [seqOk, h]

theorem seqOk_xfer {b : BusTarget} {i k j : Nat} (h : s.seq = .xfer b i k j) : seqOk s ↔ ∃ l, XferOk s b i k j l := by
  simp only [seqOk, h]
  constructor
  · rintro ⟨hb, l, h1, h2, h3, h4, h5, h6, h7, h8⟩
    exact ⟨l, hb, h1, h2, h3, h4, h5, h6, h7, h8⟩
  · rintro ⟨l, hb, h1, h2, h3, h4, h5, h6, h7, h8⟩
    exact ⟨hb, l, h1, h2, h3, h4, h5, h6, h7, h8⟩

theorem State.Inv.ready (h : s.Inv) (hq : s.seq = .idle) : s.ready = true := ready_iff.2 ⟨h.cfgOk, hq⟩

/-- An update that leaves the configuration and the accumulator keeps the invariant if the pin maps stay canonical and
the sequencer's registers agree after it. -/
theorem State.Inv.update (h : s.Inv) (hc : u.cfg = s.cfg) (hl : u.line = s.line) (hx : u.x.wf) (hd : u.dir.wf)
    (hq : seqOk u) : u.Inv where
  cfgOk := by rw [hc]; exact h.cfgOk
  xWf := hx
  dirWf := hd
  line := by
    obtain ⟨h1, h2⟩ := h.line
    exact ⟨by rwa [State.len, hl, hc], by rwa [hl]⟩
  seq := hq

/-- A command line on an idle machine keeps the invariant if the latches stay canonical. -/
theorem LineFrame.inv (f : LineFrame s u) (h : s.Inv) (hq : s.seq = .idle) (hx : u.x.wf) : u.Inv := by
  obtain ⟨hb, ht, hr⟩ := (seqOk_idle hq).1 h.seq
  refine h.update f.cfg f.line hx (by rw [f.dir]; exact h.dirWf) ?_
  exact seqOk_of_idle (f.seq.trans hq) (f.buf.elim (·.trans hb) id) (f.tx.elim (·.trans ht) id)
    (f.rx.elim (·.trans hr) id)

/-! ### The operations, whatever the sequencer does -/

theorem setRet_inv (r : Ret) (h : s.Inv) : (setRet r s).Inv := h.update rfl rfl h.xWf h.dirWf h.seq

theorem rxByte_inv (c : Byte) (h : s.Inv) : (rxByte c s).Inv := h.update rfl rfl h.xWf h.dirWf h.seq

theorem drive_inv (p : Pin) (v : Bit) (h : s.Inv) : (drive p v s).Inv :=
  h.update rfl rfl (PinMap.wf_write h.xWf p v) h.dirWf h.seq

theorem doWaitHalf_inv (b : BusTarget) (h : s.Inv) : (doWaitHalf b s).Inv := h.update rfl rfl h.xWf h.dirWf h.seq

theorem sample_inv (p : Pin) (h : s.Inv) : (sample p s).1.Inv := h.update rfl rfl h.xWf h.dirWf h.seq

theorem sendBytes_inv (bs : List Byte) (h : s.Inv) : (sendBytes bs s).Inv := by
  rw [sendBytes_eq]
  exact h.update rfl rfl h.xWf h.dirWf h.seq

theorem doInitBus_inv (b : BusTarget) (h : s.Inv) : (doInitBus b s).Inv :=
  h.update rfl rfl (initBusLatches_wf _ b h.xWf) (initBusDirs_wf b h.dirWf) h.seq

theorem doInitOut_inv (o : OutputTarget) (h : s.Inv) : (doInitOut o s).Inv :=
  h.update rfl rfl (PinMap.wf_clear h.xWf _) (PinMap.wf_write h.dirWf _ _) h.seq

theorem act_inv (b : BusTarget) (d : Bit) (a : Action) (h : s.Inv) : (act b d a s).1.Inv := by
  cases a with
  | driveBit => exact drive_inv _ _ h
  | wait => exact doWaitHalf_inv b h
  | sample => exact sample_inv _ h
  | clockHigh => exact drive_inv _ _ h
  | clockLow => exact drive_inv _ _ h

theorem doBitPhase_inv (m : Mode) (b : BusTarget) (d : Bit) (h : s.Inv) : (doBitPhase m b d s).1.Inv := by
  rw [doBitPhase_eq]
  exact h.update rfl rfl (phaseLatches_wf m b d h.xWf) h.dirWf h.seq

/-- FEED keeps the accumulator within its capacity and free of terminators (10_state.md R33, 42_command_front_end.md
R153). -/
theorem doFeed_lineOk (c : Byte) (h : lineOk s) : lineOk (doFeed c s) := by
  obtain ⟨hlen, htext⟩ := h
  unfold doFeed
  split_ifs with ht hlt
  · exact ⟨Nat.zero_le _, rfl⟩
  · refine ⟨?_, ?_⟩
    · simpa [State.len] using hlt
    · simpa [textOk, ht] using htext
  · exact ⟨hlen, htext⟩

theorem doFeed_eq (c : Byte) (s : State) : doFeed c s = { s with line := (doFeed c s).line } := by
  unfold doFeed
  split_ifs <;> rfl

theorem doFeed_inv (c : Byte) (h : s.Inv) : (doFeed c s).Inv := by
  have hl := doFeed_lineOk c h.line
  rw [doFeed_eq] at hl ⊢
  exact ⟨h.cfgOk, h.xWf, h.dirWf, hl, h.seq⟩

/-! ### The operations of an idle machine -/

theorem doExchange_inv (b : BusTarget) (v : Byte) (h : s.Inv) (hq : s.seq = .idle) : (doExchange b v s).1.Inv := by
  obtain ⟨hb, -, -⟩ := (seqOk_idle hq).1 h.seq
  rw [doExchange_state]
  exact h.update rfl rfl (bitsLatches_wf b v 8 h.xWf) h.dirWf (seqOk_of_idle hq hb rfl rfl)

theorem doTransfer_inv (b : BusTarget) (out : List Byte) (h : s.Inv) (hq : s.seq = .idle) :
    (doTransfer b out s).1.Inv := by
  obtain ⟨hb, ht, hr⟩ := (seqOk_idle hq).1 h.seq
  rw [doTransfer_state]
  refine h.update rfl rfl (transferLatches_wf b _ out h.xWf) h.dirWf (seqOk_of_idle hq hb ?_ ?_)
  · simp [ht]
  · simp [hr]

theorem raiseError_xWf (d : Diag) (hx : s.x.wf) : (raiseError d s).x.wf := by
  rw [raiseError_eq]
  exact hx

theorem doCmdD_xWf (arg : List Byte) (hx : s.x.wf) : (doCmdD arg s).x.wf := by
  unfold doCmdD
  split
  · exact raiseError_xWf _ hx
  · simpa [sendBare] using hx

theorem doCmdT_xWf (arg : List Byte) (hx : s.x.wf) : (doCmdT arg s).x.wf := by
  unfold doCmdT
  split
  · exact raiseError_xWf _ hx
  · simpa [sendData, doTransfer_state] using transferLatches_wf _ _ _ hx

theorem doCmdI_xWf (arg : List Byte) (hx : s.x.wf) : (doCmdI arg s).x.wf := by
  unfold doCmdI
  split
  · exact raiseError_xWf _ hx
  · exact PinMap.wf_write hx _ _

theorem doDispatch_xWf (key : Byte) (arg : List Byte) (hx : s.x.wf) : (doDispatch key arg s).x.wf := by
  unfold doDispatch
  split
  · exact doCmdD_xWf arg hx
  · exact doCmdT_xWf arg hx
  · exact doCmdI_xWf arg hx
  · exact hx
  · exact raiseError_xWf _ hx

theorem doDispatch_inv (key : Byte) (arg : List Byte) (h : s.Inv) (hq : s.seq = .idle) : (doDispatch key arg s).Inv :=
  (doDispatch_frame key arg s).inv h hq (doDispatch_xWf key arg h.xWf)

theorem runLine_inv (l : Option (List Byte)) (h : s.Inv) (hq : s.seq = .idle) : (runLine l s).Inv := by
  unfold runLine
  split
  · exact h
  · exact h
  · exact doDispatch_inv _ _ h hq

theorem doFeed_seq (c : Byte) (s : State) : (doFeed c s).seq = s.seq := by rw [doFeed_eq]

theorem serviceByte_inv (c : Byte) (h : s.Inv) (hq : s.seq = .idle) : (serviceByte c s).Inv :=
  runLine_inv _ (doFeed_inv c (rxByte_inv c h)) ((doFeed_seq c _).trans hq)

theorem serviceAll_inv (cs : List Byte) (h : s.Inv) (hq : s.seq = .idle) : (serviceAll cs s).Inv := by
  induction cs generalizing s with
  | nil => exact h
  | cons c cs ih => exact ih (serviceByte_inv c h hq) ((serviceByte_seq c s).trans hq)

/-- Every instruction keeps the invariant on an idle machine. -/
theorem Ran.inv {i : Instr} (r : Ran s i u) (h : s.Inv) (hq : s.seq = .idle) : u.Inv := by
  cases r with
  | cmdD arg => exact (doCmdD_frame arg s).inv h hq (doCmdD_xWf arg h.xWf)
  | cmdT arg => exact (doCmdT_frame arg s).inv h hq (doCmdT_xWf arg h.xWf)
  | cmdI arg => exact (doCmdI_frame arg s).inv h hq (doCmdI_xWf arg h.xWf)
  | cmdComment arg => exact h
  | cmdUnknown key rest => exact (raiseError_frame _ s).inv h hq (raiseError_xWf _ h.xWf)
  | service => exact serviceAll_inv _ h hq
  | feed c => exact setRet_inv _ (doFeed_inv c h)
  | dispatch key arg => exact doDispatch_inv key arg h hq
  | respBare r => exact sendBytes_inv _ h
  | respData payload => exact sendBytes_inv _ h
  | respComment text => exact sendBytes_inv _ h
  | banner => exact sendBytes_inv _ h
  | bitphaseM0 t b hb d => exact setRet_inv _ (doBitPhase_inv _ b d h)
  | bitphaseM1 t b hb d => exact setRet_inv _ (doBitPhase_inv _ b d h)
  | bitphaseM2 t b hb d => exact setRet_inv _ (doBitPhase_inv _ b d h)
  | bitphaseM3 t b hb d => exact setRet_inv _ (doBitPhase_inv _ b d h)
  | bitphaseM5 t b hb d => exact setRet_inv _ (doBitPhase_inv _ b d h)
  | initBus t b hb => exact doInitBus_inv b h
  | selectAssert t b hb => exact drive_inv _ _ h
  | selectDeassert t b hb => exact drive_inv _ _ h
  | transfer t b hb out hl => exact setRet_inv _ (doTransfer_inv b out h hq)
  | exchangeByte t b hb tx => exact setRet_inv _ (doExchange_inv b tx h hq)
  | waitHalf t b hb => exact doWaitHalf_inv b h
  | initOut t o ho => exact doInitOut_inv o h
  | setOut t o ho level => exact drive_inv _ _ h

theorem exec_inv {i : Instr} (h : s.Inv) (he : exec i s = .next u) : u.Inv := by
  obtain ⟨hs, r⟩ := exec_next he
  exact r.inv h (ready_iff.1 hs).2

/-! ### The start of a transfer -/

/-- A payload that parses from byte number `n` on ends within the bound (42_command_front_end.md R157); every
other way to scan a pair ends in an error. -/
theorem parsePairs_length {max n : Nat} {cs out : List Byte} (hn : n ≤ max) (h : parsePairs max n cs = .ok out) :
    n + out.length ≤ max := by
  induction n, cs using parsePairs.induct max generalizing out with
  | case1 n =>
    cases h
    exact hn
  | case9 n c d rest hne x y hy hx bytes hrest ih =>
    simp only [parsePairs, if_neg hne, hx, hy, hrest, Except.ok.injEq] at h
    have := ih (by omega) hrest
    rw [← h, List.length_cons]
    omega
  | _ => simp_all [parsePairs]

theorem parseTransfer_ok {cfg : Config} {arg out : List Byte} {b : BusTarget}
    (h : parseTransfer cfg arg = .ok (b, out)) : isRegistered cfg b ∧ out.length ≤ cfg.maxTransferBytes := by
  unfold parseTransfer at h
  split at h
  · cases h
  split at h
  · cases h
  next hb =>
    split at h
    · cases h
    next hp =>
      cases h
      exact ⟨registered_of_lookup hb, by simpa using parsePairs_length (Nat.zero_le _) hp⟩

theorem transferOf_some {i : Instr} {r : BusTarget × List Byte} (h : transferOf i s = some r) :
    isRegistered s.cfg r.1 ∧ r.2.length ≤ s.cfg.maxTransferBytes := by
  unfold transferOf at h
  split at h
  · split at h
    next hp =>
      cases h
      exact parseTransfer_ok hp
    next => cases h
  · cases h

theorem beginTransfer_inv {b : BusTarget} {out : List Byte} (h : s.Inv) (hq : s.seq = .idle)
    (hb : isRegistered s.cfg b) (hl : out.length ≤ s.cfg.maxTransferBytes) : (beginTransfer b out s).Inv := by
  obtain ⟨-, ht, hr⟩ := (seqOk_idle hq).1 h.seq
  exact h.update rfl rfl h.xWf h.dirWf ((seqOk_pre rfl).2 ⟨hb, ht, hr, out, rfl, hl⟩)

theorem issue_inv {i : Instr} (h : s.Inv) (hq : s.seq = .idle) (hi : issue i s = .next u) : u.Inv := by
  unfold issue at hi
  split at hi
  next r hr =>
    obtain ⟨hb, hl⟩ := transferOf_some hr
    cases hi
    exact beginTransfer_inv h hq hb hl
  next => exact exec_inv h hi

theorem issueLine_inv {l : Option (List Byte)} (h : s.Inv) (hq : s.seq = .idle) (hi : issueLine l s = .next u) :
    u.Inv := by
  unfold issueLine at hi
  split at hi
  · cases hi
    exact h
  · split at hi
    · exact issue_inv h hq hi
    · cases hi

theorem pollByte_inv {c : Byte} (h : s.Inv) (hq : s.seq = .idle) (hp : pollByte c s = .next u) : u.Inv :=
  issueLine_inv (doFeed_inv c (rxByte_inv c h)) ((doFeed_seq c _).trans hq) hp

theorem runCall_inv {c : Call} (h : s.Inv) (hr : runCall c s = .next u) : u.Inv := by
  unfold runCall at hr
  split at hr
  · exact exec_inv h hr
  · cases hr

/-- The calls that wait are no part of the invariant. -/
theorem setCalls_inv (calls : List Call) (h : s.Inv) : { s with calls := calls }.Inv :=
  h.update rfl rfl h.xWf h.dirWf h.seq

/-! ### The sequencer -/

theorem actions_length_pos (m : Mode) : 0 < (actions m).length := by cases m <;> decide

/-- A byte of the payload begins in agreement: `tx` and `rx` exist unless the payload is at its end (10_state.md
R31). -/
theorem enterByte_xferOk {b : BusTarget} {i : Nat} {l : List Byte} (hb : isRegistered s.cfg b) (hl : s.buf = some l)
    (hm : l.length ≤ s.cfg.maxTransferBytes) (hi : i ≤ l.length) : XferOk (enterByte b i s) b i 7 0 l where
  registered := hb
  buf := hl
  bound := hm
  index := hi
  bit := Nat.le_refl 7
  action := actions_length_pos b.mode
  tx := by simp [enterByte, bufByte, hl]
  rx := by simp [enterByte, bufByte, hl]
  atEnd := fun _ => ⟨rfl, rfl⟩

section
variable {b : BusTarget} {i k j : Nat} {l : List Byte}

/-- `tx` exists exactly while a byte is left. -/
theorem XferOk.lt_of_tx {v : Byte} (x : XferOk s b i k j l) (ht : s.tx = some v) : i < l.length :=
  (List.getElem?_eq_some_iff.1 (x.tx.symm.trans ht)).1

theorem XferOk.rx_none (x : XferOk s b i k j l) (ht : s.tx = none) : s.rx = none := by
  have hi : l.length ≤ i := List.getElem?_eq_none_iff.1 (x.tx.symm.trans ht)
  simpa using mt x.rx.1 (Nat.not_lt_of_le hi)

/-- Within a byte the position and `rx` may move. -/
theorem XferOk.move (x : XferOk s b i k j l) (hi : i < l.length) {k' j' : Nat} (hk : k' ≤ 7)
    (hj : j' < (actions b.mode).length) (r : Byte) :
    XferOk { s with seq := .xfer b i k' j', rx := some r } b i k' j' l where
  registered := x.registered
  buf := x.buf
  bound := x.bound
  index := x.index
  bit := hk
  action := hj
  tx := x.tx
  rx := by simp [hi]
  atEnd := fun h => absurd h (Nat.ne_of_lt hi)

theorem advance_inv {v : Byte} (h : s.Inv) (hq : s.seq = .xfer b i k j) (ht : s.tx = some v) (r : Byte) :
    (advance b i k j r s).Inv := by
  obtain ⟨l, x⟩ := (seqOk_xfer hq).1 h.seq
  have hi := x.lt_of_tx ht
  unfold advance
  split_ifs with hj
  · exact h.update rfl rfl h.xWf h.dirWf ((seqOk_xfer rfl).2 ⟨l, x.move hi x.bit hj r⟩)
  · cases k with
    | succ k =>
      have hk : k ≤ 7 := Nat.le_of_succ_le x.bit
      exact h.update rfl rfl h.xWf h.dirWf ((seqOk_xfer rfl).2 ⟨l, x.move hi hk (actions_length_pos _) r⟩)
    | zero =>
      refine h.update rfl rfl h.xWf h.dirWf ((seqOk_xfer rfl).2 ⟨l.set i r, ?_⟩)
      exact enterByte_xferOk x.registered (by simp [x.buf]) (by simpa using x.bound) (by simpa using hi)

theorem enterFirst_inv (h : s.Inv) (hq : s.seq = .pre b) : (enterByte b 0 (doSelectAssert b s)).Inv := by
  obtain ⟨hb, -, -, l, hl, hm⟩ := (seqOk_pre hq).1 h.seq
  have hd : (doSelectAssert b s).Inv := drive_inv _ _ h
  exact hd.update rfl rfl hd.xWf hd.dirWf ((seqOk_xfer rfl).2 ⟨l, enterByte_xferOk hb hl hm (Nat.zero_le _)⟩)

/-- All that the end of a transfer does (40_bus_target.md R117, 42_command_front_end.md R157). -/
theorem finishTransfer_eq (b : BusTarget) (s : State) :
    finishTransfer b s =
      { s with
        x := s.x.write b.pinSel (!s.cfg.selActive)
        seq := .idle
        buf := none
        outq := s.outq ++ dataLine s.cfg (s.buf.getD [])
        trace := s.trace ++ .drv b.pinSel (!s.cfg.selActive) :: (dataLine s.cfg (s.buf.getD [])).map .tx } := by
  simp [finishTransfer, sendData, sendBytes_eq, discardBuf, setSeq, doSelectDeassert, drive, logEvent]

theorem finishTransfer_inv (h : s.Inv) (hq : s.seq = .xfer b i k j) (ht : s.tx = none) :
    (finishTransfer b s).Inv := by
  obtain ⟨l, x⟩ := (seqOk_xfer hq).1 h.seq
  rw [finishTransfer_eq]
  exact h.update rfl rfl (PinMap.wf_write h.xWf _ _) h.dirWf (seqOk_of_idle rfl rfl ht (x.rx_none ht))

end

/-! ### A step -/

/-- `Stepped s t`: what one step of the machine can do from `s`, with the state `t` after it. -/
inductive Stepped (s : State) : State → Prop
  /-- The oldest call. -/
  | call {c : Call} {rest : List Call} {t : State} (hq : s.seq = .idle) (hc : s.calls = c :: rest)
      (h : runCall c { s with calls := rest } = .next t) : Stepped s t
  /-- The oldest byte of `inq`. -/
  | byte {c : Byte} {rest : List Byte} {t : State} (hq : s.seq = .idle) (hc : s.calls = []) (hi : s.inq = c :: rest)
      (h : pollByte c s = .next t) : Stepped s t
  /-- Nothing to do. -/
  | nothing (hq : s.seq = .idle) (hc : s.calls = []) (hi : s.inq = []) : Stepped s s
  /-- SELECT_ASSERT of a transfer. -/
  | select {b : BusTarget} (hq : s.seq = .pre b) : Stepped s (enterByte b 0 (doSelectAssert b s))
  /-- An action of a bit-phase. -/
  | action {b : BusTarget} {i k j : Nat} {v r : Byte} {a : Action} (hq : s.seq = .xfer b i k j) (ht : s.tx = some v)
      (hr : s.rx = some r) (ha : (actions b.mode)[j]? = some a) :
      Stepped s (advance b i k j (storeSample r k (act b (bitAt v k) a s).2) (act b (bitAt v k) a s).1)
  /-- The end of a transfer. -/
  | finish {b : BusTarget} {i k j : Nat} (hq : s.seq = .xfer b i k j) (ht : s.tx = none) :
      Stepped s (finishTransfer b s)

theorem step_next_of_idle (hs : s.ready = true) (h : step s = .next t) : Stepped s t := by
  have hq := (ready_iff.1 hs).2
  cases hc : s.calls with
  | cons c rest => exact .call hq hc ((step_of_call hs hc).symm.trans h)
  | nil =>
    cases hi : s.inq with
    | cons c rest => exact .byte hq hc hi ((step_of_byte hs hc hi).symm.trans h)
    | nil =>
      cases (step_of_nothing hs hc hi).symm.trans h
      exact .nothing hq hc hi

theorem step_next_of_xfer (hv : s.Inv) {b : BusTarget} {i k j : Nat} (hq : s.seq = .xfer b i k j)
    (h : step s = .next t) : Stepped s t := by
  obtain ⟨l, x⟩ := (seqOk_xfer hq).1 hv.seq
  cases ht : s.tx with
  | none =>
    cases (step_of_end hv.cfgOk hq ht).symm.trans h
    exact .finish hq ht
  | some v =>
    obtain ⟨r, hr⟩ := Option.isSome_iff_exists.1 (x.rx.2 (x.lt_of_tx ht))
    have ha := List.getElem?_eq_getElem x.action
    cases (step_of_action hv.cfgOk hq ht hr ha).symm.trans h
    exact .action hq ht hr ha

/-- If a step under the invariant answers a next state, it did one of these things. -/
theorem step_next (hv : s.Inv) (h : step s = .next t) : Stepped s t := by
  cases hq : s.seq with
  | idle => exact step_next_of_idle (hv.ready hq) h
  | pre b =>
    cases (step_of_pre hv.cfgOk hq).symm.trans h
    exact .select hq
  | xfer b i k j => exact step_next_of_xfer hv hq h

theorem Stepped.inv (p : Stepped s t) (h : s.Inv) : t.Inv := by
  cases p with
  | call hq hc hr => exact runCall_inv (setCalls_inv _ h) hr
  | byte hq hc hi hp => exact pollByte_inv h hq hp
  | nothing hq hc hi => exact h
  | select hq => exact enterFirst_inv h hq
  | @action b i k j v r a hq ht hr ha =>
    obtain ⟨-, htx, -, hseq, -⟩ := act_fields b (bitAt v k) a s
    exact advance_inv (act_inv b _ a h) (hseq.trans hq) (htx.trans ht) _
  | finish hq ht => exact finishTransfer_inv h hq ht

/-- Settles O50: by what a step can do, each case keeping the invariant. -/
theorem stepKeepsInvariant : Obligations.StepKeepsInvariant :=
  fun _ _ hv h => (step_next hv h).inv hv

end Sys2Proof.Machine
end

section
/-! PROOFS. The state and its history: the table of reset values and the invariants at the start (10_state.md R36, R37),
and what every instruction and every step adds to the trace. -/

namespace Sys2Proof.Machine

variable {s t u : State}

/-! ### The state after start-up -/

/-- Settles O56: the latches and the directions of each target after the folds of start-up, the other fields as
`State.resetOf` writes them. -/
theorem resetTable : Obligations.ResetTable := by
  intro cfg hw
  refine ⟨fun t b hb => ?_, fun t o ho => ⟨resetLatches_out hw ho, resetDirs_out ho⟩, rfl, rfl, rfl, rfl, rfl, rfl, rfl,
    rfl⟩
  obtain ⟨hsel, hclk, hdout⟩ := resetLatches_bus hw ⟨t, hb⟩
  exact ⟨hsel, hclk, hdout, resetDirs_bus hw ⟨t, hb⟩⟩

theorem resetOf_inv {cfg : Config} (hw : cfg.wf = true) : (State.resetOf cfg).Inv where
  cfgOk := hw
  xWf := resetLatches_wf cfg
  dirWf := resetDirs_wf cfg
  line := ⟨Nat.zero_le _, rfl⟩
  seq := seqOk_of_idle rfl rfl rfl rfl

theorem resetOf_busAtRest {cfg : Config} (hw : cfg.wf = true) {b : BusTarget} (hb : isRegistered cfg b) :
    busAtRest (State.resetOf cfg) b := by
  obtain ⟨hsel, hclk, hdout⟩ := resetLatches_bus hw hb
  exact ⟨hsel, hclk, Option.isSome_of_eq_some hdout⟩

theorem resetOf_hostInv {cfg : Config} (hw : cfg.wf = true) : (State.resetOf cfg).HostInv where
  inv := resetOf_inv hw
  noCalls := rfl
  latches := fun _ hb => resetOf_busAtRest hw hb

/-- Settles O53: start-up leaves every Bus Target at rest and the front end empty. -/
theorem startStateMeetsInvariants : Obligations.StartStateMeetsInvariants :=
  fun _ hw => ⟨resetOf_inv hw, resetOf_hostInv hw⟩

/-- Settles O51: the platform of `State.reset` is a well-formed one. -/
theorem resetMeetsInvariants : Obligations.ResetMeetsInvariants :=
  startStateMeetsInvariants Config.resetPlatform (by decide)

/-! ### What an instruction adds to the trace -/

theorem Extends.setRet (h : Extends s u) (r : Ret) : Extends s (setRet r u) := h.trans (.of_eq rfl rfl rfl rfl rfl)

/-- Every instruction but the two initialisations only adds events, and the streams and the latches are what they say;
the two initialisations set latches without an event (D11). -/
theorem Ran.extends_or_init {i : Instr} (r : Ran s i u) :
    Extends s u ∨ (∃ t b, i = .initBus t ∧ u = doInitBus b s) ∨ (∃ t o, i = .initOut t ∧ u = doInitOut o s) := by
  cases r with
  | initBus t b hb => exact .inr (.inl ⟨t, b, rfl, rfl⟩)
  | initOut t o ho => exact .inr (.inr ⟨t, o, rfl, rfl⟩)
  | cmdD arg => exact .inl (doCmdD_extends arg s)
  | cmdT arg => exact .inl (doCmdT_extends arg s)
  | cmdI arg => exact .inl (doCmdI_extends arg s)
  | cmdComment arg => exact .inl (.refl s)
  | cmdUnknown key rest => exact .inl (raiseError_extends _ s)
  | service => exact .inl (serviceAll_extends (List.append_nil s.inq).symm)
  | feed c => exact .inl ((doFeed_extends c s).setRet _)
  | dispatch key arg => exact .inl (doDispatch_extends key arg s)
  | respBare r => exact .inl (sendBare_extends r s)
  | respData payload => exact .inl (sendData_extends payload s)
  | respComment text => exact .inl (sendComment_extends text s)
  | banner => exact .inl (sendComment_extends _ s)
  | bitphaseM0 t b hb d => exact .inl ((doBitPhase_extends _ b d s).setRet _)
  | bitphaseM1 t b hb d => exact .inl ((doBitPhase_extends _ b d s).setRet _)
  | bitphaseM2 t b hb d => exact .inl ((doBitPhase_extends _ b d s).setRet _)
  | bitphaseM3 t b hb d => exact .inl ((doBitPhase_extends _ b d s).setRet _)
  | bitphaseM5 t b hb d => exact .inl ((doBitPhase_extends _ b d s).setRet _)
  | selectAssert t b hb => exact .inl (drive_extends _ _ s)
  | selectDeassert t b hb => exact .inl (drive_extends _ _ s)
  | transfer t b hb out hl => exact .inl ((doTransfer_extends b out s).setRet _)
  | exchangeByte t b hb tx => exact .inl ((doExchange_extends b tx s).setRet _)
  | waitHalf t b hb => exact .inl (waitTicks_extends _ s)
  | setOut t o ho level => exact .inl (drive_extends _ _ s)

/-- Settles O60: by what the instruction did; the events it added say what its latches read. -/
theorem latchHoldsLastDrive : Obligations.LatchHoldsLastDrive := by
  intro i s u h hbus hout
  obtain ⟨-, r⟩ := exec_next h
  rcases r.extends_or_init with ⟨evs, hl⟩ | ⟨t, b, hi, -⟩ | ⟨t, o, hi, -⟩
  · exact ⟨evs, hl.trace, hl.latch⟩
  · exact absurd hi (hbus t)
  · exact absurd hi (hout t)

/-! ### A byte read by the machine -/

/-- On a ready machine the instruction a line decodes to is what DISPATCH does with the line (42_command_front_end.md
R154). -/
theorem exec_of_decodeLine {key : Byte} {arg : List Byte} {i : Instr} (hs : s.ready = true)
    (h : decodeLine (key :: arg) = .ok i) : exec i s = .next (doDispatch key arg s) := by
  unfold decodeLine at h
  unfold doDispatch
  cases hk : keyOf key <;> simp only [hk, Except.ok.injEq] at h ⊢ <;> subst h
  · exact exec_cmdD hs arg
  · exact exec_cmdT hs arg
  · exact exec_cmdI hs arg
  · exact exec_cmdComment hs arg
  · exact exec_cmdUnknown hs key arg

theorem decodeLine_cons (key : Byte) (arg : List Byte) : ∃ i, decodeLine (key :: arg) = .ok i := by
  cases hk : keyOf key <;> simp [decodeLine, hk]

/-- A line the machine issues is run whole, or starts a transfer of a registered target (40_bus_target.md R117). -/
theorem issueLine_cons (hs : s.ready = true) (key : Byte) (arg : List Byte) :
    issueLine (some (key :: arg)) s = .next (doDispatch key arg s) ∨
      ∃ b out, isRegistered s.cfg b ∧ issueLine (some (key :: arg)) s = .next (beginTransfer b out s) := by
  obtain ⟨i, hi⟩ := decodeLine_cons key arg
  simp only [issueLine, hi, issue]
  cases hr : transferOf i s with
  | none => exact .inl (exec_of_decodeLine hs hi)
  | some r => exact .inr ⟨r.1, r.2, (transferOf_some hr).1, rfl⟩

/-- What the machine does with a byte: the whole turn of SERVICE's loop, or the start of a transfer. -/
theorem pollByte_cases (hs : s.ready = true) (c : Byte) :
    pollByte c s = .next (serviceByte c s) ∨
      ∃ b out, isRegistered s.cfg b ∧ pollByte c s = .next (beginTransfer b out (doFeed c (rxByte c s))) := by
  have hf : (doFeed c (rxByte c s)).cfg = s.cfg ∧ (doFeed c (rxByte c s)).ready = true := by
    rw [doFeed_eq]
    exact ⟨rfl, hs⟩
  rw [pollByte, serviceByte, ← hf.1]
  cases hl : feedLine c (rxByte c s) with
  | none => exact .inl rfl
  | some l =>
    cases l with
    | nil => simp [feedLine] at hl
    | cons key arg => exact issueLine_cons hf.2 key arg

/-! ### What a step adds to the trace -/

/-- The trace grew by some events, and the streams are what they say (00_scope.md R11). -/
def HistoryGrows (s t : State) : Prop :=
  ∃ evs, t.trace = s.trace ++ evs ∧ s.inq = readBytes evs ++ t.inq ∧ t.outq = s.outq ++ sentBytes evs ∧ t.cfg = s.cfg

theorem Extends.historyGrows (h : Extends s t) : HistoryGrows s t := by
  obtain ⟨evs, h⟩ := h
  exact ⟨evs, h.trace, h.inq, h.outq, h.cfg⟩

theorem historyGrows_of_eq (ht : t.trace = s.trace) (hi : t.inq = s.inq) (ho : t.outq = s.outq) (hc : t.cfg = s.cfg) :
    HistoryGrows s t :=
  ⟨[], by simp [ht], by simp [readBytes, hi], by simp [sentBytes, ho], hc⟩

theorem exec_historyGrows {i : Instr} (h : exec i s = .next u) : HistoryGrows s u := by
  obtain ⟨-, r⟩ := exec_next h
  rcases r.extends_or_init with he | ⟨t, b, -, rfl⟩ | ⟨t, o, -, rfl⟩
  · exact he.historyGrows
  · exact historyGrows_of_eq rfl rfl rfl rfl
  · exact historyGrows_of_eq rfl rfl rfl rfl

theorem runCall_historyGrows {c : Call} (h : runCall c s = .next u) : HistoryGrows s u := by
  unfold runCall at h
  split at h
  · exact exec_historyGrows h
  · cases h

theorem pollByte_extends (hs : s.ready = true) {c : Byte} {rest : List Byte} (hi : s.inq = c :: rest)
    (h : pollByte c s = .next u) : Extends s u := by
  rcases pollByte_cases hs c with hp | ⟨b, out, -, hp⟩
  · cases hp.symm.trans h
    exact serviceByte_extends hi
  · cases hp.symm.trans h
    exact (rxByte_extends hi).trans ((doFeed_extends c _).trans (.of_eq rfl rfl rfl rfl rfl))

/-- `advance` only moves the sequencer and its registers. -/
theorem advance_frame (b : BusTarget) (i k j : Nat) (r : Byte) (s : State) :
    (advance b i k j r s).cfg = s.cfg ∧ (advance b i k j r s).x = s.x ∧ (advance b i k j r s).inq = s.inq ∧
      (advance b i k j r s).outq = s.outq ∧ (advance b i k j r s).trace = s.trace ∧
      (advance b i k j r s).calls = s.calls := by
  unfold advance
  split
  · exact ⟨rfl, rfl, rfl, rfl, rfl, rfl⟩
  · cases k <;> exact ⟨rfl, rfl, rfl, rfl, rfl, rfl⟩

theorem advance_extends (b : BusTarget) (i k j : Nat) (r : Byte) (s : State) : Extends s (advance b i k j r s) := by
  obtain ⟨hc, hx, hi, ho, ht, -⟩ := advance_frame b i k j r s
  exact .of_eq hc ht hi ho hx

theorem finishTransfer_extends (b : BusTarget) (s : State) : Extends s (finishTransfer b s) := by
  have hsel : Extends s (setSeq .idle (doSelectDeassert b s)) :=
    (drive_extends _ _ s).trans (.of_eq rfl rfl rfl rfl rfl)
  have hdata := hsel.trans (sendData_extends (s.buf.getD []) _)
  exact hdata.trans (.of_eq rfl rfl rfl rfl rfl)

theorem seqStep_extends (s : State) : Extends s (seqStep s) := by
  unfold seqStep
  split
  · exact .refl s
  · exact (drive_extends _ _ s).trans (.of_eq rfl rfl rfl rfl rfl)
  · split
    · exact (act_extends _ _ _ s).trans (advance_extends _ _ _ _ _ _)
    · exact finishTransfer_extends _ s

/-- While a transfer runs a step is a step of the sequencer (40_bus_target.md R117). -/
theorem step_of_running (hw : s.cfg.wf = true) (hq : s.seq ≠ .idle) : step s = .next (seqStep s) := by
  cases h : s.seq with
  | idle => exact absurd h hq
  | pre b => simp [step, runStep, hw, h]
  | xfer b i k j => simp [step, runStep, hw, h]

theorem step_wf (h : step s = .next t) : s.cfg.wf = true := by
  by_contra hw
  rw [step_illFormed (Bool.eq_false_iff.2 hw)] at h
  cases h

theorem step_historyGrows_of_idle (hs : s.ready = true) (h : step s = .next t) : HistoryGrows s t := by
  cases hc : s.calls with
  | cons c rest => exact runCall_historyGrows (s := { s with calls := rest }) ((step_of_call hs hc).symm.trans h)
  | nil =>
    cases hi : s.inq with
    | cons c rest => exact (pollByte_extends hs hi ((step_of_byte hs hc hi).symm.trans h)).historyGrows
    | nil =>
      cases (step_of_nothing hs hc hi).symm.trans h
      exact historyGrows_of_eq rfl rfl rfl rfl

/-- Settles O57: an idle machine runs a call, a byte or nothing, any other a step of the sequencer. -/
theorem stepExtendsHistory : Obligations.StepExtendsHistory := by
  intro s t h
  have hw := step_wf h
  by_cases hq : s.seq = .idle
  · exact step_historyGrows_of_idle (ready_iff.2 ⟨hw, hq⟩) h
  · cases (step_of_running hw hq).symm.trans h
    exact (seqStep_extends s).historyGrows

end Sys2Proof.Machine
end

section
/-! PROOFS. The latches of a machine that only its host drives (10_state.md R37, 40_bus_target.md R115, R116): what a
transfer does to its own target, that it leaves the others alone, and the step. -/

namespace Sys2Proof.Machine

variable {s t u : State} {b c : BusTarget} {i k j : Nat}

/-! ### The latches by position of the sequencer -/

/-- Every Bus Target is at rest. -/
def allAtRest (s : State) : Prop := ∀ b, isRegistered s.cfg b → busAtRest s b

/-- The latches of the target a transfer uses, before action `j` of a bit: selected, and the clock where the action list
has brought it (40_bus_target.md R115, R122). -/
def busInUse (s : State) (b : BusTarget) (j : Nat) : Prop :=
  s.x.read b.pinSel = some s.cfg.selActive ∧ s.x.read b.pinClk = some (clockBefore b.mode j)
    ∧ (s.x.read b.pinDout).isSome

theorem latchesOk_idle (hq : s.seq = .idle) : latchesOk s ↔ allAtRest s := by simp [latchesOk, allAtRest, hq]

theorem latchesOk_pre (hq : s.seq = .pre b) : latchesOk s ↔ allAtRest s := by simp [latchesOk, allAtRest, hq]

theorem latchesOk_xfer (hq : s.seq = .xfer c i k j) :
    latchesOk s ↔
      (isRegistered s.cfg c → busInUse s c j) ∧ ∀ b, isRegistered s.cfg b → b ≠ c → busAtRest s b := by
  simp only [latchesOk, hq]
  constructor
  · intro h
    refine ⟨fun hc => by simpa [busInUse] using h c hc, fun b hb hbc => ?_⟩
    simpa [hbc] using h b hb
  · rintro ⟨huse, hrest⟩ b hb
    split_ifs with hbc
    · subst hbc
      exact huse hb
    · exact hrest b hb hbc

theorem busAtRest.of_eq (h : busAtRest s b) (hc : u.cfg = s.cfg) (hx : u.x = s.x) : busAtRest u b := by
  rwa [busAtRest, hc, hx]

theorem busInUse.of_eq {j' : Nat} (h : busInUse s b j) (hc : u.cfg = s.cfg) (hx : u.x = s.x)
    (hj : clockBefore b.mode j' = clockBefore b.mode j) : busInUse u b j' := by
  rwa [busInUse, hc, hx, hj]

theorem allAtRest.of_eq (h : allAtRest s) (hc : u.cfg = s.cfg) (hx : u.x = s.x) : allAtRest u :=
  fun b hb => (h b (hc ▸ hb)).of_eq hc hx

/-! ### The other targets -/

/-- From `s` to `u` no latch changed but those of the Bus Target `c`. -/
structure OnlyBus (c : BusTarget) (s u : State) : Prop where
  cfg : u.cfg = s.cfg
  latch : ∀ p, p ≠ c.pinDout → p ≠ c.pinClk → p ≠ c.pinSel → u.x.read p = s.x.read p

/-- Pins are owned by one target, so what changes only latches of `c` leaves every other target at rest. -/
theorem OnlyBus.busAtRest_of_ne (f : OnlyBus c s u) (hw : s.cfg.wf = true) (hb : isRegistered s.cfg b)
    (hc : isRegistered s.cfg c) (hbc : b ≠ c) (h : busAtRest s b) : busAtRest u b := by
  have hkeep : ∀ p ∈ [b.pinDout, b.pinDin, b.pinClk, b.pinSel], u.x.read p = s.x.read p := by
    intro p hp
    have hd := List.disjoint_left.1 (Config.busPins_disjoint hw hb hc hbc) hp
    simp only [List.mem_cons, List.not_mem_nil, or_false, not_or] at hd
    obtain ⟨hdout, -, hclk, hsel⟩ := hd
    exact f.latch p hdout hclk hsel
  rwa [busAtRest, f.cfg, hkeep _ (by simp), hkeep _ (by simp), hkeep _ (by simp)]

theorem OnlyBus.allAtRest (f : OnlyBus c s u) (hw : s.cfg.wf = true) (hc : isRegistered s.cfg c)
    (hrest : ∀ b, isRegistered s.cfg b → b ≠ c → busAtRest s b) (h : busAtRest u c) : allAtRest u := by
  intro b hb
  rw [f.cfg] at hb
  by_cases hbc : b = c
  · rwa [hbc]
  · exact f.busAtRest_of_ne hw hb hc hbc (hrest b hb hbc)

theorem drive_onlyBus {p : Pin} (v : Bit) (s : State) (hp : p = c.pinDout ∨ p = c.pinClk ∨ p = c.pinSel) :
    OnlyBus c s (drive p v s) where
  cfg := rfl
  latch := by
    intro q hdout hclk hsel
    refine PinMap.read_write_ne _ _ ?_
    rintro rfl
    exact hp.elim hdout (·.elim hclk hsel)

theorem act_onlyBus (b : BusTarget) (d : Bit) (a : Action) (s : State) : OnlyBus b s (act b d a s).1 := by
  cases a with
  | driveBit => exact drive_onlyBus _ s (.inl rfl)
  | wait => exact ⟨rfl, fun _ _ _ _ => rfl⟩
  | sample => exact ⟨rfl, fun _ _ _ _ => rfl⟩
  | clockHigh => exact drive_onlyBus _ s (.inr (.inl rfl))
  | clockLow => exact drive_onlyBus _ s (.inr (.inl rfl))

/-- A write of the select latch of a registered target leaves its clock and its data-out. -/
theorem read_write_pinSel (hw : s.cfg.wf = true) (hb : isRegistered s.cfg b) (x : PinMap Bit) (v : Bit) :
    (x.write b.pinSel v).read b.pinSel = some v ∧ (x.write b.pinSel v).read b.pinClk = x.read b.pinClk ∧
      (x.write b.pinSel v).read b.pinDout = x.read b.pinDout := by
  obtain ⟨-, hds, hcs, -⟩ := Config.busPins_ne hw hb
  exact ⟨PinMap.read_write_same _ _ _, PinMap.read_write_ne _ _ hcs, PinMap.read_write_ne _ _ hds⟩

/-! ### A whole transfer -/

theorem bytesLatches_read_other (b : BusTarget) (out : List Byte) (x : PinMap Bit) {p : Pin} (hclk : p ≠ b.pinClk)
    (hdout : p ≠ b.pinDout) : (bytesLatches b out x).read p = x.read p := by
  cases hl : out.getLast? with
  | none =>
    rw [List.getLast?_eq_none_iff.1 hl]
    rfl
  | some v => rw [bytesLatches_read b out v hl, if_neg hclk, if_neg hdout]

/-- The exchange of any number of bytes leaves an idle clock idle and data-out at some level. -/
theorem bytesLatches_idle (b : BusTarget) (out : List Byte) {x : PinMap Bit}
    (hclk : x.read b.pinClk = some (idleLevel b.mode)) (hdout : (x.read b.pinDout).isSome) :
    (bytesLatches b out x).read b.pinClk = some (idleLevel b.mode) ∧ ((bytesLatches b out x).read b.pinDout).isSome := by
  cases hl : out.getLast? with
  | none =>
    rw [List.getLast?_eq_none_iff.1 hl]
    exact ⟨hclk, hdout⟩
  | some v =>
    simp only [bytesLatches_read b out v hl, if_true]
    refine ⟨trivial, ?_⟩
    split_ifs <;> rfl

theorem doTransfer_onlyBus (b : BusTarget) (out : List Byte) (s : State) : OnlyBus b s (doTransfer b out s).1 := by
  rw [doTransfer_state]
  refine ⟨rfl, fun p hdout hclk hsel => ?_⟩
  simp only [transferLatches]
  rw [PinMap.read_write_ne _ _ hsel, bytesLatches_read_other b out _ hclk hdout, PinMap.read_write_ne _ _ hsel]

/-- A target at rest is at rest again after a transfer (40_bus_target.md R115). -/
theorem doTransfer_busAtRest (hw : s.cfg.wf = true) (hb : isRegistered s.cfg b) (out : List Byte)
    (h : busAtRest s b) : busAtRest (doTransfer b out s).1 b := by
  obtain ⟨-, hclk, hdout⟩ := h
  obtain ⟨-, hc, hd⟩ := read_write_pinSel hw hb s.x s.cfg.selActive
  obtain ⟨hclk', hdout'⟩ := bytesLatches_idle b out (hc.trans hclk) (hd ▸ hdout)
  obtain ⟨hs', hc', hd'⟩ := read_write_pinSel hw hb (bytesLatches b out (s.x.write b.pinSel s.cfg.selActive))
    (!s.cfg.selActive)
  rw [doTransfer_state]
  exact ⟨hs', hc'.trans hclk', hd' ▸ hdout'⟩

/-! ### A line on an idle machine -/

theorem raiseError_allAtRest (d : Diag) (h : allAtRest s) : allAtRest (raiseError d s) := by
  rw [raiseError_eq]
  exact h.of_eq rfl rfl

theorem doCmdD_allAtRest (arg : List Byte) (h : allAtRest s) : allAtRest (doCmdD arg s) := by
  unfold doCmdD
  split
  · exact raiseError_allAtRest _ h
  · exact h.of_eq (by simp [sendBare]) (by simp [sendBare])

theorem doCmdT_allAtRest (hw : s.cfg.wf = true) (arg : List Byte) (h : allAtRest s) : allAtRest (doCmdT arg s) := by
  unfold doCmdT
  split
  · exact raiseError_allAtRest _ h
  next b out hp =>
    obtain ⟨hb, -⟩ := parseTransfer_ok hp
    have hafter : allAtRest (doTransfer b out s).1 :=
      (doTransfer_onlyBus b out s).allAtRest hw hb (fun c hc _ => h c hc) (doTransfer_busAtRest hw hb out (h b hb))
    exact hafter.of_eq (by simp [sendData]) (by simp [sendData])

theorem parseOutput_ok {cfg : Config} {arg : List Byte} {o : OutputTarget} {level : Bool}
    (h : parseOutput cfg arg = .ok (o, level)) : ∃ t, (t, o) ∈ cfg.outReg := by
  unfold parseOutput at h
  split at h
  · cases h
  split at h
  · cases h
  next ho =>
    split at h
    · cases h
    split at h
    · cases h
    split_ifs at h
    cases h
    exact ⟨_, mem_of_lookup ho⟩

/-- The pin of an Output Target is no latch of a Bus Target. -/
theorem doSet_allAtRest (hw : s.cfg.wf = true) {g : Tag} {o : OutputTarget} (ho : (g, o) ∈ s.cfg.outReg) (level : Bool)
    (h : allAtRest s) : allAtRest (doSet o level s) := by
  intro b hb
  obtain ⟨hdout, -, hclk, hsel⟩ := Config.outPin_ne hw hb ho
  simp only [busAtRest, doSet, drive_x, drive_cfg]
  rw [PinMap.read_write_ne _ _ hsel.symm, PinMap.read_write_ne _ _ hclk.symm, PinMap.read_write_ne _ _ hdout.symm]
  exact h b hb

theorem doCmdI_allAtRest (hw : s.cfg.wf = true) (arg : List Byte) (h : allAtRest s) : allAtRest (doCmdI arg s) := by
  unfold doCmdI
  split
  · exact raiseError_allAtRest _ h
  next hp =>
    obtain ⟨g, ho⟩ := parseOutput_ok hp
    exact doSet_allAtRest hw ho _ h

theorem doDispatch_allAtRest (hw : s.cfg.wf = true) (key : Byte) (arg : List Byte) (h : allAtRest s) :
    allAtRest (doDispatch key arg s) := by
  unfold doDispatch
  split
  · exact doCmdD_allAtRest arg h
  · exact doCmdT_allAtRest hw arg h
  · exact doCmdI_allAtRest hw arg h
  · exact h
  · exact raiseError_allAtRest _ h

theorem runLine_allAtRest (hw : s.cfg.wf = true) (l : Option (List Byte)) (h : allAtRest s) :
    allAtRest (runLine l s) := by
  unfold runLine
  split
  · exact h
  · exact h
  · exact doDispatch_allAtRest hw _ _ h

theorem feedByte_allAtRest (c : Byte) (h : allAtRest s) : allAtRest (doFeed c (rxByte c s)) := by
  rw [doFeed_eq]
  exact h.of_eq rfl rfl

theorem serviceByte_allAtRest (hw : s.cfg.wf = true) (c : Byte) (h : allAtRest s) : allAtRest (serviceByte c s) :=
  runLine_allAtRest (by rw [doFeed_eq]; exact hw) _ (feedByte_allAtRest c h)

/-! ### The sequencer -/

theorem clockBefore_succ {m : Mode} {a : Action} (ha : (actions m)[j]? = some a) :
    clockBefore m (j + 1) = clockAfter (clockBefore m j) a := by
  simp [clockBefore, List.take_add_one, ha]

/-- Every action list ends with the clock at its idle polarity. -/
theorem clockBefore_length (m : Mode) : clockBefore m (actions m).length = idleLevel m := by cases m <;> rfl

theorem selectAssert_busInUse (hw : s.cfg.wf = true) (hb : isRegistered s.cfg b) (h : busAtRest s b) :
    busInUse (doSelectAssert b s) b 0 := by
  obtain ⟨-, hclk, hdout⟩ := h
  obtain ⟨hs, hc, hd⟩ := read_write_pinSel hw hb s.x s.cfg.selActive
  exact ⟨hs, hc.trans hclk, hd ▸ hdout⟩

theorem selectDeassert_busAtRest (hw : s.cfg.wf = true) (hb : isRegistered s.cfg b) (h : busInUse s b 0) :
    busAtRest (doSelectDeassert b s) b := by
  obtain ⟨-, hclk, hdout⟩ := h
  obtain ⟨hs, hc, hd⟩ := read_write_pinSel hw hb s.x (!s.cfg.selActive)
  exact ⟨hs, hc.trans hclk, hd ▸ hdout⟩

/-- An action takes the clock on as its list says, and leaves the select asserted (40_bus_target.md R122). -/
theorem act_busInUse (hw : s.cfg.wf = true) (hb : isRegistered s.cfg b) (d : Bit) {a : Action}
    (ha : (actions b.mode)[j]? = some a) (h : busInUse s b j) : busInUse (act b d a s).1 b (j + 1) := by
  obtain ⟨hdc, hds, hcs, -, -, -⟩ := Config.busPins_ne hw hb
  obtain ⟨hsel, hclk, hdout⟩ := h
  rw [busInUse, clockBefore_succ ha]
  cases a with
  | driveBit => simp [act, PinMap.read_write, clockAfter, hds.symm, hdc.symm, hsel, hclk]
  | wait => exact ⟨hsel, hclk, hdout⟩
  | sample => exact ⟨hsel, hclk, hdout⟩
  | clockHigh => simp [act, PinMap.read_write, clockAfter, hcs.symm, hdc, hsel, hdout]
  | clockLow => simp [act, PinMap.read_write, clockAfter, hcs.symm, hdc, hsel, hdout]

/-- After action `j` comes action `j + 1`, or, at the end of the list, the first action of the next bit: the clock is the
same. -/
theorem advance_seq (hj : j < (actions b.mode).length) (i k : Nat) (r : Byte) (s : State) :
    ∃ i' k' j', (advance b i k j r s).seq = .xfer b i' k' j' ∧
      clockBefore b.mode j' = clockBefore b.mode (j + 1) := by
  unfold advance
  split_ifs with hlt
  · exact ⟨i, k, j + 1, rfl, rfl⟩
  · have hlast : j + 1 = (actions b.mode).length := by omega
    have hclk : clockBefore b.mode 0 = clockBefore b.mode (j + 1) := by
      rw [hlast, clockBefore_length]
      rfl
    cases k with
    | zero => exact ⟨i + 1, 7, 0, rfl, hclk⟩
    | succ k => exact ⟨i, k, 0, rfl, hclk⟩

theorem enterFirst_latchesOk (hw : s.cfg.wf = true) (hb : isRegistered s.cfg b) (h : allAtRest s) :
    latchesOk (enterByte b 0 (doSelectAssert b s)) := by
  have hother : OnlyBus b s (doSelectAssert b s) := drive_onlyBus _ s (.inr (.inr rfl))
  refine (latchesOk_xfer rfl).2 ⟨fun _ => selectAssert_busInUse hw hb (h b hb), fun c hc hcb => ?_⟩
  exact hother.busAtRest_of_ne hw hc hb hcb (h c hc)

theorem action_latchesOk (hv : s.Inv) (hq : s.seq = .xfer b i k j) {a : Action}
    (ha : (actions b.mode)[j]? = some a) (d : Bit) (r : Byte) (h : latchesOk s) :
    latchesOk (advance b i k j r (act b d a s).1) := by
  obtain ⟨l, x⟩ := (seqOk_xfer hq).1 hv.seq
  obtain ⟨huse, hrest⟩ := (latchesOk_xfer hq).1 h
  have hother := act_onlyBus b d a s
  obtain ⟨hcfg, hx, -⟩ := advance_frame b i k j r (act b d a s).1
  obtain ⟨i', k', j', hseq, hclk⟩ := advance_seq x.action i k r (act b d a s).1
  refine (latchesOk_xfer hseq).2 ⟨fun _ => ?_, fun c hc hcb => ?_⟩
  · exact (act_busInUse hv.cfgOk x.registered d ha (huse x.registered)).of_eq hcfg hx hclk
  · rw [hcfg, hother.cfg] at hc
    exact (hother.busAtRest_of_ne hv.cfgOk hc x.registered hcb (hrest c hc hcb)).of_eq hcfg hx

/-- A transfer ends between two bytes, with its clock idle. -/
theorem finishTransfer_latchesOk (hv : s.Inv) (hq : s.seq = .xfer b i k j) (ht : s.tx = none) (h : latchesOk s) :
    latchesOk (finishTransfer b s) := by
  obtain ⟨l, x⟩ := (seqOk_xfer hq).1 hv.seq
  obtain ⟨huse, hrest⟩ := (latchesOk_xfer hq).1 h
  have hend : i = l.length := Nat.le_antisymm x.index (List.getElem?_eq_none_iff.1 (x.tx.symm.trans ht))
  obtain ⟨-, rfl⟩ := x.atEnd hend
  have hother : OnlyBus b s (doSelectDeassert b s) := drive_onlyBus _ s (.inr (.inr rfl))
  have hall := hother.allAtRest hv.cfgOk x.registered hrest
    (selectDeassert_busAtRest hv.cfgOk x.registered (huse x.registered))
  rw [finishTransfer_eq]
  exact (latchesOk_idle rfl).2 (hall.of_eq rfl rfl)

/-! ### A step -/

theorem serviceByte_calls (c : Byte) (s : State) : (serviceByte c s).calls = s.calls := by
  rw [serviceByte, (runLine_frame _ _).calls, doFeed_eq]
  rfl

theorem act_calls (b : BusTarget) (d : Bit) (a : Action) (s : State) : (act b d a s).1.calls = s.calls := by
  cases a <;> rfl

/-- A byte read by an idle machine with every target at rest: it still is, whether the byte starts a transfer or not. -/
theorem pollByte_calls_latchesOk (hs : s.ready = true) {c : Byte} (h : allAtRest s) (hp : pollByte c s = .next t) :
    t.calls = s.calls ∧ latchesOk t := by
  obtain ⟨hw, hq⟩ := ready_iff.1 hs
  rcases pollByte_cases hs c with hp' | ⟨b, out, -, hp'⟩
  · cases hp'.symm.trans hp
    exact ⟨serviceByte_calls c s,
      (latchesOk_idle ((serviceByte_seq c s).trans hq)).2 (serviceByte_allAtRest hw c h)⟩
  · cases hp'.symm.trans hp
    have hcalls : (doFeed c (rxByte c s)).calls = s.calls := by
      rw [doFeed_eq]
      rfl
    exact ⟨hcalls, (latchesOk_pre rfl).2 ((feedByte_allAtRest c h).of_eq rfl rfl)⟩

theorem Stepped.calls_latchesOk (p : Stepped s t) (h : s.HostInv) : t.calls = s.calls ∧ latchesOk t := by
  have hw := h.inv.cfgOk
  cases p with
  | call hq hc hr => simp [h.noCalls] at hc
  | byte hq hc hi hp => exact pollByte_calls_latchesOk (h.inv.ready hq) ((latchesOk_idle hq).1 h.latches) hp
  | nothing hq hc hi => exact ⟨rfl, h.latches⟩
  | select hq =>
    obtain ⟨hb, -⟩ := (seqOk_pre hq).1 h.inv.seq
    exact ⟨rfl, enterFirst_latchesOk hw hb ((latchesOk_pre hq).1 h.latches)⟩
  | @action b i k j v r a hq ht hr ha =>
    obtain ⟨-, -, -, -, -, hcalls⟩ := advance_frame b i k j (storeSample r k (act b (bitAt v k) a s).2)
      (act b (bitAt v k) a s).1
    exact ⟨hcalls.trans (act_calls _ _ _ _), action_latchesOk h.inv hq ha _ _ h.latches⟩
  | finish hq ht =>
    refine ⟨?_, finishTransfer_latchesOk h.inv hq ht h.latches⟩
    rw [finishTransfer_eq]

theorem Stepped.hostInv (p : Stepped s t) (h : s.HostInv) : t.HostInv := by
  obtain ⟨hcalls, hlatches⟩ := p.calls_latchesOk h
  exact ⟨p.inv h.inv, hcalls.trans h.noCalls, hlatches⟩

/-- Without a waiting call nothing a step meets is refused. -/
theorem step_exists (hw : s.cfg.wf = true) (hc : s.calls = []) : ∃ t, step s = .next t := by
  by_cases hq : s.seq = .idle
  · have hs : s.ready = true := ready_iff.2 ⟨hw, hq⟩
    cases hi : s.inq with
    | nil => exact ⟨s, step_of_nothing hs hc hi⟩
    | cons c rest =>
      rw [step_of_byte hs hc hi]
      rcases pollByte_cases hs c with hp | ⟨b, out, -, hp⟩
      · exact ⟨_, hp⟩
      · exact ⟨_, hp⟩
  · exact ⟨_, step_of_running hw hq⟩

/-- Settles O52: without a call every step has a next state, and what a step can do keeps the latches where R37 and the
action lists put them. -/
theorem hostDrivenLatchInvariant : Obligations.HostDrivenLatchInvariant := by
  intro s h
  refine ⟨step_exists h.inv.cfgOk h.noCalls, fun t ht => ?_⟩
  exact (step_next h.inv ht).hostInv h

end Sys2Proof.Machine
end

section
/-! PROOFS. Encodings (30_encoding.md): the command lines, the mode numbers, the operation indices, and the hex
characters of a payload. What each reader of operands accepts is said once; both round trips rest on it. -/

namespace Sys2Proof.Machine

/-! ### Command lines (R71, R76, R83) -/

theorem decodeLine_eq (key : Byte) (arg : List Byte) :
    decodeLine (key :: arg) = .ok
      (if key = 0x44#8 then .cmdD arg
        else if key = 0x54#8 then .cmdT arg
        else if key = 0x49#8 then .cmdI arg
        else if key = 0x3B#8 then .cmdComment arg
        else .cmdUnknown key arg) := by
  rw [decodeLine, keyOf]
  split_ifs <;> rfl

/-- Settles O3: the four keys one after another, as `keyOf` asks for them. -/
theorem lineKeySelectsCommand : Obligations.LineKeySelectsCommand := ⟨rfl, decodeLine_eq⟩

theorem decodeLine_of_other {key : Byte} (h : keyOf key = .other) (rest : List Byte) :
    decodeLine (key :: rest) = .ok (.cmdUnknown key rest) := by
  simp only [decodeLine, h]

theorem encode_of_decodeLine {bytes : List Byte} {i : Instr} (h : decodeLine bytes = .ok i) :
    encode i = (.line, bytes) := by
  cases bytes with
  | nil => cases h
  | cons key arg =>
    rw [decodeLine_eq] at h
    cases h
    split_ifs with hD hT hI hC
    · rw [hD]; rfl
    · rw [hT]; rfl
    · rw [hI]; rfl
    · rw [hC]; rfl
    · rfl

/-! ### Mode numbers (R81, R82) -/

theorem modeOfNumber_modeNumber (m : Mode) : modeOfNumber (modeNumber m) = some m := by cases m <;> rfl

theorem modeNumber_of_modeOfNumber {n : Nat} {m : Mode} (h : modeOfNumber n = some m) : modeNumber m = n := by
  unfold modeOfNumber at h
  split_ifs at h with h0 h1 h2 h3 h5 <;> cases h
  exacts [h0.symm, h1.symm, h2.symm, h3.symm, h5.symm]

theorem modeOfNumber_eq_none_iff {n : Nat} : modeOfNumber n = none ↔ n = 4 ∨ 6 ≤ n := by
  unfold modeOfNumber
  split_ifs <;> simp only [true_iff, false_iff] <;> omega

/-- Settles O5: the numbers `modeOfNumber` leaves out are the reserved ones, and a platform description is accepted by
its mode number alone. -/
theorem reservedModesRefused : Obligations.ReservedModesRefused := by
  intro n
  refine ⟨fun hn => ?_, fun hn => ?_⟩
  · have hnone := modeOfNumber_eq_none_iff.2 hn
    exact ⟨hnone, fun _ _ _ _ _ => by rw [busOfNumbers, hnone]⟩
  · obtain ⟨m, hm⟩ := Option.ne_none_iff_exists'.1 (mt modeOfNumber_eq_none_iff.1 hn)
    exact ⟨m, hm, modeNumber_of_modeOfNumber hm, fun _ _ _ _ _ => by rw [busOfNumbers, hm]⟩

@[simp] theorem bitOfByte_byteOfBit (d : Bit) : bitOfByte (byteOfBit d) = some d := by cases d <;> rfl

theorem byteOfBit_of_bitOfByte {c : Byte} {d : Bit} (h : bitOfByte c = some d) : byteOfBit d = c := by
  unfold bitOfByte at h
  split_ifs at h with h0 h1 <;> cases h
  exacts [h0.symm, h1.symm]

theorem encode_bitphaseOf (m : Mode) (b : Tag) (d : Bit) :
    encode (bitphaseOf m b d) = (.mode, [BitVec.ofNat 8 (modeNumber m), b, byteOfBit d]) := by
  cases m <;> rfl

theorem decode_encode_bitphaseOf (m : Mode) (b : Tag) (d : Bit) :
    decode (encode (bitphaseOf m b d)).1 (encode (bitphaseOf m b d)).2 = .ok (bitphaseOf m b d) := by
  have hn : (BitVec.ofNat 8 (modeNumber m)).toNat = modeNumber m := by cases m <;> rfl
  simp only [encode_bitphaseOf, decode, decodeMode, hn, modeOfNumber_modeNumber, bitOfByte_byteOfBit]

theorem encode_of_decodeMode {bytes : List Byte} {i : Instr} (h : decodeMode bytes = .ok i) :
    encode i = (.mode, bytes) := by
  unfold decodeMode at h
  split at h
  · cases h
  split at h
  · cases h
  next hm =>
    split at h
    · split at h
      next hd =>
        cases h
        rw [encode_bitphaseOf, modeNumber_of_modeOfNumber hm, byteOfBit_of_bitOfByte hd, BitVec.ofNat_toNat,
          BitVec.setWidth_eq]
      next => cases h
    · cases h

/-! ### The operands of the operations (R88; log entry 12) -/

theorem decodeTagged_ok {make : Tag → Instr} {operands : List Byte} {i : Instr}
    (h : decodeTagged make operands = .ok i) : ∃ t, operands = [t] ∧ i = make t := by
  unfold decodeTagged at h
  split at h <;> cases h
  exact ⟨_, rfl, rfl⟩

theorem decodeTransfer_ok {operands : List Byte} {i : Instr} (h : decodeTransfer operands = .ok i) :
    ∃ b out, operands = b :: out ∧ i = .transfer b out := by
  unfold decodeTransfer at h
  split at h <;> cases h
  exact ⟨_, _, rfl, rfl⟩

theorem decodeExchange_ok {operands : List Byte} {i : Instr} (h : decodeExchange operands = .ok i) :
    ∃ b tx, operands = [b, tx] ∧ i = .exchangeByte b tx := by
  unfold decodeExchange at h
  split at h <;> cases h
  exact ⟨_, _, rfl, rfl⟩

theorem decodeSet_ok {operands : List Byte} {i : Instr} (h : decodeSet operands = .ok i) :
    ∃ o level, operands = [o, byteOfBit level] ∧ i = .setOut o level := by
  unfold decodeSet at h
  split at h
  · split at h
    next hl =>
      cases h
      exact ⟨_, _, by rw [byteOfBit_of_bitOfByte hl], rfl⟩
    next => cases h
  · cases h

theorem decodeDispatch_ok {operands : List Byte} {i : Instr} (h : decodeDispatch operands = .ok i) :
    i = .dispatch operands := by
  unfold decodeDispatch at h
  split at h <;> cases h
  rfl

theorem decodeDispatch_of_ne_nil {l : List Byte} (h : l ≠ []) : decodeDispatch l = .ok (.dispatch l) := by
  cases l with
  | nil => exact absurd rfl h
  | cons k arg => rfl

theorem decodeBare_ok {operands : List Byte} {i : Instr} (h : decodeBare operands = .ok i) :
    ∃ r, operands = [bareByte r] ∧ i = .respBare r := by
  unfold decodeBare at h
  split at h
  · split_ifs at h with hc he <;> cases h
    · exact ⟨.c, by rw [hc]; rfl, rfl⟩
    · exact ⟨.e, by rw [he]; rfl, rfl⟩
  · cases h

theorem decodePlain_ok {i j : Instr} {operands : List Byte} (h : decodePlain i operands = .ok j) :
    operands = [] ∧ j = i := by
  unfold decodePlain at h
  split at h <;> cases h
  exact ⟨rfl, rfl⟩

/-! ### Operation indices (R88) -/

theorem decodeIndex_unlisted (n : Nat) (operands : List Byte) :
    decodeIndex (n + 15) operands = .error (.unknownOperation (n + 15)) := by
  simp [decodeIndex]

theorem encode_of_decodeIndex {n : Nat} {operands : List Byte} {i : Instr} (h : decodeIndex n operands = .ok i) :
    encode i = (.op, BitVec.ofNat 8 n :: operands) := by
  match n with
  | 0 | 1 | 2 | 5 | 6 | 9 => obtain ⟨t, rfl, rfl⟩ := decodeTagged_ok h; rfl
  | 3 => obtain ⟨b, out, rfl, rfl⟩ := decodeTransfer_ok h; rfl
  | 4 => obtain ⟨b, tx, rfl, rfl⟩ := decodeExchange_ok h; rfl
  | 7 => obtain ⟨o, level, rfl, rfl⟩ := decodeSet_ok h; rfl
  | 8 | 14 => obtain ⟨rfl, rfl⟩ := decodePlain_ok h; rfl
  | 10 => obtain rfl := decodeDispatch_ok h; rfl
  | 11 => obtain ⟨r, rfl, rfl⟩ := decodeBare_ok h; rfl
  | 12 | 13 => cases h; rfl
  | n + 15 =>
    rw [decodeIndex_unlisted] at h
    cases h

theorem encode_of_decodeOp {bytes : List Byte} {i : Instr} (h : decodeOp bytes = .ok i) :
    encode i = (.op, bytes) := by
  cases bytes with
  | nil => cases h
  | cons n operands => rw [encode_of_decodeIndex h, BitVec.ofNat_toNat, BitVec.setWidth_eq]

/-! ### The round trips -/

/-- Settles O1: a line begins with its own key, a bit-phase with its mode number, an operation with its index. Of
well-formedness the decoder needs two conditions: no other command has the key of an unknown one, and a dispatched line
is not empty. -/
theorem decodeEncodeRoundTrip : Obligations.DecodeEncodeRoundTrip := by
  intro cfg i hw
  cases i with
  | cmdUnknown key rest =>
    simp only [Instr.wf, Bool.and_eq_true, decide_eq_true_eq] at hw
    obtain ⟨hkey, -⟩ := hw
    exact decodeLine_of_other hkey rest
  | dispatch l =>
    have hl : l ≠ [] := by
      rintro rfl
      cases hw
    exact decodeDispatch_of_ne_nil hl
  | bitphaseM0 b d => exact decode_encode_bitphaseOf .m0 b d
  | bitphaseM1 b d => exact decode_encode_bitphaseOf .m1 b d
  | bitphaseM2 b d => exact decode_encode_bitphaseOf .m2 b d
  | bitphaseM3 b d => exact decode_encode_bitphaseOf .m3 b d
  | bitphaseM5 b d => exact decode_encode_bitphaseOf .m5 b d
  | setOut o level => cases level <;> rfl
  | respBare r => cases r <;> rfl
  | cmdD | cmdT | cmdI | cmdComment => rfl
  | initBus | selectAssert | selectDeassert | transfer | exchangeByte | waitHalf | initOut => rfl
  | service | feed | respData | respComment | banner => rfl

/-- Settles O2: format by format, by what the reader of each one accepts. -/
theorem encodeDecodeRoundTrip : Obligations.EncodeDecodeRoundTrip := by
  intro f bytes i h
  cases f with
  | line => exact encode_of_decodeLine h
  | mode => exact encode_of_decodeMode h
  | op => exact encode_of_decodeOp h

/-- Settles O4: the decoder run on each word. -/
theorem writtenWordsDecode : Obligations.WrittenWordsDecode :=
  ⟨rfl, rfl, rfl, rfl, rfl, rfl, rfl, rfl, rfl, rfl, rfl⟩

/-! ### The hex characters of a payload (R78, R85) -/

/-- The two characters of a byte, the high nibble first. -/
def hexPair (v : Byte) : Byte × Byte := (lowHex (v.toNat / 16), lowHex (v.toNat % 16))

theorem hexChars_eq_flatMap (payload : List Byte) :
    hexChars payload = (payload.map hexPair).flatMap fun p => [p.1, p.2] := by
  induction payload with
  | nil => rfl
  | cons v vs ih => simp [hexChars, hexPair, ih]

theorem hexval_hexPair (v : Byte) :
    hexval (hexPair v).1 = some (v.toNat / 16) ∧ hexval (hexPair v).2 = some (v.toNat % 16) :=
  ⟨hexval_lowHex (by have := v.isLt; omega), hexval_lowHex (Nat.mod_lt _ (by decide))⟩

/-- Settles O7: the characters are pairs of hex digits within the bound, and the nibbles of a pair make its byte. -/
theorem hexPayloadRoundTrips : Obligations.HexPayloadRoundTrips := by
  intro max payload hl
  rw [hexChars_eq_flatMap]
  refine parsePairs_ok ?_ 0 (by simpa using hl)
  rw [List.forall₂_map_left_iff, List.forall₂_same]
  intro v _
  obtain ⟨hhigh, hlow⟩ := hexval_hexPair v
  exact ⟨_, _, hhigh, hlow, by rw [Nat.div_add_mod, BitVec.ofNat_toNat, BitVec.setWidth_eq]⟩

end Sys2Proof.Machine
end

section
/-! PROOFS. The operations of the Bus Target below the byte (40_bus_target.md R101 to R104, R107 to R112): on a ready
machine each completes, and changes what its rule says and nothing else. -/

namespace Sys2Proof.Machine

variable {s : State} {t : Tag} {b : BusTarget}

/-- Settles O6: the five mode numbers evaluated, every other number is reserved. -/
theorem idlePolarityByMode : Obligations.IdlePolarityByMode := by
  refine ⟨rfl, rfl, rfl, rfl, rfl, fun n _ _ _ _ _ => ?_⟩
  rw [modeOfNumber_eq_none_iff.2 (by omega), Option.map_none]

/-- The target a ready machine finds under a tag owns four different pins. -/
theorem busPins_ne_of_lookup (hs : s.ready = true) (hb : lookup s.cfg.busReg t = some b) :
    b.pinDout ≠ b.pinClk ∧ b.pinDout ≠ b.pinSel ∧ b.pinClk ≠ b.pinSel ∧ b.pinDin ≠ b.pinDout ∧ b.pinDin ≠ b.pinClk
      ∧ b.pinDin ≠ b.pinSel :=
  Config.busPins_ne (ready_iff.1 hs).1 (registered_of_lookup hb)

/-! ### INIT_BUS, the select, WAIT_HALF -/

theorem initBusLatches_read (v : Bit) (b : BusTarget) (x : PinMap Bit) (p : Pin) :
    (initBusLatches v b x).read p =
      if p = b.pinDout then some false else if p = b.pinClk then some (idleLevel b.mode)
      else if p = b.pinSel then some (!v) else x.read p := by
  simp only [initBusLatches, PinMap.read_write]

theorem initBusDirs_read (b : BusTarget) (dir : PinMap Dir) (p : Pin) :
    (initBusDirs b dir).read p =
      if p = b.pinDin then some .input else if p = b.pinDout then some .output else if p = b.pinClk then some .output
      else if p = b.pinSel then some .output else dir.read p := by
  simp only [initBusDirs, PinMap.read_write]

/-- Settles O10: the three writes of the latches and the four of the directions are to different pins. -/
theorem initBusEffect : Obligations.InitBusEffect := by
  intro s t b hs hb
  obtain ⟨hdc, hds, hcs, hid, hic, his⟩ := busPins_ne_of_lookup hs hb
  refine ⟨_, exec_initBus hs hb, rfl, ?_, ?_, ?_, fun p hsel hclk hdout => ?_, ?_, ?_, ?_, ?_,
    fun p hsel hclk hdout hdin => ?_⟩
  · simp [initBusLatches_read, hds.symm, hcs.symm]
  · simp [initBusLatches_read, hdc.symm]
  · simp [initBusLatches_read]
  · simp [initBusLatches_read, hsel, hclk, hdout]
  · simp [initBusDirs_read, his.symm, hds.symm, hcs.symm]
  · simp [initBusDirs_read, hic.symm, hdc.symm]
  · simp [initBusDirs_read, hid.symm]
  · simp [initBusDirs_read]
  · simp [initBusDirs_read, hsel, hclk, hdout, hdin]

/-- Settles O11: one write of the select latch. -/
theorem selectAssertEffect : Obligations.SelectAssertEffect := fun _ _ _ hs hb =>
  ⟨_, exec_selectAssert hs hb, rfl, PinMap.read_write_same _ _ _, fun _ hp => PinMap.read_write_ne _ _ hp⟩

/-- Settles O12: one write of the select latch. -/
theorem selectDeassertEffect : Obligations.SelectDeassertEffect := fun _ _ _ hs hb =>
  ⟨_, exec_selectDeassert hs hb, rfl, PinMap.read_write_same _ _ _, fun _ hp => PinMap.read_write_ne _ _ hp⟩

/-- Settles O13: one event, with `H` written out. -/
theorem waitHalfEffect : Obligations.WaitHalfEffect := fun _ _ _ hs hb => exec_waitHalf hs hb

/-! ### The five bit-phases -/

/-- The state a bit-phase called by itself leaves. -/
def afterPhase (m : Mode) (b : BusTarget) (d : Bit) (s : State) : State :=
  setRet (.bit (doBitPhase m b d s).2) (doBitPhase m b d s).1

/-- A bit-phase of any mode: its events and its answer, and no other latch than the clock and data-out. -/
theorem afterPhase_effect (m : Mode) (d : Bit) (hs : s.ready = true) (hb : lookup s.cfg.busReg t = some b) :
    afterPhase m b d s = { s with
        x := (afterPhase m b d s).x
        trace := s.trace ++ phaseEvents m b (s.cfg.tickHz / (2 * b.bitRate)) d (answerAt s 0)
        ret := .bit (answerAt s 0)
        din := s.din.drop 1
        samples := s.samples + 1 } ∧
      (afterPhase m b d s).x.read b.pinDout = some d ∧ (afterPhase m b d s).x.read b.pinClk = some (idleLevel m) ∧
      ∀ p, p ≠ b.pinDout → p ≠ b.pinClk → (afterPhase m b d s).x.read p = s.x.read p := by
  obtain ⟨hdc, -⟩ := busPins_ne_of_lookup hs hb
  have hx : (afterPhase m b d s).x = phaseLatches m b d s.x := by rw [afterPhase, doBitPhase_eq]; rfl
  rw [hx]
  refine ⟨?_, ?_, ?_, fun p hdout hclk => ?_⟩
  · rw [afterPhase, doBitPhase_eq, answerAt_zero, List.drop_one]
    rfl
  · rw [phaseLatches_read, if_neg hdc, if_pos rfl]
  · rw [phaseLatches_read, if_pos rfl]
  · rw [phaseLatches_read, if_neg hclk, if_neg hdout]

/-- Settles O14: the bit-phase of mode 0. -/
theorem bitphaseM0Effect : Obligations.BitphaseM0Effect := fun _ _ _ d hs hb =>
  ⟨_, exec_bitphaseM0 hs hb d, afterPhase_effect .m0 d hs hb⟩

/-- Settles O15: the bit-phase of mode 1. -/
theorem bitphaseM1Effect : Obligations.BitphaseM1Effect := fun _ _ _ d hs hb =>
  ⟨_, exec_bitphaseM1 hs hb d, afterPhase_effect .m1 d hs hb⟩

/-- Settles O16: the bit-phase of mode 2. -/
theorem bitphaseM2Effect : Obligations.BitphaseM2Effect := fun _ _ _ d hs hb =>
  ⟨_, exec_bitphaseM2 hs hb d, afterPhase_effect .m2 d hs hb⟩

/-- Settles O17: the bit-phase of mode 3. -/
theorem bitphaseM3Effect : Obligations.BitphaseM3Effect := fun _ _ _ d hs hb =>
  ⟨_, exec_bitphaseM3 hs hb d, afterPhase_effect .m3 d hs hb⟩

/-- Settles O18: the bit-phase of mode 5. -/
theorem bitphaseM5Effect : Obligations.BitphaseM5Effect := fun _ _ _ d hs hb =>
  ⟨_, exec_bitphaseM5 hs hb d, afterPhase_effect .m5 d hs hb⟩

end Sys2Proof.Machine
end

section
/-! PROOFS. EXCHANGE_BYTE and TRANSFER as wholes (40_bus_target.md R105, R106, R113 to R115): what they leave, how many
events they are, and what they return when data-in is wired to data-out. -/

namespace Sys2Proof.Machine

variable {s u : State} {t : Tag} {b : BusTarget}

/-! ### The state after them -/

theorem transfer_next {out : List Byte} (h : exec (.transfer t out) s = .next u)
    (hb : lookup s.cfg.busReg t = some b) :
    s.ready = true ∧ u = setRet (.bytes (doTransfer b out s).2) (doTransfer b out s).1 := by
  obtain ⟨hs, r⟩ := exec_next h
  cases r with
  | transfer _ b' hb' =>
    cases hb.symm.trans hb'
    exact ⟨hs, rfl⟩

theorem exchangeByte_next {v : Byte} (h : exec (.exchangeByte t v) s = .next u)
    (hb : lookup s.cfg.busReg t = some b) :
    s.ready = true ∧ u = setRet (.byte (doExchange b v s).2) (doExchange b v s).1 := by
  obtain ⟨hs, r⟩ := exec_next h
  cases r with
  | exchangeByte _ b' hb' =>
    cases hb.symm.trans hb'
    exact ⟨hs, rfl⟩

/-- The bits of a byte in the order they are driven, bit `n - 1` first. -/
theorem bitsEvents_eq_flatMap (b : BusTarget) (h : Nat) (v : Byte) (n : Nat) (a : Nat → Bit) :
    bitsEvents b h v n a = (List.range n).flatMap fun j => phaseEvents b.mode b h (bitAt v (n - 1 - j)) (a j) := by
  induction n generalizing a with
  | zero => rfl
  | succ n ih =>
    rw [bitsEvents, ih, List.range_succ_eq_map, List.flatMap_cons, List.flatMap_map]
    simp only [Nat.add_sub_cancel, Nat.sub_zero, Nat.sub_sub, Nat.add_comm 1]

/-- Settles O19: what `doExchange` does, its events listed bit by bit. -/
theorem exchangeByteEffect : Obligations.ExchangeByteEffect := by
  intro s t b v hs hb
  obtain ⟨hdc, -⟩ := busPins_ne_of_lookup hs hb
  refine ⟨_, _, exec_exchangeByte hs hb v, ?_, fun k hk => doExchange_bit b v s k hk, ?_⟩
  · rw [doExchange_state, bitsEvents_eq_flatMap]
    rfl
  · simp only [doExchange_state, setRet_x, bitsLatches_read b v 7, if_true, if_neg hdc]
    exact ⟨trivial, trivial, fun p hdout hclk => by rw [if_neg hclk, if_neg hdout]⟩

/-- Settles O20: what `doTransfer` does. -/
theorem transferEffect : Obligations.TransferEffect := by
  intro s t b out hs hb hl
  refine ⟨_, _, exec_transfer hs hb out hl, doTransfer_inbound b out s, ?_, fun ht => ?_, fun hr => ?_,
    fun p hsel hdout hclk => (doTransfer_onlyBus b out s).latch p hdout hclk hsel⟩
  · rw [doTransfer_state]
    rfl
  · simp [doTransfer_state, ht]
  · simp [doTransfer_state, hr]

/-- Settles O23: the last write of the select follows the bytes; the clock and data-out are where the last byte, if any,
left them. -/
theorem transferLeavesLatches : Obligations.TransferLeavesLatches := by
  intro s u t b out h hb
  obtain ⟨hs, rfl⟩ := transfer_next h hb
  obtain ⟨hdc, hds, hcs, -⟩ := busPins_ne_of_lookup hs hb
  simp only [setRet_x, doTransfer_state, transferLatches, PinMap.read_write, if_true, if_neg hcs, if_neg hds]
  refine ⟨fun last hlast => ?_, ?_⟩
  · simp only [bytesLatches_read b out last hlast, if_true, if_neg hdc]
    exact ⟨trivial, trivial, trivial⟩
  · rintro rfl hsel
    exact ⟨hsel.symm, PinMap.read_write_ne _ _ hcs, PinMap.read_write_ne _ _ hds⟩

/-! ### Counting events (R113, R241) -/

section
variable {f : List Event → Nat} (happend : ∀ es fs, f (es ++ fs) = f es + f fs) {h c : Nat}
  (hphase : ∀ d v, f (phaseEvents b.mode b h d v) = c)
include happend hphase

/-- A count that adds up over a trace and is `c` in every bit-phase, of the bytes of a transfer. -/
theorem bytesEvents_count (out : List Byte) (a : Nat → Bit) : f (bytesEvents b h out a) = 8 * c * out.length := by
  have hnil : f [] = 0 := left_eq_add.1 (happend [] [])
  have hbits : ∀ v n a, f (bitsEvents b h v n a) = n * c := by
    intro v n
    induction n with
    | zero => intro _; rw [bitsEvents, hnil, Nat.zero_mul]
    | succ n ih => intro _; rw [bitsEvents, happend, hphase, ih, Nat.succ_mul, Nat.add_comm]
  induction out generalizing a with
  | nil => exact hnil
  | cons v vs ih => rw [bytesEvents, happend, hbits, ih, List.length_cons, Nat.mul_succ, Nat.add_comm]

theorem transferEvents_count (sel : Bit) (out : List Byte) (a : Nat → Bit) :
    f (transferEvents b sel h out a) = f [.drv b.pinSel sel] + (8 * c * out.length + f [.drv b.pinSel (!sel)]) := by
  rw [transferEvents, ← List.singleton_append, happend, happend, bytesEvents_count happend hphase]

end

theorem phaseEvents_length (m : Mode) (b : BusTarget) (h : Nat) (d v : Bit) :
    (phaseEvents m b h d v).length = if m = .m5 then 7 else 6 := by cases m <;> rfl

theorem phaseEvents_waits (m : Mode) (b : BusTarget) (h : Nat) (d v : Bit) :
    ((phaseEvents m b h d v).filter Event.isWait).length = if m = .m5 then 3 else 2 := by cases m <;> rfl

theorem phaseEvents_minTicks (m : Mode) (b : BusTarget) (h : Nat) (d v : Bit) :
    minTicks (phaseEvents m b h d v) = (if m = .m5 then 3 else 2) * h := by
  cases m <;> simp [phaseEvents, minTicks] <;> omega

theorem transferEvents_length (b : BusTarget) (sel : Bit) (h : Nat) (out : List Byte) (a : Nat → Bit) :
    (transferEvents b sel h out a).length = 2 + (if b.mode = .m5 then 56 else 48) * out.length := by
  rw [transferEvents_count (fun _ _ => List.length_append) (phaseEvents_length b.mode b h), List.length_singleton,
    List.length_singleton]
  split_ifs <;> omega

theorem transferEvents_waits (b : BusTarget) (sel : Bit) (h : Nat) (out : List Byte) (a : Nat → Bit) :
    ((transferEvents b sel h out a).filter Event.isWait).length = (if b.mode = .m5 then 24 else 16) * out.length := by
  have hcount := transferEvents_count (f := fun es => (es.filter Event.isWait).length)
    (fun es fs => by rw [List.filter_append, List.length_append]) (phaseEvents_waits b.mode b h) sel out a
  simp only [List.filter_singleton, Event.isWait] at hcount
  rw [hcount]
  split_ifs <;> simp

theorem transferEvents_minTicks (b : BusTarget) (sel : Bit) (h : Nat) (out : List Byte) (a : Nat → Bit) :
    minTicks (transferEvents b sel h out a) = (if b.mode = .m5 then 24 else 16) * out.length * h := by
  rw [transferEvents_count minTicks_append (phaseEvents_minTicks b.mode b h)]
  simp only [minTicks]
  split_ifs <;> ring

/-- An event that writes the latch of pin `p`. -/
def drivesPin (p : Pin) (e : Event) : Bool := decide (e = .drv p true) || decide (e = .drv p false)

theorem drivesPin_drv (p q : Pin) (v : Bit) : drivesPin p (.drv q v) = decide (q = p) := by
  cases v <;> simp [drivesPin]

theorem drivesPin_smp (p q : Pin) (v : Bit) : drivesPin p (.smp q v) = false := rfl

theorem drivesPin_wt (p : Pin) (d : Nat) : drivesPin p (.wt d) = false := rfl

/-- The byte exchanges write the clock and data-out only. -/
theorem bytesEvents_drivesSel (hds : b.pinDout ≠ b.pinSel) (hcs : b.pinClk ≠ b.pinSel) (h : Nat) (out : List Byte)
    (a : Nat → Bit) : (bytesEvents b h out a).filter (drivesPin b.pinSel) = [] := by
  have hphase : ∀ d v, ((phaseEvents b.mode b h d v).filter (drivesPin b.pinSel)).length = 0 := by
    intro d v
    cases b.mode <;> simp [phaseEvents, drivesPin_drv, drivesPin_smp, drivesPin_wt, hds, hcs]
  have hcount := bytesEvents_count (f := fun es => (es.filter (drivesPin b.pinSel)).length)
    (fun es fs => by rw [List.filter_append, List.length_append]) hphase out a
  rw [Nat.mul_zero, Nat.zero_mul] at hcount
  exact List.eq_nil_of_length_eq_zero hcount

theorem transferEvents_drivesSel (hds : b.pinDout ≠ b.pinSel) (hcs : b.pinClk ≠ b.pinSel) (sel : Bit) (h : Nat)
    (out : List Byte) (a : Nat → Bit) :
    (transferEvents b sel h out a).filter (drivesPin b.pinSel) = [.drv b.pinSel sel, .drv b.pinSel (!sel)] := by
  rw [transferEvents, List.filter_cons, drivesPin_drv, List.filter_append, bytesEvents_drivesSel hds hcs,
    List.filter_singleton, drivesPin_drv]
  simp

/-- Settles O21: each count, and the writes of the select, over the events of `doTransfer`. -/
theorem transferEventCounts : Obligations.TransferEventCounts := by
  intro s u t b out h hb
  obtain ⟨hs, rfl⟩ := transfer_next h hb
  obtain ⟨-, hds, hcs, -⟩ := busPins_ne_of_lookup hs hb
  refine ⟨transferEvents b s.cfg.selActive (s.cfg.tickHz / (2 * b.bitRate)) out (answerAt s), ?_,
    transferEvents_length .., transferEvents_waits .., transferEvents_minTicks .., rfl, ?_,
    transferEvents_drivesSel hds hcs ..⟩
  · rw [setRet_trace, doTransfer_state]
    rfl
  · rw [transferEvents, ← List.cons_append, List.getLast?_concat]

/-! ### Loopback (R114) -/

/-- In a bit-phase of any mode data-out is driven before data-in is sampled, and holds until after. -/
theorem loopback_phaseEvents (hdc : b.pinDout ≠ b.pinClk) (m : Mode) {h : Nat} {d a : Bit} {v : Option Bit}
    {es : List Event} (hl : loopback b.pinDout b.pinDin v (phaseEvents m b h d a ++ es)) :
    a = d ∧ loopback b.pinDout b.pinDin (some d) es := by
  cases m <;> simpa [phaseEvents, loopback, hdc.symm, eq_comm] using hl

/-- The bits driven come back in their order. -/
theorem loopback_bitsEvents (hdc : b.pinDout ≠ b.pinClk) {h : Nat} {w : Byte} {n : Nat} {a : Nat → Bit} {v : Option Bit}
    {es : List Event} (hl : loopback b.pinDout b.pinDin v (bitsEvents b h w n a ++ es)) :
    (∀ k, k < n → a k = bitAt w (n - 1 - k)) ∧ ∃ v', loopback b.pinDout b.pinDin v' es := by
  induction n generalizing a v with
  | zero => exact ⟨by simp, v, hl⟩
  | succ n ih =>
    rw [bitsEvents, List.append_assoc] at hl
    obtain ⟨h0, hl⟩ := loopback_phaseEvents hdc b.mode hl
    obtain ⟨hk, hes⟩ := ih hl
    refine ⟨fun k hlt => ?_, hes⟩
    cases k with
    | zero => exact h0
    | succ k => rw [hk k (by omega)]; congr 1; omega

/-- The inbound bytes, one byte after another. -/
theorem isInbound_cons {v : Byte} {vs : List Byte} {n : Nat} {a : Nat → Bit}
    (hv : ∀ k, k < 8 → bitAt v (7 - k) = a k) (hvs : isInbound vs n fun j => a (j + 8)) :
    isInbound (v :: vs) (n + 1) a := by
  obtain ⟨hlen, hbits⟩ := hvs
  refine ⟨by rw [List.length_cons, hlen], fun i w hi k hk => ?_⟩
  cases i with
  | zero =>
    cases hi
    rw [hv k hk, Nat.mul_zero, Nat.zero_add]
  | succ i =>
    exact (hbits i w hi k hk).trans (congrArg a (by omega))

/-- The answers are all the bits of the inbound bytes. -/
theorem isInbound_unique {vs ws : List Byte} {n : Nat} {a : Nat → Bit} (hv : isInbound vs n a) (hw : isInbound ws n a) :
    vs = ws := by
  obtain ⟨hlv, hv⟩ := hv
  obtain ⟨hlw, hw⟩ := hw
  refine List.ext_getElem (hlv.trans hlw.symm) fun i hi hi' => Byte.ext_bitAt fun k hk => ?_
  have hbit : 7 - (7 - k) = k := by omega
  have hvk := hv i _ (List.getElem?_eq_getElem hi) (7 - k) (by omega)
  have hwk := hw i _ (List.getElem?_eq_getElem hi') (7 - k) (by omega)
  rwa [← hwk, hbit] at hvk

theorem loopback_bytesEvents (hdc : b.pinDout ≠ b.pinClk) {h : Nat} {out : List Byte} {a : Nat → Bit} {v : Option Bit}
    {es : List Event} (hl : loopback b.pinDout b.pinDin v (bytesEvents b h out a ++ es)) :
    isInbound out out.length a := by
  induction out generalizing a v with
  | nil => exact ⟨rfl, by simp⟩
  | cons w ws ih =>
    rw [bytesEvents, List.append_assoc] at hl
    obtain ⟨hbits, v', hl⟩ := loopback_bitsEvents hdc hl
    exact isInbound_cons (fun k hk => (hbits k hk).symm) (ih hl)

theorem exchangeByte_ret_of_loopback {v : Byte} {evs : List Event} (h : exec (.exchangeByte t v) s = .next u)
    (hb : lookup s.cfg.busReg t = some b) (htrace : u.trace = s.trace ++ evs)
    (hl : loopback b.pinDout b.pinDin (s.x.read b.pinDout) evs) : u.ret = .byte v := by
  obtain ⟨hs, rfl⟩ := exchangeByte_next h hb
  obtain ⟨hdc, -⟩ := busPins_ne_of_lookup hs hb
  have hevs : bitsEvents b (busHalf b s) v 8 (answerAt s) ++ [] = evs := by
    rw [setRet_trace, doExchange_state] at htrace
    exact (List.append_nil _).trans (List.append_cancel_left htrace)
  rw [← hevs] at hl
  obtain ⟨hbits, -⟩ := loopback_bitsEvents hdc hl
  refine congrArg Ret.byte (Byte.ext_bitAt fun k hk => ?_)
  have hbit : 7 - (7 - k) = k := by omega
  have hk' := (doExchange_bit b v s (7 - k) (by omega)).trans (hbits (7 - k) (by omega))
  rwa [hbit] at hk'

theorem transfer_ret_of_loopback {out : List Byte} {evs : List Event} (h : exec (.transfer t out) s = .next u)
    (hb : lookup s.cfg.busReg t = some b) (htrace : u.trace = s.trace ++ evs)
    (hl : loopback b.pinDout b.pinDin (s.x.read b.pinDout) evs) : u.ret = .bytes out := by
  obtain ⟨hs, rfl⟩ := transfer_next h hb
  obtain ⟨hdc, -⟩ := busPins_ne_of_lookup hs hb
  rw [setRet_trace, doTransfer_state] at htrace
  rw [← List.append_cancel_left htrace] at hl
  have hout := loopback_bytesEvents hdc (v := _) hl
  exact congrArg Ret.bytes (isInbound_unique (doTransfer_inbound b out s) hout)

/-- Settles O22: every answer is the bit just driven, and the answers are the bits returned. -/
theorem loopbackReturnsOutbound : Obligations.LoopbackReturnsOutbound :=
  ⟨fun _ _ _ _ _ _ => exchangeByte_ret_of_loopback, fun _ _ _ _ _ _ => transfer_ret_of_loopback⟩

end Sys2Proof.Machine
end

section
/-! PROOFS. The sequencer (40_bus_target.md R117): its step function position by position, and a transfer run by it. -/

namespace Sys2Proof.Machine

variable {s : State} {b : BusTarget} {i k j : Nat} {l : List Byte}

/-! ### Position by position -/

theorem step_at_pre (hw : s.cfg.wf = true) (hl : s.buf = some l) (hq : s.seq = .pre b) :
    step s = .next { s with
      x := s.x.write b.pinSel s.cfg.selActive
      trace := s.trace ++ [.drv b.pinSel s.cfg.selActive]
      seq := .xfer b 0 7 0
      tx := l.head?
      rx := l.head?.map fun _ => 0#8 } := by
  have hbyte : bufByte (doSelectAssert b s) 0 = l.head? := by
    simp [bufByte, doSelectAssert, hl, List.head?_eq_getElem?]
  rw [step_of_pre hw hq, enterByte, hbyte]
  rfl

theorem step_at_end (hw : s.cfg.wf = true) (hl : s.buf = some l) (hq : s.seq = .xfer b i k j) (ht : s.tx = none) :
    step s = .next { s with
      x := s.x.write b.pinSel (!s.cfg.selActive)
      seq := .idle
      buf := none
      outq := s.outq ++ dataLine s.cfg l
      trace := s.trace ++ .drv b.pinSel (!s.cfg.selActive) :: (dataLine s.cfg l).map .tx } := by
  rw [step_of_end hw hq ht, finishTransfer_eq, hl, Option.getD_some]

/-- Within a bit the next action comes next. -/
theorem advance_within (hj : j + 1 < (actions b.mode).length) (r : Byte) :
    advance b i k j r s = { s with rx := some r, seq := .xfer b i k (j + 1) } := if_pos hj

/-- After a bit the bit below it. -/
theorem advance_bit (hj : j + 1 = (actions b.mode).length) (hk : 0 < k) (r : Byte) :
    advance b i k j r s = { s with rx := some r, seq := .xfer b i (k - 1) 0 } := by
  obtain ⟨k, rfl⟩ := Nat.exists_eq_succ_of_ne_zero (Nat.ne_of_gt hk)
  exact if_neg (Nat.not_lt_of_le hj.ge)

/-- After bit 0 the inbound byte is stored and the next byte entered. -/
theorem advance_byte (hj : j + 1 = (actions b.mode).length) (hl : s.buf = some l) (r : Byte) :
    advance b i 0 j r s = { s with
      buf := some (l.set i r)
      seq := .xfer b (i + 1) 7 0
      tx := l[i + 1]?
      rx := l[i + 1]?.map fun _ => 0#8 } := by
  have hnext : (l.set i r)[i + 1]? = l[i + 1]? := List.getElem?_set_ne (by omega)
  rw [advance, if_neg (Nat.not_lt_of_le hj.ge)]
  simp only [enterByte, bufByte, hl, Option.map_some, Option.getD_some, hnext]

/-- Settles O48: at `PRE`, at an action of a byte, at the end. -/
theorem sequencerStep : Obligations.SequencerStep := by
  intro s b l hv hl
  refine ⟨step_at_pre hv.cfgOk hl, fun i k j d hq hi hd => ?_, fun k j hq => ?_⟩
  · obtain ⟨l', x⟩ := (seqOk_xfer hq).1 hv.seq
    cases hl.symm.trans x.buf
    obtain ⟨v, hlv, rfl⟩ := Option.map_eq_some_iff.1 hd
    obtain ⟨r, hr⟩ := Option.isSome_iff_exists.1 (x.rx.2 hi)
    obtain ⟨a, ha⟩ : ∃ a, (actions b.mode)[j]? = some a := ⟨_, List.getElem?_eq_getElem x.action⟩
    obtain ⟨-, -, -, -, hbuf⟩ := act_fields b (bitAt v k) a s
    refine ⟨a, r, _, ha, hr, rfl, ?_⟩
    rw [step_of_action hv.cfgOk hq (x.tx.trans hlv) hr ha]
    refine ⟨fun hj => ?_, fun hj hk => ?_, ?_⟩
    · rw [advance_within hj]
    · rw [advance_bit hj hk]
    · rintro hj rfl
      rw [advance_byte hj (hbuf.trans hl)]
  · obtain ⟨l', x⟩ := (seqOk_xfer hq).1 hv.seq
    cases hl.symm.trans x.buf
    exact step_at_end hv.cfgOk hl hq (x.tx.trans (List.getElem?_eq_none_iff.2 (Nat.le_refl _)))

/-! ### A whole transfer -/

theorem doCmdT_of_parse {arg out : List Byte} (hp : parseTransfer s.cfg arg = .ok (b, out)) :
    doCmdT arg s = discardBuf (sendData (doTransfer b out s).2 (doTransfer b out s).1) := by
  rw [doCmdT, hp]

/-- The bytes of a transfer, from its first action to the position where only SELECT_DEASSERT remains. -/
theorem run_transferBytes (hw : s.cfg.wf = true) (out : List Byte) :
    runSteps (8 * (actions b.mode).length * out.length) (enterByte b 0 (beginTransfer b out s)) =
      .next (enterByte b out.length (beginTransfer b (exchangeAll b out s).2 (exchangeAll b out s).1)) := by
  have h := run_bytes (b := b) out [] s hw
  rw [List.length_nil, Nat.zero_add] at h
  exact h

/-- The byte exchanges leave the sequencer idle and its transient bytes absent if they were so. -/
theorem exchangeAll_registers (b : BusTarget) (out : List Byte) (hq : s.seq = .idle) (ht : s.tx = none)
    (hr : s.rx = none) :
    (exchangeAll b out s).1.seq = .idle ∧ (exchangeAll b out s).1.tx = none ∧ (exchangeAll b out s).1.rx = none := by
  simp [exchangeAll_state, hq, ht, hr]

/-- Where the inbound bytes `inb` stand in `buf` and only SELECT_DEASSERT remains, a step does the rest of CMD_T. -/
theorem step_of_lastPosition (hw : s.cfg.wf = true) (hq : s.seq = .idle) (ht : s.tx = none) (hr : s.rx = none)
    (inb : List Byte) :
    step (enterByte b inb.length (beginTransfer b inb s)) =
      .next (discardBuf (sendData inb (doSelectDeassert b s))) := by
  have hbyte : bufByte (beginTransfer b inb s) inb.length = none := by simp [bufByte, beginTransfer]
  rw [step_at_end (s := enterByte b inb.length (beginTransfer b inb s)) hw rfl rfl hbyte, enterByte, hbyte]
  simp [beginTransfer, sendData, sendBytes_eq, discardBuf, doSelectDeassert, drive, logEvent, hq, ht, hr]

/-- Settles O49: one step for select, the run of the bytes, one step for the end. -/
theorem sequencerRunsTransfer : Obligations.SequencerRunsTransfer := by
  intro s arg b out hv hq hp
  obtain ⟨-, ht, hr⟩ := (seqOk_idle hq).1 hv.seq
  have hpre : step (beginTransfer b out s) = .next (enterByte b 0 (beginTransfer b out (doSelectAssert b s))) :=
    step_of_pre (s := beginTransfer b out s) hv.cfgOk rfl
  have hbytes := run_transferBytes (b := b) (s := doSelectAssert b s) hv.cfgOk out
  obtain ⟨hq', ht', hr'⟩ := exchangeAll_registers (s := doSelectAssert b s) b out hq ht hr
  have hlast := step_of_lastPosition (b := b) (by rw [exchangeAll_state]; exact hv.cfgOk) hq' ht' hr'
    (exchangeAll b out (doSelectAssert b s)).2
  rw [exchangeAll_length] at hlast
  have hsteps : 2 + 8 * (actions b.mode).length * out.length = 8 * (actions b.mode).length * out.length + 1 + 1 := by
    omega
  rw [exec_cmdT (hv.ready hq), doCmdT_of_parse hp, hsteps, run_succ hpre, run_add hbytes, run_succ hlast]
  rfl

end Sys2Proof.Machine
end

section
/-! PROOFS. The Output Target (41_output_target.md R141 to R143): what its two operations leave, and that besides them
only an I line of its own tag writes its latch. -/

namespace Sys2Proof.Machine

variable {s t u : State} {b : BusTarget} {g : Tag} {o : OutputTarget} {p : Pin}

/-! ### INIT_OUT and SET -/

/-- A clear leaves every other pin, whatever the form of the map. -/
theorem PinMap.read_clear_ne {α : Type} (m : PinMap α) {p q : Pin} (h : q ≠ p) :
    (PinMap.clear m p).read q = PinMap.read m q := by
  induction m with
  | nil => rfl
  | cons e m ih =>
    obtain ⟨r, w⟩ := e
    unfold PinMap.clear
    split_ifs with hp
    · subst hp
      simp [PinMap.read, h]
    · simp only [PinMap.read, ih]

/-- Settles O24: one clear of a canonical latch map, one write of the directions. -/
theorem initOutEffect : Obligations.InitOutEffect := by
  intro s g o hs hx ho
  refine ⟨_, exec_initOut hs ho, rfl, ?_, fun _ hp => PinMap.read_clear_ne _ hp, PinMap.read_write_same _ _ _,
    fun _ hp => PinMap.read_write_ne _ _ hp⟩
  rw [doInitOut_x, PinMap.read_clear hx, if_pos rfl]

/-- Settles O25: one write of the latch of the pin. -/
theorem setEffect : Obligations.SetEffect := fun _ _ _ level hs ho =>
  ⟨_, exec_setOut hs ho level, rfl, PinMap.read_write_same _ _ _, fun _ hp => PinMap.read_write_ne _ _ hp⟩

/-! ### Two Output Targets -/

/-- Two Output Targets on one pin have one tag (00_scope.md R8(b)). -/
theorem outTag_eq_of_pin {cfg : Config} (hw : cfg.wf = true) {g' : Tag} {o' : OutputTarget}
    (ho : (g, o) ∈ cfg.outReg) (ho' : (g', o') ∈ cfg.outReg) (hp : o.pinOut = o'.pinOut) : g = g' := by
  obtain ⟨-, hpins, -⟩ := Config.wf_iff.1 hw
  have hout : (cfg.outReg.map fun e => e.2.pinOut).Nodup := (List.nodup_append.1 hpins).2.1
  exact congrArg Prod.fst (List.inj_on_of_nodup_map hout ho ho' hp)

/-- The target of a valid I line is the one registered under its first byte (42_command_front_end.md R159). -/
theorem parseOutput_tag {cfg : Config} {arg : List Byte} {level : Bool} (h : parseOutput cfg arg = .ok (o, level)) :
    ∃ g rest, arg = g :: rest ∧ (g, o) ∈ cfg.outReg := by
  unfold parseOutput at h
  split at h
  · cases h
  next g rest =>
    split at h
    · cases h
    next ho =>
      split at h
      · cases h
      split at h
      · cases h
      split_ifs at h
      cases h
      exact ⟨g, _, rfl, mem_of_lookup ho⟩

/-! ### What leaves a latch as it is -/

/-- From `s` to `u` the configuration stayed, and pin `p` reads the same. -/
structure KeepsLatch (p : Pin) (s u : State) : Prop where
  cfg : u.cfg = s.cfg
  read : u.x.read p = s.x.read p

theorem KeepsLatch.of_eq (hc : u.cfg = s.cfg) (hx : u.x = s.x) : KeepsLatch p s u := ⟨hc, by rw [hx]⟩

theorem KeepsLatch.setRet (h : KeepsLatch p s u) (r : Ret) : KeepsLatch p s (setRet r u) := ⟨h.cfg, h.read⟩

theorem KeepsLatch.trans (h : KeepsLatch p s t) (k : KeepsLatch p t u) : KeepsLatch p s u :=
  ⟨k.cfg.trans h.cfg, k.read.trans h.read⟩

/-- What changes only latches of one Bus Target keeps the latch of every Output Target. -/
theorem OnlyBus.keepsLatch (f : OnlyBus b s u) (hw : s.cfg.wf = true) (hb : isRegistered s.cfg b)
    (ho : (g, o) ∈ s.cfg.outReg) : KeepsLatch o.pinOut s u := by
  obtain ⟨hdout, -, hclk, hsel⟩ := Config.outPin_ne hw hb ho
  exact ⟨f.cfg, f.latch _ hdout hclk hsel⟩

theorem sendBytes_keepsLatch (bs : List Byte) : KeepsLatch p s (sendBytes bs s) :=
  .of_eq (sendBytes_cfg s bs) (sendBytes_x s bs)

theorem raiseError_keepsLatch (d : Diag) : KeepsLatch p s (raiseError d s) := by
  rw [raiseError_eq]
  exact .of_eq rfl rfl

theorem doFeed_keepsLatch (c : Byte) : KeepsLatch p s (doFeed c s) := by
  rw [doFeed_eq]
  exact .of_eq rfl rfl

theorem doInitBus_onlyBus (b : BusTarget) (s : State) : OnlyBus b s (doInitBus b s) where
  cfg := rfl
  latch := fun p hdout hclk hsel => by
    rw [doInitBus_x, initBusLatches_read, if_neg hdout, if_neg hclk, if_neg hsel]

theorem doBitPhase_onlyBus (m : Mode) (b : BusTarget) (d : Bit) (s : State) : OnlyBus b s (doBitPhase m b d s).1 := by
  rw [doBitPhase_eq]
  exact ⟨rfl, fun p hdout hclk _ => by rw [phaseLatches_read, if_neg hclk, if_neg hdout]⟩

theorem doExchange_onlyBus (b : BusTarget) (v : Byte) (s : State) : OnlyBus b s (doExchange b v s).1 := by
  rw [doExchange_state]
  exact ⟨rfl, fun p hdout hclk _ => by rw [bitsLatches_read, if_neg hclk, if_neg hdout]⟩

/-! ### The command lines -/

theorem doCmdD_keepsLatch (arg : List Byte) (s : State) : KeepsLatch p s (doCmdD arg s) := by
  unfold doCmdD
  split
  · exact raiseError_keepsLatch _
  · exact .of_eq (by simp [sendBare]) (by simp [sendBare])

theorem doCmdT_keepsLatch (hw : s.cfg.wf = true) (ho : (g, o) ∈ s.cfg.outReg) (arg : List Byte) :
    KeepsLatch o.pinOut s (doCmdT arg s) := by
  unfold doCmdT
  split
  · exact raiseError_keepsLatch _
  next b out hp =>
    have hsent : KeepsLatch o.pinOut s (sendData (doTransfer b out s).2 (doTransfer b out s).1) :=
      ((doTransfer_onlyBus b out s).keepsLatch hw (parseTransfer_ok hp).1 ho).trans (sendBytes_keepsLatch _)
    exact hsent.trans (.of_eq rfl rfl)

/-- An I line drives the pin of its own tag, and pins are owned by one target. -/
theorem doCmdI_keepsLatch_or (hw : s.cfg.wf = true) (ho : (g, o) ∈ s.cfg.outReg) (arg : List Byte) :
    KeepsLatch o.pinOut s (doCmdI arg s) ∨ ∃ rest, arg = g :: rest := by
  unfold doCmdI
  split
  · exact .inl (raiseError_keepsLatch _)
  next o' level hp =>
    obtain ⟨g', rest, rfl, ho'⟩ := parseOutput_tag hp
    by_cases hpin : o.pinOut = o'.pinOut
    · obtain rfl := outTag_eq_of_pin hw ho ho' hpin
      exact .inr ⟨rest, rfl⟩
    · exact .inl ⟨rfl, PinMap.read_write_ne _ _ hpin⟩

theorem keyOf_eq_output {key : Byte} (h : keyOf key = .output) : key = 0x49#8 := by
  unfold keyOf at h
  split_ifs at h
  assumption

/-- DISPATCH keeps the latch of an Output Target unless the line is an I line of its tag. -/
theorem doDispatch_keepsLatch_or (hw : s.cfg.wf = true) (ho : (g, o) ∈ s.cfg.outReg) (key : Byte) (arg : List Byte) :
    KeepsLatch o.pinOut s (doDispatch key arg s) ∨ ∃ rest, key :: arg = 0x49#8 :: g :: rest := by
  unfold doDispatch
  split
  · exact .inl (doCmdD_keepsLatch arg s)
  · exact .inl (doCmdT_keepsLatch hw ho arg)
  next hk =>
    obtain rfl := keyOf_eq_output hk
    rcases doCmdI_keepsLatch_or hw ho arg with h | ⟨rest, rfl⟩
    · exact .inl h
    · exact .inr ⟨rest, rfl⟩
  · exact .inl (.of_eq rfl rfl)
  · exact .inl (raiseError_keepsLatch _)

/-- SERVICE's loop keeps the latch of an Output Target unless it dispatches an I line of its tag. -/
theorem serviceAll_keepsLatch_or (hw : s.cfg.wf = true) (ho : (g, o) ∈ s.cfg.outReg) (cs : List Byte) :
    KeepsLatch o.pinOut s (serviceAll cs s) ∨
      ∃ rest, 0x49#8 :: g :: rest ∈ linesOf (lineCap s.cfg) s.line cs := by
  by_cases hline : ∃ rest, 0x49#8 :: g :: rest ∈ linesOf (lineCap s.cfg) s.line cs
  · exact .inr hline
  left
  refine serviceAll_keeps (P := KeepsLatch o.pinOut s) (fun _ _ _ hu => hu.trans (.of_eq rfl rfl)) cs s
    (.of_eq rfl rfl) fun key arg u hmem hu => ?_
  rcases doDispatch_keepsLatch_or (s := u) (by rwa [hu.cfg]) (by rwa [hu.cfg]) key arg with hk | ⟨rest, he⟩
  · exact hu.trans hk
  · exact absurd ⟨rest, he ▸ hmem⟩ hline

/-! ### The instructions -/

/-- The instructions that may write the latch of the Output Target of tag `g`, run from `s` (R143). -/
def MayWriteOutput (g : Tag) (s : State) (i : Instr) : Prop :=
  i = .initOut g ∨ (∃ level, i = .setOut g level) ∨ (∃ rest, i = .cmdI (g :: rest)) ∨
    (∃ rest, i = .dispatch (0x49#8 :: g :: rest)) ∨
    (i = .service ∧ ∃ rest, 0x49#8 :: g :: rest ∈ linesOf (lineCap s.cfg) s.line s.inq)

/-- Every other instruction keeps the latch of the Output Target: a line by its rule, an operation of a Bus Target by the
latches it changes, an operation of another Output Target by its pin. -/
theorem Ran.keepsLatch_or {i : Instr} (r : Ran s i u) (hw : s.cfg.wf = true) (ho : (g, o) ∈ s.cfg.outReg) :
    KeepsLatch o.pinOut s u ∨ MayWriteOutput g s i := by
  have hbus {t : Tag} {b : BusTarget} {u : State} (hb : lookup s.cfg.busReg t = some b) (f : OnlyBus b s u) :
      KeepsLatch o.pinOut s u := f.keepsLatch hw (registered_of_lookup hb) ho
  cases r with
  | cmdD arg => exact .inl (doCmdD_keepsLatch arg s)
  | cmdT arg => exact .inl (doCmdT_keepsLatch hw ho arg)
  | cmdI arg =>
    rcases doCmdI_keepsLatch_or hw ho arg with h | ⟨rest, rfl⟩
    · exact .inl h
    · exact .inr (.inr (.inr (.inl ⟨rest, rfl⟩)))
  | cmdComment arg => exact .inl (.of_eq rfl rfl)
  | cmdUnknown key rest => exact .inl (raiseError_keepsLatch _)
  | service =>
    rcases serviceAll_keepsLatch_or hw ho s.inq with h | h
    · exact .inl h
    · exact .inr (.inr (.inr (.inr (.inr ⟨rfl, h⟩))))
  | feed c => exact .inl ((doFeed_keepsLatch c).setRet _)
  | dispatch key arg =>
    rcases doDispatch_keepsLatch_or hw ho key arg with h | ⟨rest, he⟩
    · exact .inl h
    · exact .inr (.inr (.inr (.inr (.inl ⟨rest, congrArg Instr.dispatch he⟩))))
  | respBare r => exact .inl (sendBytes_keepsLatch _)
  | respData payload => exact .inl (sendBytes_keepsLatch _)
  | respComment text => exact .inl (sendBytes_keepsLatch _)
  | banner => exact .inl (sendBytes_keepsLatch _)
  | bitphaseM0 t b hb d => exact .inl ((hbus hb (doBitPhase_onlyBus _ b d s)).setRet _)
  | bitphaseM1 t b hb d => exact .inl ((hbus hb (doBitPhase_onlyBus _ b d s)).setRet _)
  | bitphaseM2 t b hb d => exact .inl ((hbus hb (doBitPhase_onlyBus _ b d s)).setRet _)
  | bitphaseM3 t b hb d => exact .inl ((hbus hb (doBitPhase_onlyBus _ b d s)).setRet _)
  | bitphaseM5 t b hb d => exact .inl ((hbus hb (doBitPhase_onlyBus _ b d s)).setRet _)
  | initBus t b hb => exact .inl (hbus hb (doInitBus_onlyBus b s))
  | selectAssert t b hb => exact .inl (hbus hb (drive_onlyBus _ s (.inr (.inr rfl))))
  | selectDeassert t b hb => exact .inl (hbus hb (drive_onlyBus _ s (.inr (.inr rfl))))
  | transfer t b hb out hl => exact .inl ((hbus hb (doTransfer_onlyBus b out s)).setRet _)
  | exchangeByte t b hb tx => exact .inl ((hbus hb (doExchange_onlyBus b tx s)).setRet _)
  | waitHalf t b hb => exact .inl (.of_eq rfl rfl)
  | initOut t o' ho' =>
    by_cases hpin : o.pinOut = o'.pinOut
    · exact .inr (.inl (congrArg _ (outTag_eq_of_pin hw ho (mem_of_lookup ho') hpin).symm))
    · exact .inl ⟨rfl, PinMap.read_clear_ne _ hpin⟩
  | setOut t o' ho' level =>
    by_cases hpin : o.pinOut = o'.pinOut
    · obtain rfl := outTag_eq_of_pin hw ho (mem_of_lookup ho') hpin
      exact .inr (.inr (.inl ⟨level, rfl⟩))
    · exact .inl ⟨rfl, PinMap.read_write_ne _ _ hpin⟩

/-! ### A step -/

/-- A line that one byte delivers is what was accumulated before it, and the byte is a terminator. -/
theorem mem_linesOf_singleton {cap : Nat} {acc l : List Byte} {c : Byte} (h : l ∈ linesOf cap acc [c]) :
    l = acc ∧ isTerminator c = true := by
  by_cases ht : isTerminator c = true
  · rw [linesOf_terminator ht] at h
    split_ifs at h
    · simp at h
    · exact ⟨by simpa using h, ht⟩
  · rw [linesOf_content (by simpa using ht)] at h
    simp at h

/-- A byte read by the machine: it starts a transfer, which drives nothing yet, or is one turn of SERVICE's loop. -/
theorem pollByte_keepsLatch_or (hs : s.ready = true) (ho : (g, o) ∈ s.cfg.outReg) {c : Byte}
    (h : pollByte c s = .next u) :
    KeepsLatch o.pinOut s u ∨ (∃ rest, s.line = 0x49#8 :: g :: rest) ∧ isTerminator c = true := by
  rcases pollByte_cases hs c with hp | ⟨b, out, -, hp⟩
  · cases hp.symm.trans h
    rcases serviceAll_keepsLatch_or (ready_iff.1 hs).1 ho [c] with hk | ⟨rest, hmem⟩
    · exact .inl hk
    · obtain ⟨hl, ht⟩ := mem_linesOf_singleton hmem
      exact .inr ⟨⟨rest, hl.symm⟩, ht⟩
  · cases hp.symm.trans h
    have hread : KeepsLatch o.pinOut s (rxByte c s) := .of_eq rfl rfl
    exact .inl ((hread.trans (doFeed_keepsLatch c)).trans (.of_eq rfl rfl))

/-- A step that runs no call keeps the latch of an Output Target unless it reads the terminator of an I line of its
tag: the sequencer changes only latches of the target of the transfer. -/
theorem Stepped.keepsLatch_or (p : Stepped s u) (hv : s.Inv) (hcalls : s.calls = []) (ho : (g, o) ∈ s.cfg.outReg) :
    KeepsLatch o.pinOut s u ∨ s.seq = .idle ∧ (∃ rest, s.line = 0x49#8 :: g :: rest) ∧
      ∃ c more, s.inq = c :: more ∧ isTerminator c = true := by
  cases p with
  | call hq hc hr => simp [hcalls] at hc
  | @byte c more _ hq hc hi hp =>
    rcases pollByte_keepsLatch_or (hv.ready hq) ho hp with h | ⟨hline, ht⟩
    · exact .inl h
    · exact .inr ⟨hq, hline, c, more, hi, ht⟩
  | nothing hq hc hi => exact .inl (.of_eq rfl rfl)
  | @select b hq =>
    obtain ⟨hb, -⟩ := (seqOk_pre hq).1 hv.seq
    have hsel : OnlyBus b s (doSelectAssert b s) := drive_onlyBus _ s (.inr (.inr rfl))
    exact .inl ((hsel.keepsLatch hv.cfgOk hb ho).trans (.of_eq rfl rfl))
  | @action b i k j v r a hq ht hr ha =>
    obtain ⟨l, x⟩ := (seqOk_xfer hq).1 hv.seq
    obtain ⟨hcfg, hx, -⟩ := advance_frame b i k j (storeSample r k (act b (bitAt v k) a s).2)
      (act b (bitAt v k) a s).1
    exact .inl (((act_onlyBus b _ a s).keepsLatch hv.cfgOk x.registered ho).trans (.of_eq hcfg hx))
  | @finish b i k j hq ht =>
    obtain ⟨l, x⟩ := (seqOk_xfer hq).1 hv.seq
    have hsel : OnlyBus b s (doSelectDeassert b s) := drive_onlyBus _ s (.inr (.inr rfl))
    rw [finishTransfer_eq]
    exact .inl ((hsel.keepsLatch hv.cfgOk x.registered ho).trans (.of_eq rfl rfl))

/-- Settles O26: by what an instruction, and what a step, can do. -/
theorem onlySetWritesOutput : Obligations.OnlySetWritesOutput := by
  constructor
  · intro i s u g o h ho
    obtain ⟨hs, r⟩ := exec_next h
    exact (r.keepsLatch_or (ready_iff.1 hs).1 (mem_of_lookup ho)).imp_left KeepsLatch.read
  · intro s u g o hv hcalls h ho
    rcases (step_next hv h).keepsLatch_or hv hcalls (mem_of_lookup ho) with hk | ⟨hq, hline, c, more, hi, ht⟩
    · exact .inl hk.read
    · exact .inr ⟨hq, hline, c, more, hi, isTerminator_iff.1 ht⟩

end Sys2Proof.Machine
end

section
/-! PROOFS. The Response Encoder (42_command_front_end.md R162 to R165): the bytes of each response, and that a response
changes nothing but `outq` and the trace. -/

namespace Sys2Proof.Machine

variable {s : State}

/-! ### Comment lines -/

theorem sendComment_quiet (hd : s.cfg.debug = false) (text : List Byte) : sendComment text s = s := by
  simp [sendComment, commentLine, hd, sendBytes]

theorem sendComment_debug (hd : s.cfg.debug = true) (text : List Byte) :
    sendComment text s = { s with
      outq := s.outq ++ commentBytes s.cfg text
      trace := s.trace ++ (commentBytes s.cfg text).map .tx } := by
  rw [sendComment, sendBytes_eq, commentLine, if_pos hd]
  rfl

/-- Settles O43: the comment line, with the flag either way. -/
theorem commentResponse : Obligations.CommentResponse := by
  intro s text hs
  rw [exec_respComment hs]
  exact ⟨fun hd => by rw [sendComment_quiet hd], fun hd => by rw [sendComment_debug hd]; rfl⟩

/-- Settles O44: BANNER is RESP_COMMENT of a text of the configuration. -/
theorem bannerResponse : Obligations.BannerResponse := by
  intro s hs
  have hcomment : exec .banner s = exec (.respComment s.cfg.bannerText) s :=
    (exec_banner hs).trans (exec_respComment hs _).symm
  rw [hcomment]
  exact ⟨rfl, commentResponse s s.cfg.bannerText hs⟩

/-! ### Bare codes -/

theorem sendBare_eq (r : BareCode) (s : State) :
    sendBare r s = { s with
      outq := s.outq ++ bareByte r :: termBytes s.cfg.respTerm
      trace := s.trace ++ (bareByte r :: termBytes s.cfg.respTerm).map .tx } :=
  sendBytes_eq _ s

/-- Settles O41: the line of each bare code. -/
theorem bareResponse : Obligations.BareResponse := by
  intro s hs
  rw [exec_respBare hs, exec_respBare hs, sendBare_eq, sendBare_eq]
  exact ⟨rfl, rfl⟩

/-! ### Data responses -/

theorem sendData_eq (payload : List Byte) (s : State) :
    sendData payload s = { s with
      outq := s.outq ++ 0x53#8 :: (hexChars payload ++ termBytes s.cfg.respTerm)
      trace := s.trace ++ (0x53#8 :: (hexChars payload ++ termBytes s.cfg.respTerm)).map .tx } :=
  sendBytes_eq _ s

theorem hexChars_length (payload : List Byte) : (hexChars payload).length = 2 * payload.length := by
  induction payload with
  | nil => rfl
  | cons v vs ih => simp [hexChars, ih, Nat.mul_add]

/-- A decimal digit or one of the letters `a` to `f` (30_encoding.md R85). -/
abbrev isLowHexDigit (c : Byte) : Prop :=
  (0x30 ≤ c.toNat ∧ c.toNat ≤ 0x39) ∨ (0x61 ≤ c.toNat ∧ c.toNat ≤ 0x66)

theorem lowHex_isLowHexDigit {v : Nat} (h : v < 16) : isLowHexDigit (lowHex v) := by
  have key : ∀ w : Fin 16, isLowHexDigit (lowHex w) := by decide
  exact key ⟨v, h⟩

theorem hexChars_isLowHexDigit {payload : List Byte} {c : Byte} (h : c ∈ hexChars payload) : isLowHexDigit c := by
  induction payload with
  | nil => cases h
  | cons v vs ih =>
    simp only [hexChars, List.mem_cons] at h
    rcases h with rfl | rfl | h
    · exact lowHex_isLowHexDigit (by have := v.isLt; omega)
    · exact lowHex_isLowHexDigit (Nat.mod_lt _ (by decide))
    · exact ih h

/-- The characters at `2 * i` and `2 * i + 1` are the two of byte `i`. -/
theorem hexChars_getElem? {payload : List Byte} {i : Nat} {v : Byte} (h : payload[i]? = some v) :
    (hexChars payload)[2 * i]? = some (hexPair v).1 ∧ (hexChars payload)[2 * i + 1]? = some (hexPair v).2 := by
  induction payload generalizing i with
  | nil => simp at h
  | cons w vs ih =>
    cases i with
    | zero =>
      obtain rfl : w = v := by simpa using h
      exact ⟨rfl, rfl⟩
    | succ i => exact ih (by simpa using h)

/-- Settles O42: the characters of a payload byte by byte. -/
theorem dataResponse : Obligations.DataResponse := by
  intro s payload hs
  refine ⟨hexChars payload, ?_, hexChars_length payload, fun c hc => hexChars_isLowHexDigit hc, fun i v hv => ?_⟩
  · rw [exec_respData hs, sendData_eq]
  · obtain ⟨hhigh, hlow⟩ := hexChars_getElem? hv
    rw [hhigh, hlow]
    exact hexval_hexPair v

end Sys2Proof.Machine
end

section
/-! PROOFS. The command lines (42_command_front_end.md R154 to R161): what each leaves when its argument passes every
check, and the error of the first check that fails. -/

namespace Sys2Proof.Machine

variable {s : State} {t : Tag} {b : BusTarget} {o : OutputTarget} {arg : List Byte} {d : Diag}

/-! ### A line that fails a check -/

theorem exec_cmdD_error (hs : s.ready = true) (hp : parseDelay s.cfg.delayWidth arg = .error d) :
    exec (.cmdD arg) s = .next (errorState d s) := by
  rw [exec_cmdD hs, doCmdD, hp, ← raiseError_eq]

theorem exec_cmdT_error (hs : s.ready = true) (hp : parseTransfer s.cfg arg = .error d) :
    exec (.cmdT arg) s = .next (errorState d s) := by
  rw [exec_cmdT hs, doCmdT, hp, ← raiseError_eq]

theorem exec_cmdI_error (hs : s.ready = true) (hp : parseOutput s.cfg arg = .error d) :
    exec (.cmdI arg) s = .next (errorState d s) := by
  rw [exec_cmdI hs, doCmdI, hp, ← raiseError_eq]

/-! ### CMD_D -/

theorem isDigit_iff {c : Byte} : isDigit c = true ↔ 0x30 ≤ c.toNat ∧ c.toNat ≤ 0x39 := by simp [isDigit]

theorem isDigit_false_iff {c : Byte} : isDigit c = false ↔ ¬ (0x30 ≤ c.toNat ∧ c.toNat ≤ 0x39) := by
  rw [← isDigit_iff, Bool.not_eq_true]

theorem parseDelay_of_ne_nil (width : Nat) (h : arg ≠ []) : parseDelay width arg = parseDigits width 0 arg := by
  cases arg with
  | nil => exact absurd rfl h
  | cons c cs => rfl

theorem exec_cmdD_ok (hs : s.ready = true) {value : Nat} (hp : parseDelay s.cfg.delayWidth arg = .ok value) :
    exec (.cmdD arg) s = .next { s with
      outq := s.outq ++ 0x43#8 :: termBytes s.cfg.respTerm
      trace := s.trace ++ .wtMs value :: (0x43#8 :: termBytes s.cfg.respTerm).map .tx } := by
  rw [exec_cmdD hs, doCmdD, hp]
  simp [sendBare_eq, waitMs, logEvent, bareByte]

/-- Settles O27: what the decimal argument parses to. -/
theorem delayCommand : Obligations.DelayCommand := by
  intro s arg hs
  refine ⟨fun hne hdigits => exec_cmdD_ok hs ?_, fun hnil => exec_cmdD_error hs (by rw [hnil]; rfl), ?_⟩
  · rw [parseDelay_of_ne_nil _ hne]
    exact parseDigits_ok _ arg 0 (fun c hc => isDigit_iff.2 (hdigits c hc)) (Nat.two_pow_pos _)
  · rintro ⟨c, hc, hbad⟩
    refine exec_cmdD_error hs ?_
    rw [parseDelay_of_ne_nil _ (List.ne_nil_of_mem hc)]
    exact parseDigits_bad _ arg 0 ⟨c, hc, isDigit_false_iff.2 hbad⟩

/-! ### CMD_T -/

theorem parseTransfer_of_none {cfg : Config} (hb : lookup cfg.busReg t = none) (cs : List Byte) :
    parseTransfer cfg (t :: cs) = .error .badTag := by
  simp only [parseTransfer, hb]

theorem parseTransfer_of_pairs {cfg : Config} (hb : lookup cfg.busReg t = some b) {cs out : List Byte}
    (hp : parsePairs cfg.maxTransferBytes 0 cs = .ok out) : parseTransfer cfg (t :: cs) = .ok (b, out) := by
  simp only [parseTransfer, hb, hp]

theorem parseTransfer_of_pairs_error {cfg : Config} (hb : lookup cfg.busReg t = some b) {cs : List Byte}
    (hp : parsePairs cfg.maxTransferBytes 0 cs = .error d) : parseTransfer cfg (t :: cs) = .error d := by
  simp only [parseTransfer, hb, hp]

/-- Settles O28: the line parses to the bytes its pairs stand for, and the rest is TRANSFER and RESP_DATA. -/
theorem transferCommand : Obligations.TransferCommand := by
  intro s t b pairs out hs hb hl hpairs
  have hp := parseTransfer_of_pairs hb (parsePairs_ok hpairs 0 (by simpa using hl))
  refine ⟨_, (doTransfer b out s).2, (exec_cmdT hs _).trans (congrArg _ (doCmdT_of_parse hp)),
    doTransfer_inbound b out s, ?_, fun ht => ?_, fun hr => ?_, fun p hsel hdout hclk => ?_⟩
  · rw [sendData_eq, doTransfer_state]
    rfl
  · simp [sendData_eq, doTransfer_state, ht]
  · simp [sendData_eq, doTransfer_state, hr]
  · simpa [sendData_eq] using (doTransfer_onlyBus b out s).latch p hdout hclk hsel

/-! ### CMD_T on a malformed line: what may follow `n` well-formed pairs (R157) -/

theorem parsePairs_moreThanMax (max : Nat) (h : Byte) (rest : List Byte) :
    parsePairs max max (h :: rest) = .error .moreThanMax := by
  cases rest <;> simp [parsePairs]

theorem parsePairs_invalidHighDigit {max n : Nat} (hn : n < max) {h : Byte} (hh : hexval h = none) (rest : List Byte) :
    parsePairs max n (h :: rest) = .error .invalidHighDigit := by
  cases rest <;> simp [parsePairs, Nat.ne_of_lt hn, hh]

theorem parsePairs_incompleteHexByte {max n : Nat} (hn : n < max) {h : Byte} (hh : (hexval h).isSome) :
    parsePairs max n [h] = .error .incompleteHexByte := by
  obtain ⟨v, hv⟩ := Option.isSome_iff_exists.1 hh
  simp [parsePairs, Nat.ne_of_lt hn, hv]

theorem parsePairs_invalidLowDigit {max n : Nat} (hn : n < max) {h l : Byte} (hh : (hexval h).isSome)
    (hl : hexval l = none) (rest : List Byte) : parsePairs max n (h :: l :: rest) = .error .invalidLowDigit := by
  obtain ⟨v, hv⟩ := Option.isSome_iff_exists.1 hh
  simp [parsePairs, Nat.ne_of_lt hn, hv, hl]

/-- After well-formed pairs within the bound, the error of the rest of the line is the error of the line. -/
theorem exec_cmdT_error_after_pairs (hs : s.ready = true) (hb : lookup s.cfg.busReg t = some b)
    {pairs : List (Byte × Byte)} (hpairs : ∀ p ∈ pairs, (hexval p.1).isSome ∧ (hexval p.2).isSome)
    (hn : pairs.length ≤ s.cfg.maxTransferBytes) {rest : List Byte}
    (hrest : parsePairs s.cfg.maxTransferBytes pairs.length rest = .error d) :
    exec (.cmdT (t :: ((pairs.flatMap fun p => [p.1, p.2]) ++ rest))) s = .next (errorState d s) := by
  rw [← Nat.zero_add pairs.length] at hn hrest
  exact exec_cmdT_error hs (parseTransfer_of_pairs_error hb (parsePairs_error hpairs 0 hn hrest))

/-- Settles O29: the checks in the order of the scan. -/
theorem transferCommandErrors : Obligations.TransferCommandErrors := by
  intro s hs
  refine ⟨exec_cmdT_error hs rfl, fun t rest hb => exec_cmdT_error hs (parseTransfer_of_none hb rest), ?_⟩
  intro t b pairs h rest hb hpairs
  refine ⟨fun hn => ?_, fun hn hh => ?_, fun hn hh hrest => ?_, fun l more hn hh hrest hl => ?_⟩
  · refine exec_cmdT_error_after_pairs hs hb hpairs hn.le ?_
    rw [hn]
    exact parsePairs_moreThanMax _ h rest
  · exact exec_cmdT_error_after_pairs hs hb hpairs hn.le (parsePairs_invalidHighDigit hn hh rest)
  · rw [hrest]
    exact exec_cmdT_error_after_pairs hs hb hpairs hn.le (parsePairs_incompleteHexByte hn hh)
  · rw [hrest]
    exact exec_cmdT_error_after_pairs hs hb hpairs hn.le (parsePairs_invalidLowDigit hn hh hl more)

/-! ### CMD_I -/

theorem levelOf_eq_none {c : Byte} (h0 : c ≠ 0x30#8) (h1 : c ≠ 0x31#8) : levelOf c = none := by
  rw [levelOf, if_neg h0, if_neg h1]

theorem exec_cmdI_ok (hs : s.ready = true) {level : Bool} (hp : parseOutput s.cfg arg = .ok (o, level)) :
    exec (.cmdI arg) s =
      .next { s with x := s.x.write o.pinOut level, trace := s.trace ++ [.drv o.pinOut level] } := by
  rw [exec_cmdI hs, doCmdI, hp]
  rfl

/-- Settles O30: the checks in the order of the scan, each answered by the parser. -/
theorem outputCommand : Obligations.OutputCommand := by
  intro s hs
  refine ⟨fun t o ho => ?_, exec_cmdI_error hs rfl,
    fun t rest ho => exec_cmdI_error hs (by simp only [parseOutput, ho])⟩
  refine ⟨exec_cmdI_ok hs ?_, exec_cmdI_ok hs ?_, exec_cmdI_error hs ?_, fun c rest h0 h1 => exec_cmdI_error hs ?_,
    fun c e rest hc => exec_cmdI_error hs ?_⟩
  · simp [parseOutput, ho, levelOf]
  · simp [parseOutput, ho, levelOf]
  · simp only [parseOutput, ho]
  · simp only [parseOutput, ho, levelOf_eq_none h0 h1]
  · rcases hc with rfl | rfl <;> simp [parseOutput, ho, levelOf]

/-! ### The other lines, and DISPATCH -/

/-- Settles O31: the state as it was. -/
theorem commentCommand : Obligations.CommentCommand := fun _ arg hs => exec_cmdComment hs arg

/-- Settles O32: the line is not looked at. -/
theorem unknownCommand : Obligations.UnknownCommand := by
  intro s key rest hs
  rw [exec_cmdUnknown hs, doCmdUnknown, raiseError_eq]

theorem exec_dispatch_of_decodeLine (hs : s.ready = true) {key : Byte} {i : Instr}
    (hi : decodeLine (key :: arg) = .ok i) : exec (.dispatch (key :: arg)) s = exec i s :=
  (exec_dispatch hs key arg).trans (exec_of_decodeLine hs hi).symm

/-- Settles O35: the instruction the line decodes to is what DISPATCH does with it. -/
theorem dispatchRunsCommand : Obligations.DispatchRunsCommand := by
  intro s key arg hs
  refine ⟨_, exec_dispatch hs key arg, fun hD => exec_of_decodeLine hs (hD ▸ rfl),
    fun hT => exec_of_decodeLine hs (hT ▸ rfl), fun hI => exec_of_decodeLine hs (hI ▸ rfl),
    fun hC => exec_of_decodeLine hs (hC ▸ rfl), fun hD hT hI hC => exec_of_decodeLine hs ?_⟩
  rw [decodeLine_eq, if_neg hD, if_neg hT, if_neg hI, if_neg hC]

end Sys2Proof.Machine
end

section
/-! PROOFS. The Line Framer and the service routine (42_command_front_end.md R150 to R153): FEED, a line through SERVICE
and the same line through DISPATCH, and SERVICE on input in pieces. -/

namespace Sys2Proof.Machine

variable {s : State}

/-! ### FEED -/

theorem feedLine_content {c : Byte} (h : isTerminator c = false) : feedLine c s = none := by
  simp [feedLine, h]

theorem feedLine_terminator_nil {c : Byte} (h : isTerminator c = true) (hl : s.line = []) : feedLine c s = none := by
  simp [feedLine, h, hl]

theorem feedLine_terminator {c : Byte} (h : isTerminator c = true) (hl : s.line ≠ []) :
    feedLine c s = some s.line := by
  simp [feedLine, h, hl]

theorem doFeed_content_of_lt {c : Byte} (h : isTerminator c = false) (hl : s.len < lineCap s.cfg) :
    doFeed c s = { s with line := s.line ++ [c] } := by
  rw [State.len] at hl
  simp [doFeed, h, hl]

theorem doFeed_content_of_le {c : Byte} (h : isTerminator c = false) (hl : lineCap s.cfg ≤ s.len) :
    doFeed c s = s := by
  rw [State.len] at hl
  simp [doFeed, h, Nat.not_lt.2 hl]

/-- Settles O36: a terminator and a content byte, each with the two lengths the rules ask for. -/
theorem feedEffect : Obligations.FeedEffect := by
  intro s c hs
  rw [exec_feed hs]
  refine ⟨fun ht hl => ?_, fun ht hl => ?_, fun hlf hcr hl => ?_, fun hlf hcr hl => ?_⟩
  · have ht := isTerminator_iff.2 ht
    rw [feedLine_terminator ht hl, doFeed_terminator ht]
    rfl
  · have ht := isTerminator_iff.2 ht
    rw [feedLine_terminator_nil ht hl, doFeed_terminator ht, ← hl]
    rfl
  · have ht := isTerminator_false_iff.2 ⟨hlf, hcr⟩
    rw [feedLine_content ht, doFeed_content_of_lt ht hl]
    rfl
  · have ht := isTerminator_false_iff.2 ⟨hlf, hcr⟩
    rw [feedLine_content ht, doFeed_content_of_le ht hl]
    rfl

/-! ### A line through SERVICE -/

/-- The terminator of a line: the line is taken out of the accumulator and dispatched (R151, R154). -/
theorem serviceByte_terminator {c key : Byte} {arg : List Byte} (ht : isTerminator c = true)
    (hl : s.line = key :: arg) : serviceByte c s = doDispatch key arg { rxByte c s with line := [] } := by
  have hline : (rxByte c s).line = key :: arg := hl
  rw [serviceByte, doFeed_terminator ht, feedLine_terminator ht (by simp [hl]), hline]
  rfl

/-- Content bytes on an empty accumulator and their terminator: the first `LINE_CAP` of them are dispatched (R152). -/
theorem serviceAll_line {content : List Byte} {c key : Byte} {arg : List Byte} (hl : s.line = [])
    (hc : ∀ e ∈ content, isTerminator e = false) (ht : isTerminator c = true) (hi : s.inq = content ++ [c])
    (hcut : content.take (lineCap s.cfg) = key :: arg) :
    serviceAll (content ++ [c]) s =
      doDispatch key arg { s with inq := [], trace := s.trace ++ (content ++ [c]).map .rx } := by
  rw [serviceAll_append, serviceAll_content hc (by simp [hl]) hi, hl, List.nil_append, hcut]
  rw [serviceAll, serviceAll, serviceByte_terminator ht rfl]
  simp [rxByte, logEvent]

/-- Settles O37: content bytes fill the accumulator up to its capacity, the terminator dispatches it. -/
theorem serviceDispatchesCutLine : Obligations.ServiceDispatchesCutLine := by
  intro s content c hs hl hne hc ht
  have hc' : ∀ e ∈ content, isTerminator e = false := fun e he => isTerminator_false_iff.2 (hc e he)
  obtain ⟨key, arg, hcut⟩ : ∃ key arg, content.take (2 * s.cfg.maxTransferBytes + 2) = key :: arg :=
    List.exists_cons_of_ne_nil (by simp [hne])
  have hline := serviceAll_line (s := { s with inq := content ++ [c] }) hl hc' (isTerminator_iff.2 ht) rfl hcut
  rw [hcut, exec_dispatch (s := { s with inq := [], trace := s.trace ++ (content ++ [c]).map .rx }) hs, ← hline]
  exact exec_service (s := { s with inq := content ++ [c] }) hs

/-! ### SERVICE on all of the input -/

/-- The fields that SERVICE's loop never changes, whatever lines it dispatches. -/
structure ServiceFrame (s u : State) : Prop where
  cfg : u.cfg = s.cfg
  dir : u.dir = s.dir
  seq : u.seq = s.seq
  calls : u.calls = s.calls
  ret : u.ret = s.ret

theorem serviceAll_frame (cs : List Byte) (s : State) : ServiceFrame s (serviceAll cs s) := by
  refine serviceAll_keeps (P := ServiceFrame s) (fun u c l hu => ?_) cs s ⟨rfl, rfl, rfl, rfl, rfl⟩
    fun key arg u _ hu => ?_
  · exact ⟨hu.cfg, hu.dir, hu.seq, hu.calls, hu.ret⟩
  · have f := doDispatch_frame key arg u
    exact ⟨f.cfg.trans hu.cfg, f.dir.trans hu.dir, f.seq.trans hu.seq, f.calls.trans hu.calls, f.ret.trans hu.ret⟩

theorem serviceAll_ready (cs : List Byte) (h : s.ready = true) : (serviceAll cs s).ready = true := by
  have f := serviceAll_frame cs s
  rwa [State.ready, f.cfg, f.seq]

/-- Settles O38: the loop reads `inq` to its end, and its events say what it read and sent. -/
theorem serviceDrainsInput : Obligations.ServiceDrainsInput := by
  intro s hs
  have hinq : (serviceAll s.inq s).inq = [] := serviceAll_inq (List.append_nil s.inq).symm
  obtain ⟨evs, hlog⟩ := serviceAll_extends (List.append_nil s.inq).symm
  have f := serviceAll_frame s.inq s
  have hread : readBytes evs = s.inq := by rw [hlog.inq, hinq, List.append_nil]
  refine ⟨_, evs, exec_service hs, hlog.trace, hread, hinq, f.seq.trans (ready_iff.1 hs).2, hlog.outq, f.cfg, f.dir,
    f.calls, f.ret, fun hnil => ?_⟩
  rw [hnil]
  rfl

/-! ### SERVICE on input in pieces -/

/-- The inbound bytes are the environment's answers, whatever waits in `inq`. -/
theorem doTransfer_setInq (b : BusTarget) (out q : List Byte) (s : State) :
    doTransfer b out { s with inq := q } = ({ (doTransfer b out s).1 with inq := q }, (doTransfer b out s).2) := by
  refine Prod.ext ?_ (isInbound_unique (doTransfer_inbound b out { s with inq := q }) (doTransfer_inbound b out s))
  simp only [doTransfer_state]
  rfl

theorem raiseError_setInq (d : Diag) (q : List Byte) (s : State) :
    raiseError d { s with inq := q } = { raiseError d s with inq := q } := by
  simp only [raiseError_eq, errorState]

/-- No command line looks at `inq`. -/
theorem doDispatch_setInq (key : Byte) (arg q : List Byte) (s : State) :
    doDispatch key arg { s with inq := q } = { doDispatch key arg s with inq := q } := by
  unfold doDispatch
  cases keyOf key with
  | delay =>
    simp only [doCmdD]
    cases parseDelay s.cfg.delayWidth arg with
    | error d => exact raiseError_setInq d q s
    | ok value => simp only [sendBare_eq]; rfl
  | transfer =>
    simp only [doCmdT]
    cases parseTransfer s.cfg arg with
    | error d => exact raiseError_setInq d q s
    | ok r => simp only [doTransfer_setInq, sendData_eq]; rfl
  | output =>
    simp only [doCmdI]
    cases parseOutput s.cfg arg with
    | error d => exact raiseError_setInq d q s
    | ok r => rfl
  | comment => rfl
  | other => exact raiseError_setInq .unknownCommand q s

theorem runLine_setInq (l : Option (List Byte)) (q : List Byte) (s : State) :
    runLine l { s with inq := q } = { runLine l s with inq := q } := by
  match l with
  | none => rfl
  | some [] => rfl
  | some (key :: arg) => exact doDispatch_setInq key arg q s

theorem doFeed_setInq (c : Byte) (q : List Byte) (s : State) :
    doFeed c { s with inq := q } = { doFeed c s with inq := q } := by
  simp only [doFeed]
  split_ifs <;> rfl

/-- A turn of the loop only removes the byte it is given from `inq`. -/
theorem serviceByte_setInq (c : Byte) (q : List Byte) (s : State) :
    serviceByte c { s with inq := q } = { serviceByte c s with inq := q.tail } := by
  have hrx : rxByte c { s with inq := q } = { rxByte c s with inq := q.tail } := rfl
  rw [serviceByte, hrx, doFeed_setInq, runLine_setInq]
  rfl

/-- Bytes behind those the loop is given stay in `inq` and change nothing. -/
theorem serviceAll_setInq (cs q : List Byte) (s : State) :
    serviceAll cs { s with inq := cs ++ q } = { serviceAll cs s with inq := q } := by
  induction cs generalizing s with
  | nil => rfl
  | cons c cs ih =>
    rw [serviceAll, serviceByte_setInq]
    exact ih _

/-- Settles O39: the loop over both pieces is the loop over the second after the loop over the first. -/
theorem serviceInvocationsCompose : Obligations.ServiceInvocationsCompose := by
  intro s u first second h
  obtain ⟨hs, r⟩ := exec_next h
  cases r
  have hu := serviceAll_ready first hs
  have hfirst := serviceAll_setInq first second { s with inq := first }
  rw [exec_service (s := { s with inq := first ++ second }) hs, serviceAll_append, hfirst]
  exact (exec_service (s := { serviceAll first { s with inq := first } with inq := second }) hu).symm

/-! ### A T line over the maximum -/

theorem isTerminator_of_hexval {c : Byte} (h : (hexval c).isSome) : isTerminator c = false := by
  rw [isTerminator_false_iff]
  constructor
  · rintro rfl
    simp [hexval] at h
  · rintro rfl
    simp [hexval] at h

/-- Cutting the characters of a list of pairs behind a pair cuts the list. -/
theorem take_flatMap_pairs (n : Nat) (pairs : List (Byte × Byte)) :
    (pairs.flatMap fun p => [p.1, p.2]).take (2 * n) = (pairs.take n).flatMap fun p => [p.1, p.2] := by
  induction n generalizing pairs with
  | zero => simp
  | succ n ih =>
    cases pairs with
    | nil => simp
    | cons p ps => simp [Nat.mul_add, ih]

theorem exec_cmdT_moreThanMax {t : Tag} {b : BusTarget} {pairs : List (Byte × Byte)} (hs : s.ready = true)
    (hb : lookup s.cfg.busReg t = some b) (hlong : s.cfg.maxTransferBytes < pairs.length)
    (hpairs : ∀ p ∈ pairs, (hexval p.1).isSome ∧ (hexval p.2).isSome) :
    exec (.cmdT (t :: pairs.flatMap fun p => [p.1, p.2])) s = .next (errorState .moreThanMax s) := by
  have hsplit := List.take_append_drop s.cfg.maxTransferBytes pairs
  have hlen : (pairs.take s.cfg.maxTransferBytes).length = s.cfg.maxTransferBytes := List.length_take_of_le hlong.le
  obtain ⟨p, rest, hdrop⟩ : ∃ p rest, pairs.drop s.cfg.maxTransferBytes = p :: rest :=
    List.exists_cons_of_ne_nil (by simpa using hlong)
  rw [← hsplit, hdrop, List.flatMap_append, List.flatMap_cons]
  refine exec_cmdT_error_after_pairs hs hb (fun q hq => hpairs q (List.mem_of_mem_take hq)) hlen.le ?_
  rw [hlen]
  exact parsePairs_moreThanMax _ p.1 _

/-- Settles O40: DISPATCH meets the pair past the bound; the Line Framer has cut it off. -/
theorem overlongTransferBothWays : Obligations.OverlongTransferBothWays := by
  intro s t b pairs hs hl hb hlf hcr hlong hpairs
  constructor
  · rw [exec_dispatch_of_decodeLine hs rfl]
    exact exec_cmdT_moreThanMax hs hb hlong hpairs
  · have hcontent : ∀ e ∈ 0x54#8 :: t :: pairs.flatMap fun p => [p.1, p.2], isTerminator e = false := by
      simp only [List.mem_cons, List.mem_flatMap, List.not_mem_nil, or_false]
      rintro e (rfl | rfl | ⟨p, hp, rfl | rfl⟩)
      · rfl
      · exact isTerminator_false_iff.2 ⟨hlf, hcr⟩
      · exact isTerminator_of_hexval (hpairs p hp).1
      · exact isTerminator_of_hexval (hpairs p hp).2
    rw [serviceDispatchesCutLine s _ _ hs hl (List.cons_ne_nil _ _)
      (fun e he => isTerminator_false_iff.1 (hcontent e he)) (.inl rfl)]
    rw [List.take_succ_cons, List.take_succ_cons, take_flatMap_pairs]
    exact exec_dispatch_of_decodeLine (s := { s with inq := [], trace := _ }) hs rfl

end Sys2Proof.Machine
end

section
/-! PROOFS. A step of an idle machine that reads a byte (42_command_front_end.md R150, R154; 40_bus_target.md R117), and
what the outside does between two steps (42_command_front_end.md R169). -/

namespace Sys2Proof.Machine

variable {s : State} {c : Byte} {rest : List Byte} {i : Instr}

/-! ### A byte that ends a line -/

theorem rxByte_eq (hi : s.inq = c :: rest) :
    rxByte c s = { s with inq := rest, trace := s.trace ++ [.rx c] } := by
  simp [rxByte, logEvent, hi]

/-- The terminator of a line: the instruction the line decodes to is issued on the emptied accumulator. -/
theorem pollByte_terminator (hi : s.inq = c :: rest) (ht : isTerminator c = true) (hl : s.line ≠ [])
    (hd : decodeLine s.line = .ok i) :
    pollByte c s = issue i { s with inq := rest, trace := s.trace ++ [.rx c], line := [] } := by
  have hline : feedLine c (rxByte c s) = some s.line := feedLine_terminator ht hl
  rw [pollByte, hline, doFeed_terminator ht, rxByte_eq hi]
  simp only [issueLine, hd]

theorem pollByte_of_feedLine_none (h : feedLine c (rxByte c s) = none) :
    pollByte c s = .next (doFeed c (rxByte c s)) := by
  rw [pollByte, h]
  rfl

theorem issue_transfer {arg out : List Byte} {b : BusTarget} (hp : parseTransfer s.cfg arg = .ok (b, out)) :
    issue (.cmdT arg) s = .next (beginTransfer b out s) := by
  simp only [issue, transferOf, hp]

/-- Every instruction but a T line that passes every check is issued whole. -/
theorem issue_whole (h : ∀ arg b out, i = .cmdT arg → parseTransfer s.cfg arg ≠ .ok (b, out)) :
    issue i s = exec i s := by
  have hnone : transferOf i s = none := by
    unfold transferOf
    split
    next arg =>
      split
      next r hp => exact absurd hp (h arg r.1 r.2 rfl)
      next => rfl
    next => rfl
  simp only [issue, hnone]

/-- Settles O46: the terminator issues the decoded line. -/
theorem stepRunsDecodedLine : Obligations.StepRunsDecodedLine := by
  intro s c rest i hs hcalls hi ht hl hd
  rw [step_of_byte hs hcalls hi, pollByte_terminator hi (isTerminator_iff.2 ht) hl hd]
  refine ⟨?_, fun h => issue_whole h⟩
  rintro arg b out rfl hp
  exact issue_transfer hp

/-- Settles O47: nothing to read, a terminator on an empty line, a content byte at either length. -/
theorem stepWithoutLine : Obligations.StepWithoutLine := by
  intro s hs hcalls
  refine ⟨step_of_nothing hs hcalls, fun c rest hi => ?_⟩
  rw [step_of_byte hs hcalls hi]
  refine ⟨fun ht hl => ?_, fun hlf hcr => ?_⟩
  · have ht := isTerminator_iff.2 ht
    rw [pollByte_of_feedLine_none (feedLine_terminator_nil ht hl), doFeed_terminator ht, rxByte_eq hi, ← hl]
  · have ht := isTerminator_false_iff.2 ⟨hlf, hcr⟩
    rw [pollByte_of_feedLine_none (feedLine_content ht), rxByte_eq hi]
    split_ifs with hlen
    · exact congrArg _ (doFeed_content_of_lt ht hlen)
    · exact congrArg _ (doFeed_content_of_le ht (Nat.not_lt.1 hlen))

/-! ### The outside -/

/-- The streams, the calls and the answers are no part of the invariant. -/
theorem State.Inv.setOutside (h : s.Inv) (inq outq : List Byte) (calls : List Call) (din : List Bit) :
    { s with inq := inq, outq := outq, calls := calls, din := din }.Inv :=
  h.update rfl rfl h.xWf h.dirWf h.seq

/-- The streams and the answers are no part of the invariant of a host-driven machine. -/
theorem State.HostInv.setOutside (h : s.HostInv) (inq outq : List Byte) (din : List Bit) :
    { s with inq := inq, outq := outq, din := din }.HostInv :=
  ⟨h.inv.setOutside inq outq s.calls din, h.noCalls, h.latches⟩

/-- Settles O54: each action of the outside sets fields the invariants do not look at. -/
theorem hostActionsKeepInvariants : Obligations.HostActionsKeepInvariants :=
  fun _ _ _ _ _ =>
    ⟨fun h => ⟨h.setOutside _ _ _ _, h.setOutside _ _ _ _, h.setOutside _ _ _ _, h.setOutside _ _ _ _⟩,
      fun h => ⟨h.setOutside _ _ _, h.setOutside _ _ _, h.setOutside _ _ _⟩⟩

end Sys2Proof.Machine
end

section
/-! PROOFS. Errors and the `DEBUG` flag (60_exceptions.md R204, R212, R214): what an error leaves, an invalid line twice,
and the same instruction with the flag off and on. -/

namespace Sys2Proof.Machine

/-! ### Error entry -/

/-- Settles O33: the bytes are those of `errorLines`. -/
theorem errorEntry : Obligations.ErrorEntry := fun d s =>
  ⟨errorLines s.cfg d, rfl, raiseError_eq d s⟩

/-- DISPATCH of a line that raises an error completes with the error's state (R204). -/
theorem exec_dispatch_of_error {s : State} {l : List Byte} {d : Diag} (hs : s.ready = true)
    (h : lineError s.cfg l = some d) : exec (.dispatch l) s = .next (errorState d s) := by
  cases l with
  | nil => cases h
  | cons key arg => rw [exec_dispatch hs, doDispatch_of_error h]

/-- Settles O34: an error leaves the configuration and the sequencer, so the line raises it again. -/
theorem invalidLineIdempotent : Obligations.InvalidLineIdempotent := by
  intro s l d hs hl
  have hfirst := exec_dispatch_of_error hs hl
  have hsecond := exec_dispatch_of_error (s := errorState d s) hs hl
  exact ⟨_, _, errorLines s.cfg d, hfirst, hsecond, rfl, rfl⟩

/-! ### One state for each value of the flag -/

/-- `v` with the flag `DEBUG` at `flag` and the given output stream and trace. -/
def State.under (v : State) (flag : Bool) (outq : List Byte) (trace : List Event) : State :=
  { v.withDebug flag with outq := outq, trace := trace }

/-- The states `r false` and `r true`, which the work for instruction `i` has reached from `s` with the flag off and on,
are one state but for the flag and the streams, and comment lines are all that the two runs sent apart (R212). -/
def CommentsApart (i : Instr) (s : State) (r : Bool → State) : Prop :=
  ∃ (v : State) (evs : Bool → List Event), v.cfg = s.cfg ∧ DebugTraces s.cfg i (evs true) (evs false) ∧
    ∀ flag, r flag = v.under flag (s.outq ++ sentBytes (evs flag)) (s.trace ++ evs flag)

/-- From `v` the operation `f` adds the events `added flag` and sends their bytes; all else it does depends neither on
the flag nor on the streams. -/
structure AddsEvents (f : State → State) (v : State) (added : Bool → List Event) : Prop where
  cfg : (f v).cfg = v.cfg
  under : ∀ flag outq trace, f (v.under flag outq trace) =
    (f v).under flag (outq ++ sentBytes (added flag)) (trace ++ added flag)

/-- An operation for which the flag does not matter: it adds the same events with the flag off and on. -/
def FlagBlind (f : State → State) : Prop := ∀ v, ∃ evs, AddsEvents f v fun _ => evs

variable {i : Instr} {s : State} {r : Bool → State}

theorem CommentsApart.start (i : Instr) (s : State) : CommentsApart i s s.withDebug :=
  ⟨s, fun _ => [], rfl, .nil, fun flag => by simp [State.under, State.withDebug, sentBytes]⟩

theorem CommentsApart.cfg (h : CommentsApart i s r) (flag : Bool) : (r flag).cfg = { s.cfg with debug := flag } := by
  obtain ⟨v, evs, hcfg, -, hr⟩ := h
  rw [hr, ← hcfg]
  rfl

/-- One more operation in both runs, whose own events differ by comment lines only. -/
theorem CommentsApart.add (h : CommentsApart i s r) {f : State → State}
    (hf : ∀ v, v.cfg = s.cfg → ∃ added, DebugTraces s.cfg i (added true) (added false) ∧ AddsEvents f v added) :
    CommentsApart i s fun flag => f (r flag) := by
  obtain ⟨v, evs, hcfg, hd, hr⟩ := h
  obtain ⟨added, hadded, hf⟩ := hf v hcfg
  refine ⟨f v, fun flag => evs flag ++ added flag, hf.cfg.trans hcfg, hd.append hadded, fun flag => ?_⟩
  simp only [hr, hf.under, sentBytes_append, List.append_assoc]

theorem CommentsApart.blind (h : CommentsApart i s r) {f : State → State} (hf : FlagBlind f) :
    CommentsApart i s fun flag => f (r flag) :=
  h.add fun v _ =>
    have ⟨evs, hevs⟩ := hf v
    ⟨fun _ => evs, .refl evs, hevs⟩

/-! ### The operations for which the flag does not matter -/

/-- An operation that adds no event, whatever the flag and the streams are. -/
theorem FlagBlind.of_silent {f : State → State} (hcfg : ∀ v, (f v).cfg = v.cfg)
    (hf : ∀ v flag outq trace, f (v.under flag outq trace) = (f v).under flag outq trace) : FlagBlind f :=
  fun v => ⟨[], hcfg v, fun flag outq trace => by simp [hf, sentBytes]⟩

/-- An operation whose events are none of the output stream. -/
theorem FlagBlind.of_unsent {f : State → State} (hcfg : ∀ v, (f v).cfg = v.cfg) (evs : State → List Event)
    (hsent : ∀ v, sentBytes (evs v) = [])
    (hf : ∀ v flag outq trace, f (v.under flag outq trace) = (f v).under flag outq (trace ++ evs v)) : FlagBlind f :=
  fun v => ⟨evs v, hcfg v, fun flag outq trace => by simp [hf, hsent]⟩

theorem setRet_flagBlind (x : Ret) : FlagBlind (setRet x) := .of_silent (fun _ => rfl) fun _ _ _ _ => rfl

theorem discardBuf_flagBlind : FlagBlind discardBuf := .of_silent (fun _ => rfl) fun _ _ _ _ => rfl

theorem doInitBus_flagBlind (b : BusTarget) : FlagBlind (doInitBus b) := .of_silent (fun _ => rfl) fun _ _ _ _ => rfl

theorem doInitOut_flagBlind (o : OutputTarget) : FlagBlind (doInitOut o) :=
  .of_silent (fun _ => rfl) fun _ _ _ _ => rfl

theorem doFeed_flagBlind (c : Byte) : FlagBlind (doFeed c) := by
  refine .of_silent (fun v => by rw [doFeed_eq]) fun v flag outq trace => ?_
  have hline : (v.under flag outq trace).line = v.line := rfl
  have hcap : lineCap (v.under flag outq trace).cfg = lineCap v.cfg := rfl
  simp only [doFeed, hline, hcap]
  split_ifs <;> rfl

theorem drive_flagBlind (p : Pin) (v : Bit) : FlagBlind (drive p v) :=
  .of_unsent (fun _ => rfl) (fun _ => [.drv p v]) (fun _ => rfl) fun _ _ _ _ => rfl

theorem waitMs_flagBlind (n : Nat) : FlagBlind (waitMs n) :=
  .of_unsent (fun _ => rfl) (fun _ => [.wtMs n]) (fun _ => rfl) fun _ _ _ _ => rfl

theorem rxByte_flagBlind (c : Byte) : FlagBlind (rxByte c) :=
  .of_unsent (fun _ => rfl) (fun _ => [.rx c]) (fun _ => rfl) fun _ _ _ _ => rfl

theorem doSelectAssert_flagBlind (b : BusTarget) : FlagBlind (doSelectAssert b) :=
  .of_unsent (fun _ => rfl) (fun v => [.drv b.pinSel v.cfg.selActive]) (fun _ => rfl) fun _ _ _ _ => rfl

theorem doSelectDeassert_flagBlind (b : BusTarget) : FlagBlind (doSelectDeassert b) :=
  .of_unsent (fun _ => rfl) (fun v => [.drv b.pinSel (!v.cfg.selActive)]) (fun _ => rfl) fun _ _ _ _ => rfl

theorem doWaitHalf_flagBlind (b : BusTarget) : FlagBlind (doWaitHalf b) :=
  .of_unsent (fun _ => rfl) (fun v => [.wt (busHalf b v)]) (fun _ => rfl) fun _ _ _ _ => rfl

theorem doBitPhase_flagBlind (m : Mode) (b : BusTarget) (d : Bit) : FlagBlind fun v => (doBitPhase m b d v).1 := by
  refine .of_unsent (fun v => by rw [doBitPhase_eq]) (fun v => phaseEvents m b (busHalf b v) d (nextAnswer v))
    (fun v => sentBytes_phaseEvents _ _ _ _ _) fun v flag outq trace => ?_
  simp only [doBitPhase_eq]
  rfl

theorem doExchange_flagBlind (b : BusTarget) (t : Byte) : FlagBlind fun v => (doExchange b t v).1 := by
  refine .of_unsent (fun v => by rw [doExchange_state]) (fun v => bitsEvents b (busHalf b v) t 8 (answerAt v))
    (fun v => sentBytes_bitsEvents _ _ _ _ _) fun v flag outq trace => ?_
  simp only [doExchange_state]
  rfl

theorem doTransfer_flagBlind (b : BusTarget) (out : List Byte) : FlagBlind fun v => (doTransfer b out v).1 := by
  refine .of_unsent (fun v => by rw [doTransfer_state])
    (fun v => transferEvents b v.cfg.selActive (busHalf b v) out (answerAt v))
    (fun v => sentBytes_transferEvents _ _ _ _ _) fun v flag outq trace => ?_
  simp only [doTransfer_state]
  rfl

/-- Bytes of a line that does not depend on the flag. -/
theorem sendLine_flagBlind (line : Config → List Byte)
    (hline : ∀ (cfg : Config) (flag : Bool), line { cfg with debug := flag } = line cfg) :
    FlagBlind fun v => sendBytes (line v.cfg) v := by
  refine fun v => ⟨(line v.cfg).map .tx, sendBytes_cfg v _, fun flag outq trace => ?_⟩
  have hcfg : line (v.under flag outq trace).cfg = line v.cfg := hline v.cfg flag
  simp only [hcfg, sendBytes_eq, sentBytes_tx]
  rfl

theorem sendBare_flagBlind (x : BareCode) : FlagBlind (sendBare x) :=
  sendLine_flagBlind (fun cfg => bareLine cfg x) fun _ _ => rfl

theorem sendData_flagBlind (payload : List Byte) : FlagBlind (sendData payload) :=
  sendLine_flagBlind (fun cfg => dataLine cfg payload) fun _ _ => rfl

/-! ### What the two runs read alike -/

/-- A value for which the flag and the streams do not matter. -/
def FlagIgnored {α : Type} (g : State → α) : Prop :=
  ∀ v flag outq trace, g (State.under v flag outq trace) = g v

theorem CommentsApart.agree {α : Type} {g : State → α} (h : CommentsApart i s r) (hg : FlagIgnored g) :
    ∃ a, ∀ flag, g (r flag) = a := by
  obtain ⟨v, evs, -, -, hr⟩ := h
  exact ⟨g v, fun flag => by rw [hr, hg]⟩

theorem feedLine_flagIgnored (c : Byte) : FlagIgnored (feedLine c) := fun _ _ _ _ => rfl

theorem doBitPhase_bit_flagIgnored (m : Mode) (b : BusTarget) (d : Bit) :
    FlagIgnored fun v => (doBitPhase m b d v).2 := by
  intro v flag outq trace
  simp only [doBitPhase_eq]
  rfl

/-- The inbound byte is the environment's answers, bit by bit. -/
theorem doExchange_byte_flagIgnored (b : BusTarget) (t : Byte) : FlagIgnored fun v => (doExchange b t v).2 := by
  intro v flag outq trace
  refine Byte.ext_bitAt fun k hk => ?_
  obtain ⟨j, hj, rfl⟩ : ∃ j, j < 8 ∧ k = 7 - j := ⟨7 - k, by omega, by omega⟩
  rw [doExchange_bit b t _ j hj, doExchange_bit b t _ j hj]
  rfl

theorem doTransfer_bytes_flagIgnored (b : BusTarget) (out : List Byte) :
    FlagIgnored fun v => (doTransfer b out v).2 := fun v flag outq trace =>
  isInbound_unique (doTransfer_inbound b out (v.under flag outq trace)) (doTransfer_inbound b out v)

/-- An operation with a *Result*: both runs return the same. -/
theorem CommentsApart.returning {α : Type} {f : State → State} {g : State → α} (h : CommentsApart i s r)
    (hf : FlagBlind f) (hg : FlagIgnored g) (result : α → Ret) :
    CommentsApart i s fun flag => setRet (result (g (r flag))) (f (r flag)) := by
  obtain ⟨a, ha⟩ := h.agree hg
  simp only [ha]
  exact (h.blind hf).blind (setRet_flagBlind (result a))

theorem CommentsApart.bitPhase (h : CommentsApart i s r) (m : Mode) (b : BusTarget) (d : Bit) :
    CommentsApart i s fun flag => setRet (.bit (doBitPhase m b d (r flag)).2) (doBitPhase m b d (r flag)).1 :=
  h.returning (doBitPhase_flagBlind m b d) (doBitPhase_bit_flagIgnored m b d) .bit

/-! ### Comment lines and errors -/

theorem DebugTraces.commentLine (cfg : Config) {text : List Byte}
    (hi : i = .respComment text ∨ (i = .banner ∧ text = cfg.bannerText)) :
    DebugTraces cfg i ((commentLine { cfg with debug := true } text).map .tx)
      ((commentLine { cfg with debug := false } text).map .tx) := by
  have h := DebugTraces.comment text hi .nil
  rw [List.append_nil] at h
  exact h

theorem DebugTraces.errorLines (cfg : Config) (i : Instr) (d : Diag) :
    DebugTraces cfg i ((errorLines { cfg with debug := true } d).map .tx)
      ((errorLines { cfg with debug := false } d).map .tx) := by
  have h := DebugTraces.error (cfg := cfg) (i := i) d .nil
  rw [List.append_nil, List.append_nil] at h
  exact h

/-- The comment line that the instruction itself is. -/
theorem CommentsApart.sendComment (h : CommentsApart i s r) {text : List Byte}
    (hi : i = .respComment text ∨ (i = .banner ∧ text = s.cfg.bannerText)) :
    CommentsApart i s fun flag => sendComment text (r flag) := by
  refine h.add fun v hcfg => ⟨fun flag => (commentLine { s.cfg with debug := flag } text).map .tx,
    .commentLine s.cfg hi, sendBytes_cfg v _, fun flag outq trace => ?_⟩
  rw [← hcfg, sentBytes_tx]
  simp only [Machine.sendComment, sendBytes_eq]
  rfl

/-- The comment line of an error stands immediately before its `E` line (R204). -/
theorem CommentsApart.raiseError (h : CommentsApart i s r) (d : Diag) :
    CommentsApart i s fun flag => raiseError d (r flag) := by
  simp only [raiseError_eq]
  refine h.add fun v hcfg => ⟨fun flag => (errorLines { s.cfg with debug := flag } d).map .tx,
    .errorLines s.cfg i d, rfl, fun flag outq trace => ?_⟩
  rw [← hcfg, sentBytes_tx]
  rfl

/-! ### Command lines -/

theorem parseTransfer_debug (cfg : Config) (flag : Bool) (arg : List Byte) :
    parseTransfer { cfg with debug := flag } arg = parseTransfer cfg arg := rfl

theorem parseOutput_debug (cfg : Config) (flag : Bool) (arg : List Byte) :
    parseOutput { cfg with debug := flag } arg = parseOutput cfg arg := rfl

theorem CommentsApart.doCmdD (h : CommentsApart i s r) (arg : List Byte) :
    CommentsApart i s fun flag => doCmdD arg (r flag) := by
  simp only [Machine.doCmdD, h.cfg]
  cases parseDelay s.cfg.delayWidth arg with
  | error d => exact h.raiseError d
  | ok value => exact (h.blind (waitMs_flagBlind value)).blind (sendBare_flagBlind .c)

theorem CommentsApart.doCmdT (h : CommentsApart i s r) (arg : List Byte) :
    CommentsApart i s fun flag => doCmdT arg (r flag) := by
  simp only [Machine.doCmdT, h.cfg, parseTransfer_debug]
  cases parseTransfer s.cfg arg with
  | error d => exact h.raiseError d
  | ok p =>
    obtain ⟨inb, hinb⟩ := h.agree (doTransfer_bytes_flagIgnored p.1 p.2)
    simp only [hinb]
    exact ((h.blind (doTransfer_flagBlind p.1 p.2)).blind (sendData_flagBlind inb)).blind discardBuf_flagBlind

theorem CommentsApart.doCmdI (h : CommentsApart i s r) (arg : List Byte) :
    CommentsApart i s fun flag => doCmdI arg (r flag) := by
  simp only [Machine.doCmdI, h.cfg, parseOutput_debug]
  cases parseOutput s.cfg arg with
  | error d => exact h.raiseError d
  | ok p => exact h.blind (drive_flagBlind p.1.pinOut p.2)

theorem CommentsApart.doDispatch (h : CommentsApart i s r) (key : Byte) (arg : List Byte) :
    CommentsApart i s fun flag => doDispatch key arg (r flag) := by
  simp only [Machine.doDispatch]
  cases keyOf key with
  | delay => exact h.doCmdD arg
  | transfer => exact h.doCmdT arg
  | output => exact h.doCmdI arg
  | comment => exact h
  | other => exact h.raiseError .unknownCommand

/-! ### The service routine -/

theorem CommentsApart.runLine (h : CommentsApart i s r) (l : Option (List Byte)) :
    CommentsApart i s fun flag => runLine l (r flag) := by
  match l with
  | none => exact h
  | some [] => exact h
  | some (key :: arg) => exact h.doDispatch key arg

/-- Both runs deliver the same lines, so a turn of SERVICE's loop dispatches the same line in both. -/
theorem CommentsApart.serviceByte (h : CommentsApart i s r) (c : Byte) :
    CommentsApart i s fun flag => serviceByte c (r flag) := by
  have hrx := h.blind (rxByte_flagBlind c)
  obtain ⟨l, hl⟩ := hrx.agree (feedLine_flagIgnored c)
  simp only [Machine.serviceByte, hl]
  exact (hrx.blind (doFeed_flagBlind c)).runLine l

theorem CommentsApart.serviceAll (h : CommentsApart i s r) (cs : List Byte) :
    CommentsApart i s fun flag => serviceAll cs (r flag) := by
  induction cs generalizing r with
  | nil => exact h
  | cons c cs ih => exact ih (h.serviceByte c)

/-! ### The instructions -/

/-- An instruction that completes with one value of the flag completes with either, and comments are all that tells the
two runs apart. -/
theorem exec_commentsApart {t : State} {flag : Bool} (h : exec i (s.withDebug flag) = .next t) :
    ∃ r, (∀ flag, exec i (s.withDebug flag) = .next (r flag)) ∧ CommentsApart i s r := by
  obtain ⟨hs, ran⟩ := exec_next h
  have hs : ∀ flag, (s.withDebug flag).ready = true := fun _ => hs
  have h₀ := CommentsApart.start i s
  cases ran with
  | cmdD arg => exact ⟨_, fun flag => exec_cmdD (hs flag) arg, h₀.doCmdD arg⟩
  | cmdT arg => exact ⟨_, fun flag => exec_cmdT (hs flag) arg, h₀.doCmdT arg⟩
  | cmdI arg => exact ⟨_, fun flag => exec_cmdI (hs flag) arg, h₀.doCmdI arg⟩
  | cmdComment arg => exact ⟨_, fun flag => exec_cmdComment (hs flag) arg, h₀⟩
  | cmdUnknown key rest => exact ⟨_, fun flag => exec_cmdUnknown (hs flag) key rest, h₀.raiseError _⟩
  | service => exact ⟨_, fun flag => exec_service (hs flag), h₀.serviceAll s.inq⟩
  | feed c =>
    exact ⟨_, fun flag => exec_feed (hs flag) c, h₀.returning (doFeed_flagBlind c) (feedLine_flagIgnored c) .line⟩
  | dispatch key arg => exact ⟨_, fun flag => exec_dispatch (hs flag) key arg, h₀.doDispatch key arg⟩
  | respBare x => exact ⟨_, fun flag => exec_respBare (hs flag) x, h₀.blind (sendBare_flagBlind x)⟩
  | respData payload => exact ⟨_, fun flag => exec_respData (hs flag) payload, h₀.blind (sendData_flagBlind payload)⟩
  | respComment text => exact ⟨_, fun flag => exec_respComment (hs flag) text, h₀.sendComment (.inl rfl)⟩
  | banner => exact ⟨_, fun flag => exec_banner (hs flag), h₀.sendComment (.inr ⟨rfl, rfl⟩)⟩
  | bitphaseM0 t b hb d => exact ⟨_, fun flag => exec_bitphaseM0 (hs flag) hb d, h₀.bitPhase .m0 b d⟩
  | bitphaseM1 t b hb d => exact ⟨_, fun flag => exec_bitphaseM1 (hs flag) hb d, h₀.bitPhase .m1 b d⟩
  | bitphaseM2 t b hb d => exact ⟨_, fun flag => exec_bitphaseM2 (hs flag) hb d, h₀.bitPhase .m2 b d⟩
  | bitphaseM3 t b hb d => exact ⟨_, fun flag => exec_bitphaseM3 (hs flag) hb d, h₀.bitPhase .m3 b d⟩
  | bitphaseM5 t b hb d => exact ⟨_, fun flag => exec_bitphaseM5 (hs flag) hb d, h₀.bitPhase .m5 b d⟩
  | initBus t b hb => exact ⟨_, fun flag => exec_initBus (hs flag) hb, h₀.blind (doInitBus_flagBlind b)⟩
  | selectAssert t b hb => exact ⟨_, fun flag => exec_selectAssert (hs flag) hb, h₀.blind (doSelectAssert_flagBlind b)⟩
  | selectDeassert t b hb =>
    exact ⟨_, fun flag => exec_selectDeassert (hs flag) hb, h₀.blind (doSelectDeassert_flagBlind b)⟩
  | transfer t b hb out hl =>
    exact ⟨_, fun flag => exec_transfer (hs flag) hb out hl, h₀.returning (doTransfer_flagBlind b out)
      (doTransfer_bytes_flagIgnored b out) .bytes⟩
  | exchangeByte t b hb v =>
    exact ⟨_, fun flag => exec_exchangeByte (hs flag) hb v, h₀.returning (doExchange_flagBlind b v)
      (doExchange_byte_flagIgnored b v) .byte⟩
  | waitHalf t b hb => exact ⟨_, fun flag => exec_waitHalf (hs flag) hb, h₀.blind (doWaitHalf_flagBlind b)⟩
  | initOut t o ho => exact ⟨_, fun flag => exec_initOut (hs flag) ho, h₀.blind (doInitOut_flagBlind o)⟩
  | setOut t o ho level =>
    exact ⟨_, fun flag => exec_setOut (hs flag) ho level, h₀.blind (drive_flagBlind o.pinOut level)⟩

/-- Settles O59: the runs with the flag off and on side by side, operation by operation. -/
theorem debugChangesOnlyComments : Obligations.DebugChangesOnlyComments := by
  intro i s t flag h
  obtain ⟨r, hexec, v, evs, -, hdiffer, hr⟩ := exec_commentsApart h
  refine ⟨r false, r true, evs false, evs true, hexec false, hexec true, ?_⟩
  rw [hr false, hr true]
  exact ⟨rfl, rfl, rfl, hdiffer, rfl, rfl⟩

end Sys2Proof.Machine
end

section
/-! PROOFS. Start-up and what waits during a transfer (70_reset_and_hazards.md R231, R247): the calls of start-up run
one a step, and the bytes the host sends while the sequencer runs. -/

namespace Sys2Proof.Machine

variable {s t : State} {rest : List Call}

/-! ### Start-up, call by call -/

/-- Clearing a pin without a value changes nothing. -/
theorem PinMap.clear_of_read_none {α : Type} {m : PinMap α} {p : Pin} (h : PinMap.read m p = none) :
    PinMap.clear m p = m := by
  induction m with
  | nil => rfl
  | cons e m ih =>
    obtain ⟨q, v⟩ := e
    unfold PinMap.read at h
    split_ifs at h with hp
    rw [PinMap.clear, if_neg hp, ih h]

/-- When the oldest call of a ready machine is that of a well-formed instruction, a step executes it. -/
theorem step_of_callOf {i : Instr} (hs : s.ready = true) (hi : i.wf s.cfg = true) (hc : s.calls = callOf i :: rest) :
    step s = exec i { s with calls := rest } := by
  rw [step_of_call hs hc, runCall_of_decode (decodeEncodeRoundTrip s.cfg i hi)]

theorem step_of_initBus {g : Tag} {b : BusTarget} (hs : s.ready = true) (hb : lookup s.cfg.busReg g = some b)
    (hc : s.calls = callOf (.initBus g) :: rest) : step s = .next (doInitBus b { s with calls := rest }) := by
  have hwf : (Instr.initBus g).wf s.cfg = true := by simp [Instr.wf, Config.hasBus, hb]
  rw [step_of_callOf hs hwf hc, exec_initBus (s := { s with calls := rest }) hs hb]

/-- INIT_OUT of a pin without a level only makes it an output. -/
theorem step_of_initOut {g : Tag} {o : OutputTarget} (hs : s.ready = true) (ho : lookup s.cfg.outReg g = some o)
    (hx : s.x.read o.pinOut = none) (hc : s.calls = callOf (.initOut g) :: rest) :
    step s = .next { s with dir := s.dir.write o.pinOut .output, calls := rest } := by
  have hwf : (Instr.initOut g).wf s.cfg = true := by simp [Instr.wf, Config.hasOut, ho]
  rw [step_of_callOf hs hwf hc, exec_initOut (s := { s with calls := rest }) hs ho, doInitOut,
    PinMap.clear_of_read_none hx]

theorem step_of_banner (hs : s.ready = true) (hc : s.calls = callOf .banner :: rest) :
    step s = .next (sendComment s.cfg.bannerText { s with calls := rest }) := by
  rw [step_of_callOf hs rfl hc, exec_banner (s := { s with calls := rest }) hs]

/-- INIT_BUS of registered targets in order. -/
theorem run_initBuses (reg : List (Tag × BusTarget)) (hs : s.ready = true)
    (hreg : ∀ e ∈ reg, lookup s.cfg.busReg e.1 = some e.2)
    (hc : s.calls = reg.map (fun e => callOf (.initBus e.1)) ++ rest) :
    runSteps reg.length s = .next { s with
      x := reg.foldl (fun x e => initBusLatches s.cfg.selActive e.2 x) s.x
      dir := reg.foldl (fun dir e => initBusDirs e.2 dir) s.dir
      calls := rest } := by
  induction reg generalizing s with
  | nil =>
    obtain rfl : s.calls = rest := hc
    rfl
  | cons e reg ih =>
    obtain ⟨he, hreg⟩ := List.forall_mem_cons.1 hreg
    rw [List.length_cons, run_succ (step_of_initBus hs he hc)]
    exact ih (s := doInitBus e.2 { s with calls := _ }) hs hreg rfl

/-- INIT_OUT of registered targets in order, none of whose pins has a level. -/
theorem run_initOuts (reg : List (Tag × OutputTarget)) (hs : s.ready = true)
    (hreg : ∀ e ∈ reg, lookup s.cfg.outReg e.1 = some e.2) (hx : ∀ e ∈ reg, s.x.read e.2.pinOut = none)
    (hc : s.calls = reg.map (fun e => callOf (.initOut e.1)) ++ rest) :
    runSteps reg.length s = .next { s with
      dir := reg.foldl (fun dir e => dir.write e.2.pinOut .output) s.dir
      calls := rest } := by
  induction reg generalizing s with
  | nil =>
    obtain rfl : s.calls = rest := hc
    rfl
  | cons e reg ih =>
    obtain ⟨he, hreg⟩ := List.forall_mem_cons.1 hreg
    obtain ⟨hxe, hx⟩ := List.forall_mem_cons.1 hx
    rw [List.length_cons, run_succ (step_of_initOut hs he hxe hc)]
    exact ih (s := { s with dir := _, calls := _ }) hs hreg hx rfl

/-- The machine during start-up: from `State.unbooted` only latches, directions and calls have changed. -/
def State.booting (cfg : Config) (x : PinMap Bit) (dir : PinMap Dir) (calls : List Call) : State :=
  { State.unbooted cfg with x := x, dir := dir, calls := calls }

/-- The calls of start-up left after every INIT_BUS. -/
def outCalls (cfg : Config) : List Call := cfg.outReg.map (fun e => callOf (.initOut e.1)) ++ [callOf .banner]

theorem unbooted_eq_booting (cfg : Config) :
    State.unbooted cfg =
      State.booting cfg [] [] (cfg.busReg.map (fun e => callOf (.initBus e.1)) ++ outCalls cfg) := by
  simp [State.booting, State.unbooted, bootInstrs, outCalls, Function.comp_def]

theorem booting_ready {cfg : Config} (hw : cfg.wf = true) (x : PinMap Bit) (dir : PinMap Dir) (calls : List Call) :
    (State.booting cfg x dir calls).ready = true := ready_iff.2 ⟨hw, rfl⟩

/-- The directions after every INIT_BUS, before any INIT_OUT. -/
def busDirs (cfg : Config) : PinMap Dir := cfg.busReg.foldl (fun dir e => initBusDirs e.2 dir) []

theorem run_bootBuses {cfg : Config} (hw : cfg.wf = true) :
    runSteps cfg.busReg.length (State.unbooted cfg) =
      .next (State.booting cfg (resetLatches cfg) (busDirs cfg) (outCalls cfg)) := by
  obtain ⟨-, -, hkeys, -⟩ := Config.wf_iff.1 hw
  rw [unbooted_eq_booting]
  exact run_initBuses cfg.busReg (booting_ready hw _ _ _) (fun _ he => lookup_of_mem hkeys he) rfl

/-- No INIT_BUS has given the pin of an Output Target a level. -/
theorem run_bootOuts {cfg : Config} (hw : cfg.wf = true) :
    runSteps cfg.outReg.length (State.booting cfg (resetLatches cfg) (busDirs cfg) (outCalls cfg)) =
      .next (State.booting cfg (resetLatches cfg) (resetDirs cfg) [callOf .banner]) := by
  obtain ⟨-, -, -, hkeys, -⟩ := Config.wf_iff.1 hw
  exact run_initOuts cfg.outReg (booting_ready hw _ _ _) (fun _ he => lookup_of_mem hkeys he)
    (fun _ he => resetLatches_out hw he) rfl

theorem step_bootBanner {cfg : Config} (hw : cfg.wf = true) :
    step (State.booting cfg (resetLatches cfg) (resetDirs cfg) [callOf .banner]) =
      .next { State.resetOf cfg with trace := (commentLine cfg cfg.bannerText).map .tx } := by
  rw [step_of_banner (booting_ready hw _ _ _) rfl, sendComment, sendBytes_eq]
  rfl

/-- Settles O55: the steps of the Bus Targets, those of the Output Targets, the banner. -/
theorem startUpReachesReset : Obligations.StartUpReachesReset := by
  intro cfg hw
  have hlen : (bootInstrs cfg).length = cfg.busReg.length + (cfg.outReg.length + 1) := by simp [bootInstrs]
  refine ⟨_, if_pos hw, ?_, rfl⟩
  rw [hlen, run_add (run_bootBuses hw), run_add (run_bootOuts hw), run_succ (step_bootBanner hw), runSteps]

/-! ### Input during a transfer -/

/-- If the machine has a step while a transfer runs, it is the sequencer's. -/
theorem step_next_running (hq : s.seq ≠ .idle) (h : step s = .next t) : t = seqStep s :=
  Host.Outcome.next.inj (h.symm.trans (step_of_running (step_wf h) hq))

theorem act_setInq (b : BusTarget) (d : Bit) (a : Action) (q : List Byte) (s : State) :
    act b d a { s with inq := q } = ({ (act b d a s).1 with inq := q }, (act b d a s).2) := by
  cases a <;> rfl

theorem advance_setInq (b : BusTarget) (i k j : Nat) (r : Byte) (q : List Byte) (s : State) :
    advance b i k j r { s with inq := q } = { advance b i k j r s with inq := q } := by
  unfold advance
  split_ifs
  · rfl
  · cases k <;> rfl

theorem finishTransfer_setInq (b : BusTarget) (q : List Byte) (s : State) :
    finishTransfer b { s with inq := q } = { finishTransfer b s with inq := q } := by
  simp only [finishTransfer_eq]

/-- The sequencer does not look at `inq` and leaves it as it is. -/
theorem seqStep_setInq (q : List Byte) (s : State) :
    seqStep { s with inq := q } = { seqStep s with inq := q } := by
  unfold seqStep
  dsimp only
  split
  next => rfl
  next => rfl
  next =>
    split
    next => rw [act_setInq _ _ _ q s, advance_setInq]
    next => exact finishTransfer_setInq _ q s

theorem seqStep_inq (s : State) : (seqStep s).inq = s.inq := by
  simpa using congrArg State.inq (seqStep_setInq s.inq s)

theorem seqStep_hostSend (bytes : List Byte) (s : State) : seqStep (hostSend bytes s) = hostSend bytes (seqStep s) := by
  rw [hostSend, seqStep_setInq, hostSend, seqStep_inq]

/-- Settles O58: the step is the sequencer's, before the bytes and after them. -/
theorem inputWaitsDuringTransfer : Obligations.InputWaitsDuringTransfer := by
  intro s t bytes hq h
  rw [step_of_running (s := hostSend bytes s) (step_wf (s := s) h) hq, seqStep_hostSend, step_next_running hq h]
  exact ⟨seqStep_inq s, rfl⟩

end Sys2Proof.Machine
end
